-- ==== Sys2Proof/Word.lean ====
section
/-! DEFINITION. The words of the machine: XLEN and the XLEN-bit word, the byte, register numbers and
access widths (00_scope.md R7, R11, R17; 20_memory.md R80, R88; 30_encoding.md R123). -/

namespace Sys2Proof

/-- One memory byte (20_memory.md R80). -/
abbrev Byte := BitVec 8

/-- The parameter XLEN: 32 or 64, fixed for a run (00_scope.md R7, R8). -/
inductive Xlen where
  | rv32
  | rv64
  deriving DecidableEq, Repr

/-- XLEN as a number of bits. -/
abbrev Xlen.bits : Xlen → Nat
  | .rv32 => 32
  | .rv64 => 64

/-- SHW, the base 2 logarithm of XLEN (00_scope.md R17). -/
def Xlen.shw : Xlen → Nat
  | .rv32 => 5
  | .rv64 => 6

/-- An XLEN-bit value (00_scope.md R11). -/
abbrev XWord (x : Xlen) := BitVec x.bits

/-- A register number, naming x0 to x31 (30_encoding.md R123). -/
abbrev Reg := BitVec 5

/-- The width of a bus access: 1, 2, 4 or 8 bytes (20_memory.md R80, R88). -/
inductive Width where
  | byte
  | half
  | word
  | double
  deriving DecidableEq, Repr

/-- The bytes of an access. -/
abbrev Width.bytes : Width → Nat
  | .byte => 1
  | .half => 2
  | .word => 4
  | .double => 8

/-- The bits of an access. -/
abbrev Width.bits (w : Width) : Nat := 8 * w.bytes

end Sys2Proof
end

