-- ==== Sys2Proof/Config.lean ====
section
/-! DEFINITION. The parameters of the core (00_scope.md R7), the parameters `State.reset` takes, and the
free values the spec leaves to the platform. -/

namespace Sys2Proof

/-- What a region is (20_memory.md R83, R84). -/
inductive RegionKind where
  | ram
  | rom
  | device
  deriving DecidableEq, Repr

/-- A MemoryRegion (20_memory.md R82): it claims the addresses `base` to `base + length - 1`. -/
structure Region where
  base   : Nat
  length : Nat
  kind   : RegionKind
  r      : Bool
  w      : Bool
  x      : Bool
  deriving DecidableEq, Repr

/-- The permission an access asks for (20_memory.md R88, R89). -/
inductive Access where
  | read
  | write
  | fetch
  deriving DecidableEq, Repr

/-- MISALIGNED_POLICY (20_memory.md R91). -/
inductive MisalignedPolicy where
  | fault
  | split
  deriving DecidableEq, Repr

/-- The parameters that govern a run once the core exists (00_scope.md R7); XLEN is beside them in
`Machine.State`. None changes while the core runs. DESIGN CHOICE, safe: log 1. -/
structure Params where
  regions    : List Region
  misaligned : MisalignedPolicy
  haltWord   : BitVec 32
  deriving DecidableEq, Repr

/-- What the host hands over when it creates the core (70_reset_and_hazards.md R420, R421, R436), as
plain numbers, so that an inconsistent configuration can be written down and refused. -/
structure Configuration where
  xlen       : Nat
  regions    : List Region
  image      : List (Nat × List Byte)
  resetPc    : Nat
  misaligned : MisalignedPolicy
  haltWord   : Nat
  deriving DecidableEq, Repr

namespace Config

/-- The default HALT_WORD (30_encoding.md R149). -/
def defaultHaltWord : BitVec 32 := 0x0000000B#32

/-- The regions `State.reset` takes: the whole address space is one RAM region.
DESIGN CHOICE, unsafe for a claim about `State.reset`: log 2. -/
def resetRegions : List Region :=
  [{ base := 0, length := 2 ^ 64, kind := .ram, r := true, w := true, x := true }]

/-- The parameters `State.reset` takes. DESIGN CHOICE: log 2. -/
def resetParams : Params :=
  { regions := resetRegions, misaligned := .split, haltWord := defaultHaltWord }

/-- The RESET_PC `State.reset` takes. DESIGN CHOICE: log 2. -/
def resetPc : Nat := 0x1000

/-- The value of a storage byte that neither the image nor a store has written: any value, fixed for
the run (10_state.md R54, 70_reset_and_hazards.md R421). A FREE VALUE, one for each address: log 4. -/
opaque unwrittenByte : Nat → Byte

/-- `DeviceRead(region, offset, width)` (20_memory.md R84), for the n-th answer a device gives; `none`
is the answer `Fault(AccessFault)`. A FREE VALUE: log 5. -/
opaque deviceRead : Nat → Region → Nat → (w : Width) → Option (BitVec w.bits)

/-- Whether a device takes `DeviceWrite(region, offset, width, value)` (20_memory.md R84), for the n-th
answer a device gives; `false` is the answer `Fault(AccessFault)`. A FREE VALUE: log 5. -/
opaque deviceTakes : Nat → Region → Nat → (w : Width) → BitVec w.bits → Bool

/-- How far the platform's clock moved on before its n-th sample (60_exceptions.md R411: successive
samples never decrease). A FREE VALUE: log 8. -/
opaque timeAdvance : Nat → Nat

end Config

end Sys2Proof
end

