-- ==== Sys2Proof/Syntax.lean ====
section
/-! DEFINITION. The instructions: one constructor for each mnemonic of spec/opcode_table.json, with the
fields its format has (30_encoding.md R121 to R136). -/

namespace Sys2Proof

/-- The instructions. Fields stand in the assembler's order (30_encoding.md R155). An I or S immediate is
its 12-bit field, a U immediate its 20-bit field `w[31:12]`; a B offset is `imm[12:1]` and a J offset
`imm[20:1]`, whose bit 0 is always 0 (R132, R134). A shift amount has 6 bits, of which XLEN 32 uses 5
(R135). FENCE and FENCE.I keep the fields the core ignores (R152). -/
inductive Instr where
  -- 40_integer_arithmetic.md section 2
  | lui (rd : Reg) (imm : BitVec 20)
  | auipc (rd : Reg) (imm : BitVec 20)
  -- 40_integer_arithmetic.md section 3
  | addi (rd rs1 : Reg) (imm : BitVec 12)
  | slti (rd rs1 : Reg) (imm : BitVec 12)
  | sltiu (rd rs1 : Reg) (imm : BitVec 12)
  | xori (rd rs1 : Reg) (imm : BitVec 12)
  | ori (rd rs1 : Reg) (imm : BitVec 12)
  | andi (rd rs1 : Reg) (imm : BitVec 12)
  | slli (rd rs1 : Reg) (shamt : BitVec 6)
  | srli (rd rs1 : Reg) (shamt : BitVec 6)
  | srai (rd rs1 : Reg) (shamt : BitVec 6)
  -- 40_integer_arithmetic.md section 4
  | add (rd rs1 rs2 : Reg)
  | sub (rd rs1 rs2 : Reg)
  | sll (rd rs1 rs2 : Reg)
  | slt (rd rs1 rs2 : Reg)
  | sltu (rd rs1 rs2 : Reg)
  | xor (rd rs1 rs2 : Reg)
  | srl (rd rs1 rs2 : Reg)
  | sra (rd rs1 rs2 : Reg)
  | or (rd rs1 rs2 : Reg)
  | and (rd rs1 rs2 : Reg)
  -- 40_integer_arithmetic.md section 5
  | addiw (rd rs1 : Reg) (imm : BitVec 12)
  | slliw (rd rs1 : Reg) (shamt : BitVec 5)
  | srliw (rd rs1 : Reg) (shamt : BitVec 5)
  | sraiw (rd rs1 : Reg) (shamt : BitVec 5)
  | addw (rd rs1 rs2 : Reg)
  | subw (rd rs1 rs2 : Reg)
  | sllw (rd rs1 rs2 : Reg)
  | srlw (rd rs1 rs2 : Reg)
  | sraw (rd rs1 rs2 : Reg)
  -- 41_load_store.md
  | lb (rd rs1 : Reg) (imm : BitVec 12)
  | lh (rd rs1 : Reg) (imm : BitVec 12)
  | lw (rd rs1 : Reg) (imm : BitVec 12)
  | lbu (rd rs1 : Reg) (imm : BitVec 12)
  | lhu (rd rs1 : Reg) (imm : BitVec 12)
  | lwu (rd rs1 : Reg) (imm : BitVec 12)
  | ld (rd rs1 : Reg) (imm : BitVec 12)
  | sb (rs2 rs1 : Reg) (imm : BitVec 12)
  | sh (rs2 rs1 : Reg) (imm : BitVec 12)
  | sw (rs2 rs1 : Reg) (imm : BitVec 12)
  | sd (rs2 rs1 : Reg) (imm : BitVec 12)
  -- 42_branch_jump.md
  | beq (rs1 rs2 : Reg) (off : BitVec 12)
  | bne (rs1 rs2 : Reg) (off : BitVec 12)
  | blt (rs1 rs2 : Reg) (off : BitVec 12)
  | bge (rs1 rs2 : Reg) (off : BitVec 12)
  | bltu (rs1 rs2 : Reg) (off : BitVec 12)
  | bgeu (rs1 rs2 : Reg) (off : BitVec 12)
  | jal (rd : Reg) (off : BitVec 20)
  | jalr (rd rs1 : Reg) (imm : BitVec 12)
  -- 43_system_fence.md
  | fence (rd rs1 : Reg) (fm pred succ : BitVec 4)
  | fenceI (rd rs1 : Reg) (imm : BitVec 12)
  | ecall
  | ebreak
  | mret
  | wfi
  | halt
  -- 44_csr.md
  | csrrw (rd : Reg) (csr : BitVec 12) (rs1 : Reg)
  | csrrs (rd : Reg) (csr : BitVec 12) (rs1 : Reg)
  | csrrc (rd : Reg) (csr : BitVec 12) (rs1 : Reg)
  | csrrwi (rd : Reg) (csr : BitVec 12) (uimm : BitVec 5)
  | csrrsi (rd : Reg) (csr : BitVec 12) (uimm : BitVec 5)
  | csrrci (rd : Reg) (csr : BitVec 12) (uimm : BitVec 5)
  -- 45_mul_div.md
  | mul (rd rs1 rs2 : Reg)
  | mulh (rd rs1 rs2 : Reg)
  | mulhsu (rd rs1 rs2 : Reg)
  | mulhu (rd rs1 rs2 : Reg)
  | div (rd rs1 rs2 : Reg)
  | divu (rd rs1 rs2 : Reg)
  | rem (rd rs1 rs2 : Reg)
  | remu (rd rs1 rs2 : Reg)
  | mulw (rd rs1 rs2 : Reg)
  | divw (rd rs1 rs2 : Reg)
  | divuw (rd rs1 rs2 : Reg)
  | remw (rd rs1 rs2 : Reg)
  | remuw (rd rs1 rs2 : Reg)
  deriving DecidableEq, Repr

end Sys2Proof
end

