-- ==== Sys2Proof/WellFormed.lean ====
section
/-! DEFINITION. Which instruction terms exist for an XLEN (30_encoding.md R135, R158). The third check, that
HALT_WORD does not take an instruction's word away (R149), needs the encoder and is `Instr.shadowed` of
Decode.lean. -/

namespace Sys2Proof

/-- The instructions that exist only when XLEN is 64: the W forms and LWU, LD, SD (30_encoding.md R138,
R142, R143, R145, R158). -/
def Instr.rv64Only : Instr → Bool
  | .addiw .. | .slliw .. | .srliw .. | .sraiw .. | .addw .. | .subw .. | .sllw .. | .srlw .. | .sraw .. => true
  | .lwu .. | .ld .. | .sd .. => true
  | .mulw .. | .divw .. | .divuw .. | .remw .. | .remuw .. => true
  | .lui .. | .auipc .. | .addi .. | .slti .. | .sltiu .. | .xori .. | .ori .. | .andi .. => false
  | .slli .. | .srli .. | .srai .. => false
  | .add .. | .sub .. | .sll .. | .slt .. | .sltu .. | .xor .. | .srl .. | .sra .. | .or .. | .and .. => false
  | .lb .. | .lh .. | .lw .. | .lbu .. | .lhu .. | .sb .. | .sh .. | .sw .. => false
  | .beq .. | .bne .. | .blt .. | .bge .. | .bltu .. | .bgeu .. | .jal .. | .jalr .. => false
  | .fence .. | .fenceI .. | .ecall | .ebreak | .mret | .wfi | .halt => false
  | .csrrw .. | .csrrs .. | .csrrc .. | .csrrwi .. | .csrrsi .. | .csrrci .. => false
  | .mul .. | .mulh .. | .mulhsu .. | .mulhu .. | .div .. | .divu .. | .rem .. | .remu .. => false

/-- The shift amount of SLLI, SRLI and SRAI, which must be less than XLEN (30_encoding.md R135). -/
def Instr.xlenShamt : Instr → Option (BitVec 6)
  | .slli _ _ shamt | .srli _ _ shamt | .srai _ _ shamt => some shamt
  | .lui .. | .auipc .. | .addi .. | .slti .. | .sltiu .. | .xori .. | .ori .. | .andi .. => none
  | .add .. | .sub .. | .sll .. | .slt .. | .sltu .. | .xor .. | .srl .. | .sra .. | .or .. | .and .. => none
  | .addiw .. | .slliw .. | .srliw .. | .sraiw .. | .addw .. | .subw .. | .sllw .. | .srlw .. | .sraw .. => none
  | .lb .. | .lh .. | .lw .. | .lbu .. | .lhu .. | .lwu .. | .ld .. | .sb .. | .sh .. | .sw .. | .sd .. => none
  | .beq .. | .bne .. | .blt .. | .bge .. | .bltu .. | .bgeu .. | .jal .. | .jalr .. => none
  | .fence .. | .fenceI .. | .ecall | .ebreak | .mret | .wfi | .halt => none
  | .csrrw .. | .csrrs .. | .csrrc .. | .csrrwi .. | .csrrsi .. | .csrrci .. => none
  | .mul .. | .mulh .. | .mulhsu .. | .mulhu .. | .div .. | .divu .. | .rem .. | .remu .. => none
  | .mulw .. | .divw .. | .divuw .. | .remw .. | .remuw .. => none

/-- The instruction exists for this XLEN: an XLEN 64 instruction only there, a shift amount below XLEN. -/
def Instr.wellFormed (x : Xlen) (i : Instr) : Bool :=
  (!i.rv64Only || x = .rv64) &&
  (match i.xlenShamt with
   | some shamt => decide (shamt.toNat < x.bits)
   | none => true)

end Sys2Proof
end

