-- ==== Sys2Proof/Decode.lean ====
section
/-! DEFINITION. The decoder and the encoder, from the formats and the opcode map of 30_encoding.md, and the opcode
table of spec/opcode_table.json. -/

namespace Sys2Proof

/-! ### Fields of a word (30_encoding.md R123 to R136) -/

/-- `w[6:0]` (R123). -/
def opcodeOf (w : BitVec 32) : BitVec 7 := w.extractLsb' 0 7

/-- `w[11:7]` (R123). -/
def rdOf (w : BitVec 32) : Reg := w.extractLsb' 7 5

/-- `w[14:12]` (R123). -/
def funct3Of (w : BitVec 32) : BitVec 3 := w.extractLsb' 12 3

/-- `w[19:15]` (R123), also the `uimm` field (R136). -/
def rs1Of (w : BitVec 32) : Reg := w.extractLsb' 15 5

/-- `w[24:20]` (R123), also the 5-bit shift amount (R135). -/
def rs2Of (w : BitVec 32) : Reg := w.extractLsb' 20 5

/-- `w[31:25]` (R123). -/
def funct7Of (w : BitVec 32) : BitVec 7 := w.extractLsb' 25 7

/-- `w[31:26]`, the upper bits of a 6-bit shift (R135). -/
def funct6Of (w : BitVec 32) : BitVec 6 := w.extractLsb' 26 6

/-- `w[25:20]`, the 6-bit shift amount (R135). -/
def shamtOf (w : BitVec 32) : BitVec 6 := w.extractLsb' 20 6

/-- The I immediate's field `w[31:20]` (R130), also the CSR address (R136). -/
def immIOf (w : BitVec 32) : BitVec 12 := w.extractLsb' 20 12

/-- The S immediate's field `w[31:25], w[11:7]` (R131). -/
def immSOf (w : BitVec 32) : BitVec 12 := (w.extractLsb' 25 7 ++ w.extractLsb' 7 5).cast rfl

/-- `imm[12:1]` of the B immediate: `w[31], w[7], w[30:25], w[11:8]` (R132). -/
def offBOf (w : BitVec 32) : BitVec 12 :=
  (w.extractLsb' 31 1 ++ w.extractLsb' 7 1 ++ w.extractLsb' 25 6 ++ w.extractLsb' 8 4).cast rfl

/-- The U immediate's field `w[31:12]` (R133). -/
def immUOf (w : BitVec 32) : BitVec 20 := w.extractLsb' 12 20

/-- `imm[20:1]` of the J immediate: `w[31], w[19:12], w[20], w[30:21]` (R134). -/
def offJOf (w : BitVec 32) : BitVec 20 :=
  (w.extractLsb' 31 1 ++ w.extractLsb' 12 8 ++ w.extractLsb' 20 1 ++ w.extractLsb' 21 10).cast rfl

/-- FENCE's `fm`, `w[31:28]` (R156). -/
def fmOf (w : BitVec 32) : BitVec 4 := w.extractLsb' 28 4

/-- FENCE's `pred`, `w[27:24]` (R156). -/
def predOf (w : BitVec 32) : BitVec 4 := w.extractLsb' 24 4

/-- FENCE's `succ`, `w[23:20]` (R156). -/
def succOf (w : BitVec 32) : BitVec 4 := w.extractLsb' 20 4

/-! ### The decoder (30_encoding.md R137 to R159) -/

/-- Why a decoder gives no instruction. `illegalInstruction` is R122's `Fault(IllegalInstruction)` with its word;
`truncated` says that fewer than the 4 bytes of an instruction were given (R120), which a fetch never does. -/
inductive DecodeError where
  | illegalInstruction (w : BitVec 32)
  | truncated
  deriving DecidableEq, Repr

/-- An instruction that exists only when XLEN is 64 (R158). -/
def only64 (x : Xlen) (i : Instr) : Option Instr := if x = .rv64 then some i else none

/-- LOAD, 0x03 (R138). -/
def decodeLoad (x : Xlen) (w : BitVec 32) : Option Instr :=
  if funct3Of w = 0b000#3 then some (.lb (rdOf w) (rs1Of w) (immIOf w))
  else if funct3Of w = 0b001#3 then some (.lh (rdOf w) (rs1Of w) (immIOf w))
  else if funct3Of w = 0b010#3 then some (.lw (rdOf w) (rs1Of w) (immIOf w))
  else if funct3Of w = 0b011#3 then only64 x (.ld (rdOf w) (rs1Of w) (immIOf w))
  else if funct3Of w = 0b100#3 then some (.lbu (rdOf w) (rs1Of w) (immIOf w))
  else if funct3Of w = 0b101#3 then some (.lhu (rdOf w) (rs1Of w) (immIOf w))
  else if funct3Of w = 0b110#3 then only64 x (.lwu (rdOf w) (rs1Of w) (immIOf w))
  else none

/-- MISC-MEM, 0x0F (R139, R152). -/
def decodeMiscMem (w : BitVec 32) : Option Instr :=
  if funct3Of w = 0b000#3 then some (.fence (rdOf w) (rs1Of w) (fmOf w) (predOf w) (succOf w))
  else if funct3Of w = 0b001#3 then some (.fenceI (rdOf w) (rs1Of w) (immIOf w))
  else none

/-- A shift by an immediate of SHW bits: with XLEN 32 `w[25]` must be 0, which is the bound on the 6-bit field (R135). -/
def decodeShift (x : Xlen) (w : BitVec 32) (upper : BitVec 6) (i : Instr) : Option Instr :=
  if funct6Of w = upper ∧ (shamtOf w).toNat < x.bits then some i else none

/-- OP-IMM, 0x13 (R140). -/
def decodeOpImm (x : Xlen) (w : BitVec 32) : Option Instr :=
  if funct3Of w = 0b000#3 then some (.addi (rdOf w) (rs1Of w) (immIOf w))
  else if funct3Of w = 0b001#3 then decodeShift x w 0b000000#6 (.slli (rdOf w) (rs1Of w) (shamtOf w))
  else if funct3Of w = 0b010#3 then some (.slti (rdOf w) (rs1Of w) (immIOf w))
  else if funct3Of w = 0b011#3 then some (.sltiu (rdOf w) (rs1Of w) (immIOf w))
  else if funct3Of w = 0b100#3 then some (.xori (rdOf w) (rs1Of w) (immIOf w))
  else if funct3Of w = 0b101#3 then
    (if funct6Of w = 0b000000#6 then decodeShift x w 0b000000#6 (.srli (rdOf w) (rs1Of w) (shamtOf w))
     else decodeShift x w 0b010000#6 (.srai (rdOf w) (rs1Of w) (shamtOf w)))
  else if funct3Of w = 0b110#3 then some (.ori (rdOf w) (rs1Of w) (immIOf w))
  else some (.andi (rdOf w) (rs1Of w) (immIOf w))

/-- OP-IMM-32, 0x1B, XLEN 64 only (R142). -/
def decodeOpImm32 (x : Xlen) (w : BitVec 32) : Option Instr :=
  if funct3Of w = 0b000#3 then only64 x (.addiw (rdOf w) (rs1Of w) (immIOf w))
  else if funct3Of w = 0b001#3 then
    (if funct7Of w = 0b0000000#7 then only64 x (.slliw (rdOf w) (rs1Of w) (rs2Of w)) else none)
  else if funct3Of w = 0b101#3 then
    (if funct7Of w = 0b0000000#7 then only64 x (.srliw (rdOf w) (rs1Of w) (rs2Of w))
     else if funct7Of w = 0b0100000#7 then only64 x (.sraiw (rdOf w) (rs1Of w) (rs2Of w)) else none)
  else none

/-- STORE, 0x23 (R143). -/
def decodeStore (x : Xlen) (w : BitVec 32) : Option Instr :=
  if funct3Of w = 0b000#3 then some (.sb (rs2Of w) (rs1Of w) (immSOf w))
  else if funct3Of w = 0b001#3 then some (.sh (rs2Of w) (rs1Of w) (immSOf w))
  else if funct3Of w = 0b010#3 then some (.sw (rs2Of w) (rs1Of w) (immSOf w))
  else if funct3Of w = 0b011#3 then only64 x (.sd (rs2Of w) (rs1Of w) (immSOf w))
  else none

/-- The column funct7 = 0000000 of OP (R144). -/
def decodeOpBase (w : BitVec 32) : Option Instr :=
  if funct3Of w = 0b000#3 then some (.add (rdOf w) (rs1Of w) (rs2Of w))
  else if funct3Of w = 0b001#3 then some (.sll (rdOf w) (rs1Of w) (rs2Of w))
  else if funct3Of w = 0b010#3 then some (.slt (rdOf w) (rs1Of w) (rs2Of w))
  else if funct3Of w = 0b011#3 then some (.sltu (rdOf w) (rs1Of w) (rs2Of w))
  else if funct3Of w = 0b100#3 then some (.xor (rdOf w) (rs1Of w) (rs2Of w))
  else if funct3Of w = 0b101#3 then some (.srl (rdOf w) (rs1Of w) (rs2Of w))
  else if funct3Of w = 0b110#3 then some (.or (rdOf w) (rs1Of w) (rs2Of w))
  else some (.and (rdOf w) (rs1Of w) (rs2Of w))

/-- The column funct7 = 0100000 of OP (R144). -/
def decodeOpAlt (w : BitVec 32) : Option Instr :=
  if funct3Of w = 0b000#3 then some (.sub (rdOf w) (rs1Of w) (rs2Of w))
  else if funct3Of w = 0b101#3 then some (.sra (rdOf w) (rs1Of w) (rs2Of w))
  else none

/-- The column funct7 = 0000001 of OP, extension M (R144). -/
def decodeOpMulDiv (w : BitVec 32) : Option Instr :=
  if funct3Of w = 0b000#3 then some (.mul (rdOf w) (rs1Of w) (rs2Of w))
  else if funct3Of w = 0b001#3 then some (.mulh (rdOf w) (rs1Of w) (rs2Of w))
  else if funct3Of w = 0b010#3 then some (.mulhsu (rdOf w) (rs1Of w) (rs2Of w))
  else if funct3Of w = 0b011#3 then some (.mulhu (rdOf w) (rs1Of w) (rs2Of w))
  else if funct3Of w = 0b100#3 then some (.div (rdOf w) (rs1Of w) (rs2Of w))
  else if funct3Of w = 0b101#3 then some (.divu (rdOf w) (rs1Of w) (rs2Of w))
  else if funct3Of w = 0b110#3 then some (.rem (rdOf w) (rs1Of w) (rs2Of w))
  else some (.remu (rdOf w) (rs1Of w) (rs2Of w))

/-- OP, 0x33 (R144). -/
def decodeOp (w : BitVec 32) : Option Instr :=
  if funct7Of w = 0b0000000#7 then decodeOpBase w
  else if funct7Of w = 0b0100000#7 then decodeOpAlt w
  else if funct7Of w = 0b0000001#7 then decodeOpMulDiv w
  else none

/-- OP-32, 0x3B, XLEN 64 only (R145). -/
def decodeOp32 (x : Xlen) (w : BitVec 32) : Option Instr :=
  if funct7Of w = 0b0000000#7 then
    (if funct3Of w = 0b000#3 then only64 x (.addw (rdOf w) (rs1Of w) (rs2Of w))
     else if funct3Of w = 0b001#3 then only64 x (.sllw (rdOf w) (rs1Of w) (rs2Of w))
     else if funct3Of w = 0b101#3 then only64 x (.srlw (rdOf w) (rs1Of w) (rs2Of w))
     else none)
  else if funct7Of w = 0b0100000#7 then
    (if funct3Of w = 0b000#3 then only64 x (.subw (rdOf w) (rs1Of w) (rs2Of w))
     else if funct3Of w = 0b101#3 then only64 x (.sraw (rdOf w) (rs1Of w) (rs2Of w))
     else none)
  else if funct7Of w = 0b0000001#7 then
    (if funct3Of w = 0b000#3 then only64 x (.mulw (rdOf w) (rs1Of w) (rs2Of w))
     else if funct3Of w = 0b100#3 then only64 x (.divw (rdOf w) (rs1Of w) (rs2Of w))
     else if funct3Of w = 0b101#3 then only64 x (.divuw (rdOf w) (rs1Of w) (rs2Of w))
     else if funct3Of w = 0b110#3 then only64 x (.remw (rdOf w) (rs1Of w) (rs2Of w))
     else if funct3Of w = 0b111#3 then only64 x (.remuw (rdOf w) (rs1Of w) (rs2Of w))
     else none)
  else none

/-- BRANCH, 0x63 (R146). -/
def decodeBranch (w : BitVec 32) : Option Instr :=
  if funct3Of w = 0b000#3 then some (.beq (rs1Of w) (rs2Of w) (offBOf w))
  else if funct3Of w = 0b001#3 then some (.bne (rs1Of w) (rs2Of w) (offBOf w))
  else if funct3Of w = 0b100#3 then some (.blt (rs1Of w) (rs2Of w) (offBOf w))
  else if funct3Of w = 0b101#3 then some (.bge (rs1Of w) (rs2Of w) (offBOf w))
  else if funct3Of w = 0b110#3 then some (.bltu (rs1Of w) (rs2Of w) (offBOf w))
  else if funct3Of w = 0b111#3 then some (.bgeu (rs1Of w) (rs2Of w) (offBOf w))
  else none

/-- The four fixed words of SYSTEM (R148). -/
def ecallWord : BitVec 32 := 0x00000073#32
def ebreakWord : BitVec 32 := 0x00100073#32
def mretWord : BitVec 32 := 0x30200073#32
def wfiWord : BitVec 32 := 0x10500073#32

/-- SYSTEM, 0x73 (R148, R277). -/
def decodeSystem (w : BitVec 32) : Option Instr :=
  if funct3Of w = 0b000#3 then
    (if w = ecallWord then some .ecall
     else if w = ebreakWord then some .ebreak
     else if w = mretWord then some .mret
     else if w = wfiWord then some .wfi
     else none)
  else if funct3Of w = 0b001#3 then some (.csrrw (rdOf w) (immIOf w) (rs1Of w))
  else if funct3Of w = 0b010#3 then some (.csrrs (rdOf w) (immIOf w) (rs1Of w))
  else if funct3Of w = 0b011#3 then some (.csrrc (rdOf w) (immIOf w) (rs1Of w))
  else if funct3Of w = 0b101#3 then some (.csrrwi (rdOf w) (immIOf w) (rs1Of w))
  else if funct3Of w = 0b110#3 then some (.csrrsi (rdOf w) (immIOf w) (rs1Of w))
  else if funct3Of w = 0b111#3 then some (.csrrci (rdOf w) (immIOf w) (rs1Of w))
  else none

/-- The opcode map (R137): every major opcode not named gives no instruction (R150). -/
def decodeMap (x : Xlen) (w : BitVec 32) : Option Instr :=
  if opcodeOf w = 0x03#7 then decodeLoad x w
  else if opcodeOf w = 0x0F#7 then decodeMiscMem w
  else if opcodeOf w = 0x13#7 then decodeOpImm x w
  else if opcodeOf w = 0x17#7 then some (.auipc (rdOf w) (immUOf w))
  else if opcodeOf w = 0x1B#7 then decodeOpImm32 x w
  else if opcodeOf w = 0x23#7 then decodeStore x w
  else if opcodeOf w = 0x33#7 then decodeOp w
  else if opcodeOf w = 0x37#7 then some (.lui (rdOf w) (immUOf w))
  else if opcodeOf w = 0x3B#7 then decodeOp32 x w
  else if opcodeOf w = 0x63#7 then decodeBranch w
  else if opcodeOf w = 0x67#7 then
    (if funct3Of w = 0b000#3 then some (.jalr (rdOf w) (rs1Of w) (immIOf w)) else none)
  else if opcodeOf w = 0x6F#7 then some (.jal (rdOf w) (offJOf w))
  else if opcodeOf w = 0x73#7 then decodeSystem w
  else none

/-- `decode` (R122, R159): HALT_WORD first, then the opcode map, else illegal. It depends on the word, XLEN and
HALT_WORD only. -/
def decodeWord (x : Xlen) (haltWord w : BitVec 32) : Except DecodeError Instr :=
  if w = haltWord then .ok .halt
  else
    match decodeMap x w with
    | some i => .ok i
    | none => .error (.illegalInstruction w)

/-- The word of 4 bytes, the first the least significant (R120, 20_memory.md R86). -/
def wordOfBytes (b0 b1 b2 b3 : Byte) : BitVec 32 := (b3 ++ b2 ++ b1 ++ b0).cast rfl

/-- The bytes of a word as the hardware stores them, lowest address first (R120, 20_memory.md R86). -/
def bytesOfWord (w : BitVec 32) : List Byte :=
  [w.extractLsb' 0 8, w.extractLsb' 8 8, w.extractLsb' 16 8, w.extractLsb' 24 8]

/-- The decoder on bytes: the instruction the first 4 bytes are, with the bytes after them. -/
def decode (x : Xlen) (haltWord : BitVec 32) : List Byte → Except DecodeError (Instr × List Byte)
  | b0 :: b1 :: b2 :: b3 :: rest =>
    match decodeWord x haltWord (wordOfBytes b0 b1 b2 b3) with
    | .ok i => .ok (i, rest)
    | .error e => .error e
  | _ => .error .truncated

/-- The instruction the decoder reads from a word numbered as spec/opcode_table.json numbers it, laid out as the
hardware stores it, with the parameters of `State.reset`: XLEN 64, which has every mnemonic of the table, and the
default HALT_WORD (log 2). The bits above `nbits` are 0. -/
def decodeTableWord (nbits w : Nat) : Option Instr :=
  match decode .rv64 Config.defaultHaltWord (bytesOfWord (BitVec.ofNat 32 (w % 2 ^ nbits))) with
  | .ok (i, _) => some i
  | .error _ => none

/-! ### The encoder -/

/-- R format (R124). -/
def encodeR (funct7 : BitVec 7) (rs2 rs1 : Reg) (funct3 : BitVec 3) (rd : Reg) (opcode : BitVec 7) : BitVec 32 :=
  (funct7 ++ rs2 ++ rs1 ++ funct3 ++ rd ++ opcode).cast rfl

/-- I format (R125), also the CSR form (R136). -/
def encodeI (imm : BitVec 12) (rs1 : Reg) (funct3 : BitVec 3) (rd : Reg) (opcode : BitVec 7) : BitVec 32 :=
  (imm ++ rs1 ++ funct3 ++ rd ++ opcode).cast rfl

/-- The shift form of the I format with a 6-bit amount (R135). -/
def encodeShift (upper : BitVec 6) (shamt : BitVec 6) (rs1 : Reg) (funct3 : BitVec 3) (rd : Reg)
    (opcode : BitVec 7) : BitVec 32 :=
  (upper ++ shamt ++ rs1 ++ funct3 ++ rd ++ opcode).cast rfl

/-- S format (R126). -/
def encodeS (imm : BitVec 12) (rs2 rs1 : Reg) (funct3 : BitVec 3) (opcode : BitVec 7) : BitVec 32 :=
  (imm.extractLsb' 5 7 ++ rs2 ++ rs1 ++ funct3 ++ imm.extractLsb' 0 5 ++ opcode).cast rfl

/-- B format (R127), from `off = imm[12:1]`. -/
def encodeB (off : BitVec 12) (rs2 rs1 : Reg) (funct3 : BitVec 3) (opcode : BitVec 7) : BitVec 32 :=
  (off.extractLsb' 11 1 ++ off.extractLsb' 4 6 ++ rs2 ++ rs1 ++ funct3 ++ off.extractLsb' 0 4 ++
    off.extractLsb' 10 1 ++ opcode).cast rfl

/-- U format (R128). -/
def encodeU (imm : BitVec 20) (rd : Reg) (opcode : BitVec 7) : BitVec 32 :=
  (imm ++ rd ++ opcode).cast rfl

/-- J format (R129), from `off = imm[20:1]`. -/
def encodeJ (off : BitVec 20) (rd : Reg) (opcode : BitVec 7) : BitVec 32 :=
  (off.extractLsb' 19 1 ++ off.extractLsb' 0 10 ++ off.extractLsb' 10 1 ++ off.extractLsb' 11 8 ++ rd ++
    opcode).cast rfl

/-- FENCE's form of the I format (R156). -/
def encodeFence (fm pred succ : BitVec 4) (rs1 : Reg) (rd : Reg) : BitVec 32 :=
  (fm ++ pred ++ succ ++ rs1 ++ 0b000#3 ++ rd ++ 0x0F#7).cast rfl

/-- The word of an instruction, by the formats and the opcode map (R124 to R149). HALT is HALT_WORD. -/
def encode (haltWord : BitVec 32) : Instr → BitVec 32
  | .lui rd imm => encodeU imm rd 0x37#7
  | .auipc rd imm => encodeU imm rd 0x17#7
  | .addi rd rs1 imm => encodeI imm rs1 0b000#3 rd 0x13#7
  | .slti rd rs1 imm => encodeI imm rs1 0b010#3 rd 0x13#7
  | .sltiu rd rs1 imm => encodeI imm rs1 0b011#3 rd 0x13#7
  | .xori rd rs1 imm => encodeI imm rs1 0b100#3 rd 0x13#7
  | .ori rd rs1 imm => encodeI imm rs1 0b110#3 rd 0x13#7
  | .andi rd rs1 imm => encodeI imm rs1 0b111#3 rd 0x13#7
  | .slli rd rs1 shamt => encodeShift 0b000000#6 shamt rs1 0b001#3 rd 0x13#7
  | .srli rd rs1 shamt => encodeShift 0b000000#6 shamt rs1 0b101#3 rd 0x13#7
  | .srai rd rs1 shamt => encodeShift 0b010000#6 shamt rs1 0b101#3 rd 0x13#7
  | .add rd rs1 rs2 => encodeR 0b0000000#7 rs2 rs1 0b000#3 rd 0x33#7
  | .sub rd rs1 rs2 => encodeR 0b0100000#7 rs2 rs1 0b000#3 rd 0x33#7
  | .sll rd rs1 rs2 => encodeR 0b0000000#7 rs2 rs1 0b001#3 rd 0x33#7
  | .slt rd rs1 rs2 => encodeR 0b0000000#7 rs2 rs1 0b010#3 rd 0x33#7
  | .sltu rd rs1 rs2 => encodeR 0b0000000#7 rs2 rs1 0b011#3 rd 0x33#7
  | .xor rd rs1 rs2 => encodeR 0b0000000#7 rs2 rs1 0b100#3 rd 0x33#7
  | .srl rd rs1 rs2 => encodeR 0b0000000#7 rs2 rs1 0b101#3 rd 0x33#7
  | .sra rd rs1 rs2 => encodeR 0b0100000#7 rs2 rs1 0b101#3 rd 0x33#7
  | .or rd rs1 rs2 => encodeR 0b0000000#7 rs2 rs1 0b110#3 rd 0x33#7
  | .and rd rs1 rs2 => encodeR 0b0000000#7 rs2 rs1 0b111#3 rd 0x33#7
  | .addiw rd rs1 imm => encodeI imm rs1 0b000#3 rd 0x1B#7
  | .slliw rd rs1 shamt => encodeR 0b0000000#7 shamt rs1 0b001#3 rd 0x1B#7
  | .srliw rd rs1 shamt => encodeR 0b0000000#7 shamt rs1 0b101#3 rd 0x1B#7
  | .sraiw rd rs1 shamt => encodeR 0b0100000#7 shamt rs1 0b101#3 rd 0x1B#7
  | .addw rd rs1 rs2 => encodeR 0b0000000#7 rs2 rs1 0b000#3 rd 0x3B#7
  | .subw rd rs1 rs2 => encodeR 0b0100000#7 rs2 rs1 0b000#3 rd 0x3B#7
  | .sllw rd rs1 rs2 => encodeR 0b0000000#7 rs2 rs1 0b001#3 rd 0x3B#7
  | .srlw rd rs1 rs2 => encodeR 0b0000000#7 rs2 rs1 0b101#3 rd 0x3B#7
  | .sraw rd rs1 rs2 => encodeR 0b0100000#7 rs2 rs1 0b101#3 rd 0x3B#7
  | .lb rd rs1 imm => encodeI imm rs1 0b000#3 rd 0x03#7
  | .lh rd rs1 imm => encodeI imm rs1 0b001#3 rd 0x03#7
  | .lw rd rs1 imm => encodeI imm rs1 0b010#3 rd 0x03#7
  | .lbu rd rs1 imm => encodeI imm rs1 0b100#3 rd 0x03#7
  | .lhu rd rs1 imm => encodeI imm rs1 0b101#3 rd 0x03#7
  | .lwu rd rs1 imm => encodeI imm rs1 0b110#3 rd 0x03#7
  | .ld rd rs1 imm => encodeI imm rs1 0b011#3 rd 0x03#7
  | .sb rs2 rs1 imm => encodeS imm rs2 rs1 0b000#3 0x23#7
  | .sh rs2 rs1 imm => encodeS imm rs2 rs1 0b001#3 0x23#7
  | .sw rs2 rs1 imm => encodeS imm rs2 rs1 0b010#3 0x23#7
  | .sd rs2 rs1 imm => encodeS imm rs2 rs1 0b011#3 0x23#7
  | .beq rs1 rs2 off => encodeB off rs2 rs1 0b000#3 0x63#7
  | .bne rs1 rs2 off => encodeB off rs2 rs1 0b001#3 0x63#7
  | .blt rs1 rs2 off => encodeB off rs2 rs1 0b100#3 0x63#7
  | .bge rs1 rs2 off => encodeB off rs2 rs1 0b101#3 0x63#7
  | .bltu rs1 rs2 off => encodeB off rs2 rs1 0b110#3 0x63#7
  | .bgeu rs1 rs2 off => encodeB off rs2 rs1 0b111#3 0x63#7
  | .jal rd off => encodeJ off rd 0x6F#7
  | .jalr rd rs1 imm => encodeI imm rs1 0b000#3 rd 0x67#7
  | .fence rd rs1 fm pred succ => encodeFence fm pred succ rs1 rd
  | .fenceI rd rs1 imm => encodeI imm rs1 0b001#3 rd 0x0F#7
  | .ecall => ecallWord
  | .ebreak => ebreakWord
  | .mret => mretWord
  | .wfi => wfiWord
  | .halt => haltWord
  | .csrrw rd csr rs1 => encodeI csr rs1 0b001#3 rd 0x73#7
  | .csrrs rd csr rs1 => encodeI csr rs1 0b010#3 rd 0x73#7
  | .csrrc rd csr rs1 => encodeI csr rs1 0b011#3 rd 0x73#7
  | .csrrwi rd csr uimm => encodeI csr uimm 0b101#3 rd 0x73#7
  | .csrrsi rd csr uimm => encodeI csr uimm 0b110#3 rd 0x73#7
  | .csrrci rd csr uimm => encodeI csr uimm 0b111#3 rd 0x73#7
  | .mul rd rs1 rs2 => encodeR 0b0000001#7 rs2 rs1 0b000#3 rd 0x33#7
  | .mulh rd rs1 rs2 => encodeR 0b0000001#7 rs2 rs1 0b001#3 rd 0x33#7
  | .mulhsu rd rs1 rs2 => encodeR 0b0000001#7 rs2 rs1 0b010#3 rd 0x33#7
  | .mulhu rd rs1 rs2 => encodeR 0b0000001#7 rs2 rs1 0b011#3 rd 0x33#7
  | .div rd rs1 rs2 => encodeR 0b0000001#7 rs2 rs1 0b100#3 rd 0x33#7
  | .divu rd rs1 rs2 => encodeR 0b0000001#7 rs2 rs1 0b101#3 rd 0x33#7
  | .rem rd rs1 rs2 => encodeR 0b0000001#7 rs2 rs1 0b110#3 rd 0x33#7
  | .remu rd rs1 rs2 => encodeR 0b0000001#7 rs2 rs1 0b111#3 rd 0x33#7
  | .mulw rd rs1 rs2 => encodeR 0b0000001#7 rs2 rs1 0b000#3 rd 0x3B#7
  | .divw rd rs1 rs2 => encodeR 0b0000001#7 rs2 rs1 0b100#3 rd 0x3B#7
  | .divuw rd rs1 rs2 => encodeR 0b0000001#7 rs2 rs1 0b101#3 rd 0x3B#7
  | .remw rd rs1 rs2 => encodeR 0b0000001#7 rs2 rs1 0b110#3 rd 0x3B#7
  | .remuw rd rs1 rs2 => encodeR 0b0000001#7 rs2 rs1 0b111#3 rd 0x3B#7

/-- HALT_WORD takes this instruction's word away: "that instruction no longer exists in the core" (R149). -/
def Instr.shadowed (haltWord : BitVec 32) (i : Instr) : Bool :=
  i ≠ .halt && encode haltWord i = haltWord

/-! ### The opcode table (spec/opcode_table.json, R159) -/

/-- The instruction's name in spec/opcode_table.json. -/
def Instr.mnemonic : Instr → String
  | .lui .. => "LUI"
  | .auipc .. => "AUIPC"
  | .addi .. => "ADDI"
  | .slti .. => "SLTI"
  | .sltiu .. => "SLTIU"
  | .xori .. => "XORI"
  | .ori .. => "ORI"
  | .andi .. => "ANDI"
  | .slli .. => "SLLI"
  | .srli .. => "SRLI"
  | .srai .. => "SRAI"
  | .add .. => "ADD"
  | .sub .. => "SUB"
  | .sll .. => "SLL"
  | .slt .. => "SLT"
  | .sltu .. => "SLTU"
  | .xor .. => "XOR"
  | .srl .. => "SRL"
  | .sra .. => "SRA"
  | .or .. => "OR"
  | .and .. => "AND"
  | .addiw .. => "ADDIW"
  | .slliw .. => "SLLIW"
  | .srliw .. => "SRLIW"
  | .sraiw .. => "SRAIW"
  | .addw .. => "ADDW"
  | .subw .. => "SUBW"
  | .sllw .. => "SLLW"
  | .srlw .. => "SRLW"
  | .sraw .. => "SRAW"
  | .lb .. => "LB"
  | .lh .. => "LH"
  | .lw .. => "LW"
  | .lbu .. => "LBU"
  | .lhu .. => "LHU"
  | .lwu .. => "LWU"
  | .ld .. => "LD"
  | .sb .. => "SB"
  | .sh .. => "SH"
  | .sw .. => "SW"
  | .sd .. => "SD"
  | .beq .. => "BEQ"
  | .bne .. => "BNE"
  | .blt .. => "BLT"
  | .bge .. => "BGE"
  | .bltu .. => "BLTU"
  | .bgeu .. => "BGEU"
  | .jal .. => "JAL"
  | .jalr .. => "JALR"
  | .fence .. => "FENCE"
  | .fenceI .. => "FENCE.I"
  | .ecall => "ECALL"
  | .ebreak => "EBREAK"
  | .mret => "MRET"
  | .wfi => "WFI"
  | .halt => "HALT"
  | .csrrw .. => "CSRRW"
  | .csrrs .. => "CSRRS"
  | .csrrc .. => "CSRRC"
  | .csrrwi .. => "CSRRWI"
  | .csrrsi .. => "CSRRSI"
  | .csrrci .. => "CSRRCI"
  | .mul .. => "MUL"
  | .mulh .. => "MULH"
  | .mulhsu .. => "MULHSU"
  | .mulhu .. => "MULHU"
  | .div .. => "DIV"
  | .divu .. => "DIVU"
  | .rem .. => "REM"
  | .remu .. => "REMU"
  | .mulw .. => "MULW"
  | .divw .. => "DIVW"
  | .divuw .. => "DIVUW"
  | .remw .. => "REMW"
  | .remuw .. => "REMUW"

/-- A row of the table: the XLENs that admit it, its mask and its match. -/
structure OpcodeRow where
  mnemonic : String
  rv32     : Bool
  rv64     : Bool
  mask     : BitVec 32
  pattern  : BitVec 32
  deriving DecidableEq, Repr

/-- The row's `xlen` admits the configured XLEN (R159). -/
def OpcodeRow.admits (r : OpcodeRow) : Xlen → Bool
  | .rv32 => r.rv32
  | .rv64 => r.rv64

/-- `w & mask = match` (R159). -/
def OpcodeRow.matches (r : OpcodeRow) (w : BitVec 32) : Bool := w &&& r.mask = r.pattern

/-- The table's rows of 40_integer_arithmetic.md. -/
def integerRows : List OpcodeRow :=
  [⟨"LUI", true, true, 0x0000007F#32, 0x00000037#32⟩,
   ⟨"AUIPC", true, true, 0x0000007F#32, 0x00000017#32⟩,
   ⟨"ADDI", true, true, 0x0000707F#32, 0x00000013#32⟩,
   ⟨"SLTI", true, true, 0x0000707F#32, 0x00002013#32⟩,
   ⟨"SLTIU", true, true, 0x0000707F#32, 0x00003013#32⟩,
   ⟨"XORI", true, true, 0x0000707F#32, 0x00004013#32⟩,
   ⟨"ORI", true, true, 0x0000707F#32, 0x00006013#32⟩,
   ⟨"ANDI", true, true, 0x0000707F#32, 0x00007013#32⟩,
   ⟨"SLLI", true, false, 0xFE00707F#32, 0x00001013#32⟩,
   ⟨"SLLI", false, true, 0xFC00707F#32, 0x00001013#32⟩,
   ⟨"SRLI", true, false, 0xFE00707F#32, 0x00005013#32⟩,
   ⟨"SRLI", false, true, 0xFC00707F#32, 0x00005013#32⟩,
   ⟨"SRAI", true, false, 0xFE00707F#32, 0x40005013#32⟩,
   ⟨"SRAI", false, true, 0xFC00707F#32, 0x40005013#32⟩,
   ⟨"ADD", true, true, 0xFE00707F#32, 0x00000033#32⟩,
   ⟨"SUB", true, true, 0xFE00707F#32, 0x40000033#32⟩,
   ⟨"SLL", true, true, 0xFE00707F#32, 0x00001033#32⟩,
   ⟨"SLT", true, true, 0xFE00707F#32, 0x00002033#32⟩,
   ⟨"SLTU", true, true, 0xFE00707F#32, 0x00003033#32⟩,
   ⟨"XOR", true, true, 0xFE00707F#32, 0x00004033#32⟩,
   ⟨"SRL", true, true, 0xFE00707F#32, 0x00005033#32⟩,
   ⟨"SRA", true, true, 0xFE00707F#32, 0x40005033#32⟩,
   ⟨"OR", true, true, 0xFE00707F#32, 0x00006033#32⟩,
   ⟨"AND", true, true, 0xFE00707F#32, 0x00007033#32⟩,
   ⟨"ADDIW", false, true, 0x0000707F#32, 0x0000001B#32⟩]

/-- The table's rows of 40_integer_arithmetic.md. -/
def integerRowsMore : List OpcodeRow :=
  [⟨"SLLIW", false, true, 0xFE00707F#32, 0x0000101B#32⟩,
   ⟨"SRLIW", false, true, 0xFE00707F#32, 0x0000501B#32⟩,
   ⟨"SRAIW", false, true, 0xFE00707F#32, 0x4000501B#32⟩,
   ⟨"ADDW", false, true, 0xFE00707F#32, 0x0000003B#32⟩,
   ⟨"SUBW", false, true, 0xFE00707F#32, 0x4000003B#32⟩,
   ⟨"SLLW", false, true, 0xFE00707F#32, 0x0000103B#32⟩,
   ⟨"SRLW", false, true, 0xFE00707F#32, 0x0000503B#32⟩,
   ⟨"SRAW", false, true, 0xFE00707F#32, 0x4000503B#32⟩]

/-- The table's rows of 41_load_store.md. -/
def loadStoreRows : List OpcodeRow :=
  [⟨"LB", true, true, 0x0000707F#32, 0x00000003#32⟩,
   ⟨"LH", true, true, 0x0000707F#32, 0x00001003#32⟩,
   ⟨"LW", true, true, 0x0000707F#32, 0x00002003#32⟩,
   ⟨"LBU", true, true, 0x0000707F#32, 0x00004003#32⟩,
   ⟨"LHU", true, true, 0x0000707F#32, 0x00005003#32⟩,
   ⟨"LWU", false, true, 0x0000707F#32, 0x00006003#32⟩,
   ⟨"LD", false, true, 0x0000707F#32, 0x00003003#32⟩,
   ⟨"SB", true, true, 0x0000707F#32, 0x00000023#32⟩,
   ⟨"SH", true, true, 0x0000707F#32, 0x00001023#32⟩,
   ⟨"SW", true, true, 0x0000707F#32, 0x00002023#32⟩,
   ⟨"SD", false, true, 0x0000707F#32, 0x00003023#32⟩]

/-- The table's rows of 42_branch_jump.md. -/
def branchRows : List OpcodeRow :=
  [⟨"BEQ", true, true, 0x0000707F#32, 0x00000063#32⟩,
   ⟨"BNE", true, true, 0x0000707F#32, 0x00001063#32⟩,
   ⟨"BLT", true, true, 0x0000707F#32, 0x00004063#32⟩,
   ⟨"BGE", true, true, 0x0000707F#32, 0x00005063#32⟩,
   ⟨"BLTU", true, true, 0x0000707F#32, 0x00006063#32⟩,
   ⟨"BGEU", true, true, 0x0000707F#32, 0x00007063#32⟩,
   ⟨"JAL", true, true, 0x0000007F#32, 0x0000006F#32⟩,
   ⟨"JALR", true, true, 0x0000707F#32, 0x00000067#32⟩]

/-- The table's rows of 43_system_fence.md. -/
def systemRows : List OpcodeRow :=
  [⟨"FENCE", true, true, 0x0000707F#32, 0x0000000F#32⟩,
   ⟨"FENCE.I", true, true, 0x0000707F#32, 0x0000100F#32⟩,
   ⟨"ECALL", true, true, 0xFFFFFFFF#32, 0x00000073#32⟩,
   ⟨"EBREAK", true, true, 0xFFFFFFFF#32, 0x00100073#32⟩,
   ⟨"MRET", true, true, 0xFFFFFFFF#32, 0x30200073#32⟩,
   ⟨"WFI", true, true, 0xFFFFFFFF#32, 0x10500073#32⟩]

/-- The table's rows of 44_csr.md. -/
def csrRows : List OpcodeRow :=
  [⟨"CSRRW", true, true, 0x0000707F#32, 0x00001073#32⟩,
   ⟨"CSRRS", true, true, 0x0000707F#32, 0x00002073#32⟩,
   ⟨"CSRRC", true, true, 0x0000707F#32, 0x00003073#32⟩,
   ⟨"CSRRWI", true, true, 0x0000707F#32, 0x00005073#32⟩,
   ⟨"CSRRSI", true, true, 0x0000707F#32, 0x00006073#32⟩,
   ⟨"CSRRCI", true, true, 0x0000707F#32, 0x00007073#32⟩]

/-- The table's rows of 45_mul_div.md. -/
def mulDivRows : List OpcodeRow :=
  [⟨"MUL", true, true, 0xFE00707F#32, 0x02000033#32⟩,
   ⟨"MULH", true, true, 0xFE00707F#32, 0x02001033#32⟩,
   ⟨"MULHSU", true, true, 0xFE00707F#32, 0x02002033#32⟩,
   ⟨"MULHU", true, true, 0xFE00707F#32, 0x02003033#32⟩,
   ⟨"DIV", true, true, 0xFE00707F#32, 0x02004033#32⟩,
   ⟨"DIVU", true, true, 0xFE00707F#32, 0x02005033#32⟩,
   ⟨"REM", true, true, 0xFE00707F#32, 0x02006033#32⟩,
   ⟨"REMU", true, true, 0xFE00707F#32, 0x02007033#32⟩,
   ⟨"MULW", false, true, 0xFE00707F#32, 0x0200003B#32⟩,
   ⟨"DIVW", false, true, 0xFE00707F#32, 0x0200403B#32⟩,
   ⟨"DIVUW", false, true, 0xFE00707F#32, 0x0200503B#32⟩,
   ⟨"REMW", false, true, 0xFE00707F#32, 0x0200603B#32⟩,
   ⟨"REMUW", false, true, 0xFE00707F#32, 0x0200703B#32⟩]

/-- The table less HALT's row, which is the parameter HALT_WORD (R149, R159). -/
def opcodeTable : List OpcodeRow :=
  integerRows ++ integerRowsMore ++ loadStoreRows ++ branchRows ++ systemRows ++ csrRows ++ mulDivRows

end Sys2Proof
end

