-- ==== Sys2Proof/Machine/State.lean ====
section
/-! DEFINITION. The state of the machine as plain data, its reset value, and the names its steps use: privilege
modes, CSRs, exceptions, interrupts, faults and refusals (10_state.md R20, R52, R54). -/

namespace Sys2Proof.Machine

/-- The privilege modes (10_state.md R27). -/
inductive Priv where
  | machine
  | supervisor
  | user
  deriving DecidableEq, Repr

/-- The stored fields of `mstatus` (10_state.md R33 to R36, R39); `mpp` holds only its legal values. -/
structure MStatus where
  mie  : Bool
  mpie : Bool
  mpp  : Priv
  deriving DecidableEq, Repr

/-- One bit for each interrupt source (10_state.md R42, R43; 60_exceptions.md R380): the enable bits of `mie`, or
the three lines read as `mip`. -/
structure IrqBits where
  msi : Bool
  mti : Bool
  mei : Bool
  deriving DecidableEq, Repr

/-- The three interrupt sources (60_exceptions.md R380). -/
inductive Irq where
  | msi
  | mti
  | mei
  deriving DecidableEq, Repr

/-- An access handed to a device region (20_memory.md R84), with whether the device answered it without `Fault`. A
write's value is zero-extended to 64 bits. Log 6. -/
inductive DeviceEvent where
  | read (region : Region) (offset : Nat) (width : Width) (answered : Bool)
  | write (region : Region) (offset : Nat) (width : Width) (value : BitVec 64) (taken : Bool)
  deriving DecidableEq, Repr

/-- The storage bytes that have a value of their own (an image's, or a store's), by address: strictly rising
addresses, nothing else listed. A byte not listed has no entry at all and reads as `Config.unwrittenByte`, a free
value, so no listed byte can equal an unlisted one as data and equal memories are equal lists (log 4). -/
abbrev Memory := List Host.Cell

/-- The state of one hart, its memory and what it sees of its platform, for a given XLEN (10_state.md R20, R52).
The last four fields are the model's own record of the platform: logs 5, 6, 8. -/
structure Hart (x : Xlen) where
  params      : Params
  regs        : Vector (XWord x) 32
  pc          : XWord x
  priv        : Priv
  mstatus     : MStatus
  mie         : IrqBits
  irq         : IrqBits
  mtvec       : XWord x
  mepc        : XWord x
  mcause      : XWord x
  mtval       : XWord x
  cycleCtr    : BitVec 64
  instretCtr  : BitVec 64
  halted      : Bool
  memory      : Memory
  deviceLog   : List DeviceEvent
  deviceDraws : Nat
  timeNow     : Nat
  timeDraws   : Nat
  deriving DecidableEq, Repr

/-- The machine: XLEN (00_scope.md R7) and a hart of that XLEN. -/
structure State where
  xlen : Xlen
  hart : Hart xlen
  deriving DecidableEq, Repr

/-- The implemented CSRs (10_state.md R31). -/
inductive Csr where
  | mstatus
  | misa
  | mie
  | mtvec
  | mepc
  | mcause
  | mtval
  | mip
  | cycle
  | time
  | instret
  | cycleh
  | timeh
  | instreth
  deriving DecidableEq, Repr

/-- The synchronous exceptions with their information (00_scope.md R16; 60_exceptions.md R361, R363). -/
inductive Exc (x : Xlen) where
  | instrAccessFault (addr : XWord x)
  | illegalInstruction (word : BitVec 32)
  | breakpoint (addr : XWord x)
  | loadAccessFault (addr : XWord x)
  | storeAccessFault (addr : XWord x)
  | envCallFromU
  | envCallFromS
  | envCallFromM
  deriving DecidableEq, Repr

/-- Why a step could stop with a fault. -/
inductive Fault where
  /-- R430's `UnrecoverableFault`. No instruction, no step and no host operation of this model raises it: every
  exception is a trap the machine takes (70_reset_and_hazards.md R436). Safe. -/
  | unrecoverable
  deriving DecidableEq, Repr

/-- Why something is refused. -/
inductive Refusal where
  /-- An instruction that has no meaning yet, by its mnemonic: raised by `exec`'s refused arms only. Safe. -/
  | notModelled (mnemonic : String)
  /-- An inconsistent configuration: raised by `boot` at reset only (70_reset_and_hazards.md R436). Safe. -/
  | inconsistentConfiguration
  deriving DecidableEq, Repr

/-- The hart right after reset, with given parameters, entry point and memory (10_state.md R54). -/
def Hart.initial {x : Xlen} (params : Params) (resetPc : XWord x) (memory : Memory) : Hart x where
  params := params
  regs := Vector.replicate 32 0
  pc := resetPc
  priv := .machine
  mstatus := { mie := false, mpie := false, mpp := .user }
  mie := { msi := false, mti := false, mei := false }
  irq := { msi := false, mti := false, mei := false }
  mtvec := 0
  mepc := 0
  mcause := 0
  mtval := 0
  cycleCtr := 0
  instretCtr := 0
  halted := false
  memory := memory
  deviceLog := []
  deviceDraws := 0
  timeNow := 0
  timeDraws := 0

/-- The machine right after reset (10_state.md R54, 70_reset_and_hazards.md R420) with the parameters of
Config.lean and no image. The parameters are this model's choice: log 2. How a program comes to run: log 16. -/
def State.reset : State where
  xlen := .rv64
  hart := Hart.initial Config.resetParams (BitVec.ofNat 64 Config.resetPc) []

end Sys2Proof.Machine
end

