-- ==== Sys2Proof/Machine/Ops.lean ====
section
/-! DEFINITION. The named operations every meaning is made of: registers, memory bytes, the bus, MemRead, MemWrite and
Fetch, trap entry and return, the CSR bank, retiring an instruction, the interrupt check. -/

namespace Sys2Proof

/-! ### Regions (20_memory.md R82 to R89) -/

/-- The region claims the address (R82). -/
def Region.claims (r : Region) (a : Nat) : Bool := r.base ≤ a && a < r.base + r.length

/-- The region's permission for an access; it does not depend on the mode (R85). A ROM's w permission is 0 (R83):
DEDUCED, log 15. -/
def Region.permits (r : Region) : Access → Bool
  | .read => r.r
  | .write => r.w && r.kind != .rom
  | .fetch => r.x

/-- The region a single bus access of `n` bytes at `a` succeeds in: it claims `a` and `a + n - 1` and permits the
access (R88, R89). The regions of a consistent configuration do not overlap, so the first that claims `a` is the only
one (log 18). -/
def regionFor (regions : List Region) (k : Access) (a n : Nat) : Option Region :=
  match regions.find? (fun r => r.claims a) with
  | some r => if r.claims (a + n - 1) && r.permits k then some r else none
  | none => none

end Sys2Proof

namespace Sys2Proof.Machine

/-! ### Memory as data (20_memory.md R80, R86, R87) -/

/-- The canonical form: strictly rising addresses. No listed byte can equal what an unlisted address reads as, which
is no value of the data (log 4). -/
abbrev Memory.wf (m : Memory) : Prop := m.Pairwise (fun c d => c.1 < d.1)

/-- The byte written at an address, if one was. -/
def Memory.written : Memory → Nat → Option Byte
  | [], _ => none
  | (k, b) :: m, a => if k = a then some b else Memory.written m a

/-- Writes one byte, keeping the canonical form. -/
def Memory.put : Memory → Nat → Byte → Memory
  | [], a, b => [(a, b)]
  | (k, c) :: m, a, b =>
    if a < k then (a, b) :: (k, c) :: m
    else if a = k then (a, b) :: m
    else (k, c) :: Memory.put m a b

/-- Writes bytes at rising addresses. -/
def Memory.putBytes : Memory → Nat → List Byte → Memory
  | m, _, [] => m
  | m, a, b :: bs => Memory.putBytes (m.put a b) (a + 1) bs

/-- The value of bytes, the first the least significant (R86). -/
def littleEndian : List Byte → Nat
  | [] => 0
  | b :: bs => b.toNat + 256 * littleEndian bs

/-- Byte `i` of a value, counted from the least significant (R86). -/
def byteOf {n : Nat} (v : BitVec n) (i : Nat) : Byte := v.extractLsb' (8 * i) 8

/-- The `n` lowest bytes of a value, the least significant first (R86). -/
def bytesOf {n : Nat} (v : BitVec n) (count : Nat) : List Byte := (List.range count).map (byteOf v)

namespace Hart

variable {x : Xlen}

/-! ### Registers (00_scope.md R14; 10_state.md R21, R22) -/

/-- `x[r]`: register 0 reads as zero. -/
def reg (h : Hart x) (r : Reg) : XWord x := if r = 0 then 0 else h.regs[r.toNat]'r.isLt

/-- `x[r] <- v`: a write to register 0 is discarded. -/
def setReg (r : Reg) (v : XWord x) (h : Hart x) : Hart x :=
  { h with regs := if r = 0 then h.regs else h.regs.set r.toNat v r.isLt }

/-! ### Retiring an instruction (10_state.md R25; 60_exceptions.md R370, R410) -/

/-- The instruction commits with the given next pc; `instret_ctr` counts it. -/
def commit (target : XWord x) (h : Hart x) : Hart x :=
  { h with pc := target, instretCtr := h.instretCtr + 1 }

/-- The instruction commits with `pc + 4` and no other effect. -/
def advance (h : Hart x) : Hart x := h.commit (h.pc + 4)

/-- The instruction commits with `x[rd] <- v` and `pc + 4`. -/
def retire (rd : Reg) (v : XWord x) (h : Hart x) : Hart x := (h.setReg rd v).advance

/-! ### Storage bytes (20_memory.md R83, R88, R89; 70_reset_and_hazards.md R421) -/

/-- The byte a storage address holds: the byte last written there, or the unspecified byte it has held since reset. -/
def byteAt (h : Hart x) (a : Nat) : Byte := (h.memory.written a).getD (Config.unwrittenByte a)

/-- The bytes at `a` to `a + n - 1`. -/
def bytesAt (h : Hart x) (a n : Nat) : List Byte := (List.range n).map fun i => h.byteAt (a + i)

/-- The value at `a`, least significant byte first (R86, R88). -/
def storageRead (h : Hart x) (a : Nat) (w : Width) : BitVec w.bits :=
  BitVec.ofNat w.bits (littleEndian (h.bytesAt a w.bytes))

/-- Writes a value's bytes at `a` (R86, R89). -/
def storageWrite (a : Nat) (w : Width) (v : BitVec w.bits) (h : Hart x) : Hart x :=
  { h with memory := h.memory.putBytes a (bytesOf v w.bytes) }

/-! ### Devices (20_memory.md R84; logs 5 and 6) -/

/-- One more answer drawn from a device. -/
def drawDevice (h : Hart x) : Hart x := { h with deviceDraws := h.deviceDraws + 1 }

/-- Records an access handed to a device. -/
def logDevice (e : DeviceEvent) (h : Hart x) : Hart x := { h with deviceLog := h.deviceLog ++ [e] }

/-- `DeviceRead(region, offset, width)`: a free value, or `Fault`. -/
def deviceRead (r : Region) (a : Nat) (w : Width) (h : Hart x) : Option (BitVec w.bits) × Hart x :=
  let answer := Config.deviceRead h.deviceDraws r (a - r.base) w
  (answer, h.drawDevice.logDevice (.read r (a - r.base) w answer.isSome))

/-! ### Single bus accesses (20_memory.md R88, R89) -/

/-- A single bus read; `none` is `Fault(AccessFault)`. -/
def busRead (k : Access) (a : Nat) (w : Width) (h : Hart x) : Option (BitVec w.bits) × Hart x :=
  match regionFor h.params.regions k a w.bytes with
  | none => (none, h)
  | some r => if r.kind = .device then h.deviceRead r a w else (some (h.storageRead a w), h)

/-- Whether a single bus write would succeed. A device's answer is drawn here, and no access is handed to it. -/
def busWriteOk (a : Nat) (w : Width) (v : BitVec w.bits) (h : Hart x) : Bool × Hart x :=
  match regionFor h.params.regions .write a w.bytes with
  | none => (false, h)
  | some r =>
    if r.kind = .device then (Config.deviceTakes h.deviceDraws r (a - r.base) w v, h.drawDevice) else (true, h)

/-- Performs a single bus write whose answer is known: a device gets `DeviceWrite`, which is recorded with its answer
(log 6); storage changes only if the write succeeds. -/
def busWriteDo (a : Nat) (w : Width) (v : BitVec w.bits) (ok : Bool) (h : Hart x) : Hart x :=
  match regionFor h.params.regions .write a w.bytes with
  | none => h
  | some r =>
    if r.kind = .device then h.logDevice (.write r (a - r.base) w (v.setWidth 64) ok)
    else if ok then h.storageWrite a w v else h

/-! ### MemRead and MemWrite (20_memory.md R90 to R96; 00_scope.md R15) -/

/-- `W` single-byte reads from byte `i` on, ascending, wrapping modulo 2^XLEN; the first that faults ends it
(R92, R94). -/
def splitRead (ea : XWord x) : (n i : Nat) → Hart x → Except (XWord x) (List Byte) × Hart x
  | 0, _, h => (.ok [], h)
  | n + 1, i, h =>
    match h.busRead .read (ea + BitVec.ofNat x.bits i).toNat .byte with
    | (none, h1) => (.error (ea + BitVec.ofNat x.bits i), h1)
    | (some b, h1) =>
      match splitRead ea n (i + 1) h1 with
      | (.ok bs, h2) => (.ok (b :: bs), h2)
      | (.error a, h2) => (.error a, h2)

/-- `MemRead(ea, W)` (R92). The error is the address `LoadAccessFault` reports (R96). -/
def memRead (ea : XWord x) (w : Width) (h : Hart x) : Except (XWord x) (BitVec w.bits) × Hart x :=
  if ea.toNat % w.bytes = 0 then
    match h.busRead .read ea.toNat w with
    | (some v, h1) => (.ok v, h1)
    | (none, h1) => (.error ea, h1)
  else
    match h.params.misaligned with
    | .fault => (.error ea, h)
    | .split =>
      match splitRead ea w.bytes 0 h with
      | (.ok bs, h1) => (.ok (BitVec.ofNat w.bits (littleEndian bs)), h1)
      | (.error a, h1) => (.error a, h1)

/-- The check pass of a split store: the first byte that would fault, if one would (R93). -/
def splitCheck (ea : XWord x) {m : Nat} (v : BitVec m) : (n i : Nat) → Hart x → Option (XWord x) × Hart x
  | 0, _, h => (none, h)
  | n + 1, i, h =>
    match h.busWriteOk (ea + BitVec.ofNat x.bits i).toNat .byte (byteOf v i) with
    | (false, h1) => (some (ea + BitVec.ofNat x.bits i), h1)
    | (true, h1) => splitCheck ea v n (i + 1) h1

/-- The perform pass of a split store, every byte of which the check pass found writable (R93). -/
def splitWrite (ea : XWord x) {m : Nat} (v : BitVec m) : (n i : Nat) → Hart x → Hart x
  | 0, _, h => h
  | n + 1, i, h =>
    splitWrite ea v n (i + 1) (h.busWriteDo (ea + BitVec.ofNat x.bits i).toNat .byte (byteOf v i) true)

/-- `MemWrite(ea, W, v)` (R93): the address `StoreAccessFault` reports, if it faults, and the hart after it. -/
def memWrite (ea : XWord x) (w : Width) (v : BitVec w.bits) (h : Hart x) : Option (XWord x) × Hart x :=
  if ea.toNat % w.bytes = 0 then
    match h.busWriteOk ea.toNat w v with
    | (true, h1) => (none, h1.busWriteDo ea.toNat w v true)
    | (false, h1) => (some ea, h1.busWriteDo ea.toNat w v false)
  else
    match h.params.misaligned with
    | .fault => (some ea, h)
    | .split =>
      match splitCheck ea v w.bytes 0 h with
      | (some a, h1) => (some a, h1)
      | (none, h1) => (none, splitWrite ea v w.bytes 0 h1)

/-- `Fetch(pc)` (R95): the word, or the address `InstrAccessFault` reports. -/
def fetch (h : Hart x) : Except (XWord x) (BitVec 32) × Hart x :=
  if h.pc.toNat % 4 = 0 then
    match h.busRead .fetch h.pc.toNat .word with
    | (some w, h1) => (.ok w, h1)
    | (none, h1) => (.error h.pc, h1)
  else (.error h.pc, h)

end Hart

/-! ### Taking a trap and returning from it (60_exceptions.md R360 to R363, R380, R390, R391, R394) -/

/-- The 2-bit encoding of a mode, U < S < M (00_scope.md R17). -/
def Priv.code : Priv → Nat
  | .machine => 3
  | .supervisor => 1
  | .user => 0

/-- The exception code (60_exceptions.md R361). -/
def Exc.code {x : Xlen} : Exc x → Nat
  | .instrAccessFault _ => 1
  | .illegalInstruction _ => 2
  | .breakpoint _ => 3
  | .loadAccessFault _ => 5
  | .storeAccessFault _ => 7
  | .envCallFromU => 8
  | .envCallFromS => 9
  | .envCallFromM => 11

/-- The faulting value (60_exceptions.md R363). -/
def Exc.value {x : Xlen} : Exc x → XWord x
  | .instrAccessFault a => a
  | .illegalInstruction w => w.setWidth x.bits
  | .breakpoint a => a
  | .loadAccessFault a => a
  | .storeAccessFault a => a
  | .envCallFromU => 0
  | .envCallFromS => 0
  | .envCallFromM => 0

/-- The code of an interrupt, which is also its bit of `mip` and `mie` (60_exceptions.md R380). -/
def Irq.code : Irq → Nat
  | .msi => 3
  | .mti => 7
  | .mei => 11

/-- `{I, zext(c)}` (60_exceptions.md R390). -/
def causeWord (x : Xlen) (interrupt : Bool) (code : Nat) : XWord x :=
  BitVec.ofNat x.bits ((if interrupt then 2 ^ (x.bits - 1) else 0) + code)

/-- `TrapTarget(I, c)` for a given `mtvec` (60_exceptions.md R391). -/
def trapTarget {x : Xlen} (mtvec : XWord x) (interrupt : Bool) (code : Nat) : XWord x :=
  let base := mtvec &&& ~~~3#x.bits
  if interrupt && mtvec.getLsbD 0 then base + BitVec.ofNat x.bits (4 * code) else base

/-- `v AND NOT 1`, the write rule of `mepc` (10_state.md R45). -/
def clearBit0 {n : Nat} (v : BitVec n) : BitVec n := v &&& ~~~1#n

/-- `v AND NOT 2`, the write rule of `mtvec` (10_state.md R44). -/
def clearBit1 {n : Nat} (v : BitVec n) : BitVec n := v &&& ~~~2#n

namespace Hart

variable {x : Xlen}

/-- `TrapEntry(I, c, v, epc)` (60_exceptions.md R390). -/
def trapEntry (interrupt : Bool) (code : Nat) (value epc : XWord x) (h : Hart x) : Hart x :=
  { h with
    mepc := clearBit0 epc
    mcause := causeWord x interrupt code
    mtval := value
    mstatus := { mie := false, mpie := h.mstatus.mie, mpp := h.priv }
    priv := .machine
    pc := trapTarget h.mtvec interrupt code }

/-- `raise E(info)` at the instruction at `pc` (00_scope.md R16, 60_exceptions.md R370). -/
def raise (e : Exc x) (h : Hart x) : Hart x := h.trapEntry false e.code e.value h.pc

/-- The return from a trap (43_system_fence.md R274, 60_exceptions.md R394), less the count of the instruction. -/
def trapReturn (h : Hart x) : Hart x :=
  { h with
    pc := h.mepc
    priv := h.mstatus.mpp
    mstatus := { mie := h.mstatus.mpie, mpie := true, mpp := .user } }

/-! ### The instruction boundary (60_exceptions.md R370 part B, R380 to R384) -/

/-- The interrupt taken among candidates: external before software before timer (R383). -/
def candidate (h : Hart x) : Option Irq :=
  if h.irq.mei && h.mie.mei then some .mei
  else if h.irq.msi && h.mie.msi then some .msi
  else if h.irq.mti && h.mie.mti then some .mti
  else none

/-- A candidate may be taken: below M mode always, in M mode if `mstatus.MIE` is 1 (R382). -/
def interruptsEnabled (h : Hart x) : Bool := h.priv != .machine || h.mstatus.mie

/-- The interrupt check (R370 part B). -/
def interruptCheck (h : Hart x) : Hart x :=
  match h.candidate with
  | some q => if h.interruptsEnabled then h.trapEntry true q.code 0 h.pc else h
  | none => h

/-- What ends a step whose instruction committed or trapped: `cycle_ctr` counts the step, then the interrupt check
(R370, R410). -/
def boundary (h : Hart x) : Hart x := { h with cycleCtr := h.cycleCtr + 1 }.interruptCheck

end Hart

/-! ### The CSR bank (10_state.md R30 to R51; 44_csr.md R300 to R302) -/

/-- The CSR an address names for an XLEN (10_state.md R31); every other address names none (R51). -/
def csrAt (x : Xlen) (a : BitVec 12) : Option Csr :=
  if a = 0x300#12 then some .mstatus
  else if a = 0x301#12 then some .misa
  else if a = 0x304#12 then some .mie
  else if a = 0x305#12 then some .mtvec
  else if a = 0x341#12 then some .mepc
  else if a = 0x342#12 then some .mcause
  else if a = 0x343#12 then some .mtval
  else if a = 0x344#12 then some .mip
  else if a = 0xC00#12 then some .cycle
  else if a = 0xC01#12 then some .time
  else if a = 0xC02#12 then some .instret
  else if a = 0xC80#12 then (if x = .rv32 then some .cycleh else none)
  else if a = 0xC81#12 then (if x = .rv32 then some .timeh else none)
  else if a = 0xC82#12 then (if x = .rv32 then some .instreth else none)
  else none

/-- The checks of an access, in their order: existence, privilege, read-only (44_csr.md R300). -/
def csrAccess (x : Xlen) (priv : Priv) (a : BitVec 12) (writes : Bool) : Option Csr :=
  match csrAt x a with
  | none => none
  | some c =>
    if priv.code < (a.extractLsb' 8 2).toNat then none
    else if writes && a.extractLsb' 10 2 = 0b11#2 then none
    else some c

/-- The value `mstatus` reads (10_state.md R33, R37, R39). -/
def MStatus.read (x : Xlen) (m : MStatus) : XWord x :=
  BitVec.ofNat x.bits ((if m.mie then 0x8 else 0) + (if m.mpie then 0x80 else 0) + 0x800 * m.mpp.code +
    (match x with
     | .rv32 => 0
     | .rv64 => 0xA00000000))

/-- The mode a 2-bit MPP field stands for; 0b10 is no mode (10_state.md R36). -/
def privOfCode (c : BitVec 2) : Option Priv :=
  if c = 0b00#2 then some .user
  else if c = 0b01#2 then some .supervisor
  else if c = 0b11#2 then some .machine
  else none

/-- The write rule of `mstatus` (10_state.md R39): an MPP of 0b10 keeps the old one. -/
def MStatus.write {n : Nat} (v : BitVec n) (m : MStatus) : MStatus where
  mie := v.getLsbD 3
  mpie := v.getLsbD 7
  mpp := (privOfCode (v.extractLsb' 11 2)).getD m.mpp

/-- The value `misa` reads (10_state.md R41). -/
def misaWord : (x : Xlen) → XWord x
  | .rv32 => 0x40141100#32
  | .rv64 => 0x8000000000141100#64

/-- The value three source bits read as, in `mie` or `mip` (10_state.md R42, R43). -/
def IrqBits.read (n : Nat) (b : IrqBits) : BitVec n :=
  BitVec.ofNat n ((if b.msi then 0x8 else 0) + (if b.mti then 0x80 else 0) + (if b.mei then 0x800 else 0))

/-- The write rule of `mie`: `v & 0x888` (10_state.md R42). -/
def IrqBits.ofWord {n : Nat} (v : BitVec n) : IrqBits where
  msi := v.getLsbD 3
  mti := v.getLsbD 7
  mei := v.getLsbD 11

namespace Hart

variable {x : Xlen}

/-- The platform's clock at its next sample: never before the last one (60_exceptions.md R411; log 8). -/
def timeNext (h : Hart x) : Nat := h.timeNow + Config.timeAdvance h.timeDraws

/-- Takes a sample of the clock. -/
def sampleTime (h : Hart x) : Hart x := { h with timeNow := h.timeNext, timeDraws := h.timeDraws + 1 }

/-- `TimeNow()`, 64 bits (10_state.md R49). -/
def timeValue (h : Hart x) : BitVec 64 := BitVec.ofNat 64 h.timeNext

/-- The value a CSR reads (44_csr.md R301). A 64-bit counter gives its low XLEN bits, an `h` CSR bits 63:32
(10_state.md R48 to R50). -/
def csrValue (c : Csr) (h : Hart x) : XWord x :=
  match c with
  | .mstatus => h.mstatus.read x
  | .misa => misaWord x
  | .mie => h.mie.read x.bits
  | .mtvec => h.mtvec
  | .mepc => h.mepc
  | .mcause => h.mcause
  | .mtval => h.mtval
  | .mip => h.irq.read x.bits
  | .cycle => h.cycleCtr.setWidth x.bits
  | .time => h.timeValue.setWidth x.bits
  | .instret => h.instretCtr.setWidth x.bits
  | .cycleh => (h.cycleCtr.extractLsb' 32 32).setWidth x.bits
  | .timeh => (h.timeValue.extractLsb' 32 32).setWidth x.bits
  | .instreth => (h.instretCtr.extractLsb' 32 32).setWidth x.bits

/-- What reading a CSR does besides: a read of `time` or `timeh` takes its own sample of the clock (10_state.md R49);
no other read has an effect (44_csr.md R301). -/
def csrSampled (c : Csr) (h : Hart x) : Hart x :=
  match c with
  | .time => h.sampleTime
  | .timeh => h.sampleTime
  | .mstatus => h
  | .misa => h
  | .mie => h
  | .mtvec => h
  | .mepc => h
  | .mcause => h
  | .mtval => h
  | .mip => h
  | .cycle => h
  | .instret => h
  | .cycleh => h
  | .instreth => h

/-- A CSR's own write rule (44_csr.md R302). `misa` and `mip` accept a write and do not change; the counters are
read-only addresses, which no access that writes gets past (R300). -/
def csrWrite (c : Csr) (v : XWord x) (h : Hart x) : Hart x :=
  match c with
  | .mstatus => { h with mstatus := h.mstatus.write v }
  | .misa => h
  | .mie => { h with mie := IrqBits.ofWord v }
  | .mtvec => { h with mtvec := clearBit1 v }
  | .mepc => { h with mepc := clearBit0 v }
  | .mcause => { h with mcause := v }
  | .mtval => { h with mtval := v }
  | .mip => h
  | .cycle => h
  | .time => h
  | .instret => h
  | .cycleh => h
  | .timeh => h
  | .instreth => h

/-- The word of an instruction as this core decodes it. -/
def wordOf (i : Instr) (h : Hart x) : BitVec 32 := encode h.params.haltWord i

/-- The instruction's word is an illegal instruction here: `IllegalInstruction(w)` (30_encoding.md R150). -/
def illegal (i : Instr) (h : Hart x) : Hart x := h.raise (.illegalInstruction (h.wordOf i))

/-- One CSR instruction (44_csr.md R300 to R309): the checks; `x[rd] <- old`; the CSR gets `new old` through its write
rule if the instruction writes; `pc + 4`. -/
def csrInstr (i : Instr) (rd : Reg) (a : BitVec 12) (writes : Bool) (new : XWord x → XWord x) (h : Hart x) : Hart x :=
  match csrAccess x h.priv a writes with
  | none => h.illegal i
  | some c =>
    let h1 := h.csrSampled c
    let h2 := if writes then h1.csrWrite c (new (h.csrValue c)) else h1
    h2.retire rd (h.csrValue c)

/-- Places an instruction word at the pc, as an image would (70_reset_and_hazards.md R421; log 16). -/
def placeWord (w : BitVec 32) (h : Hart x) : Hart x :=
  { h with memory := h.memory.putBytes h.pc.toNat (bytesOfWord w) }

end Hart

/-! ### Outcomes -/

/-- The next state, with the same XLEN (00_scope.md R8). -/
def State.next (s : State) (h : Hart s.xlen) : Host.Outcome State Fault Refusal :=
  .next { xlen := s.xlen, hart := h }

/-- An instruction that exists only when XLEN is 64; with XLEN 32 its word is an illegal instruction
(30_encoding.md R158; log 11). -/
def State.only64 (s : State) (i : Instr) (h : Hart s.xlen) : Host.Outcome State Fault Refusal :=
  if s.xlen = .rv64 then s.next h else s.next (s.hart.illegal i)

/-- An instruction whose shift amount must be less than XLEN; otherwise its word is an illegal instruction
(30_encoding.md R135; log 11). -/
def State.ifShamt (s : State) (i : Instr) (shamt : BitVec 6) (h : Hart s.xlen) : Host.Outcome State Fault Refusal :=
  if shamt.toNat < s.xlen.bits then s.next h else s.next (s.hart.illegal i)

end Sys2Proof.Machine
end

