-- ==== Sys2Proof/Machine/Flags.lean ====
section
/-! DEFINITION. The core has no flags (10_state.md R28): a comparison writes 0 or 1 to a register or decides a branch.
These are the comparisons (00_scope.md R12, 40_integer_arithmetic.md R193). -/

namespace Sys2Proof.Machine

/-- `signed(a) < signed(b)`. -/
def ltSigned {n : Nat} (a b : BitVec n) : Bool := a.toInt < b.toInt

/-- `unsigned(a) < unsigned(b)`. -/
def ltUnsigned {n : Nat} (a b : BitVec n) : Bool := a.toNat < b.toNat

/-- A comparison's result as an XLEN-bit 1 or 0 (40_integer_arithmetic.md R164). -/
def boolWord (x : Xlen) (b : Bool) : XWord x := if b then 1#x.bits else 0#x.bits

end Sys2Proof.Machine
end

