-- ==== Sys2Proof/Machine/Operands.lean ====
section
/-! DEFINITION. The operand forms: immediates, effective addresses, shift amounts, extension of a word result
(30_encoding.md R130 to R136; 40_integer_arithmetic.md R192, R194; 41_load_store.md R220). -/

namespace Sys2Proof.Machine

/-- An I or S immediate (30_encoding.md R130, R131). -/
def imm12 (x : Xlen) (imm : BitVec 12) : XWord x := imm.signExtend x.bits

/-- A B immediate from `imm[12:1]` (30_encoding.md R132). -/
def immB (x : Xlen) (off : BitVec 12) : XWord x := (off ++ 0#1).signExtend x.bits

/-- A U immediate from `w[31:12]` (30_encoding.md R133). -/
def immU (x : Xlen) (imm : BitVec 20) : XWord x := (imm ++ 0#12).signExtend x.bits

/-- A J immediate from `imm[20:1]` (30_encoding.md R134). -/
def immJ (x : Xlen) (off : BitVec 20) : XWord x := (off ++ 0#1).signExtend x.bits

/-- `uimm`, zero-extended (30_encoding.md R136). -/
def immZ (x : Xlen) (uimm : BitVec 5) : XWord x := uimm.setWidth x.bits

/-- The amount of an XLEN-wide register shift: the low SHW bits (40_integer_arithmetic.md R192). -/
def shiftAmount {x : Xlen} (v : XWord x) : Nat := (v.extractLsb' 0 x.shw).toNat

/-- The amount of a word shift: the low 5 bits (40_integer_arithmetic.md R192). -/
def shiftAmountW {x : Xlen} (v : XWord x) : Nat := (v.extractLsb' 0 5).toNat

/-- The low 32 bits of an operand (40_integer_arithmetic.md R194). -/
def low32 {x : Xlen} (v : XWord x) : BitVec 32 := v.setWidth 32

/-- The sign extension of a 32-bit result (40_integer_arithmetic.md R194). -/
def sext32 (x : Xlen) (v : BitVec 32) : XWord x := v.signExtend x.bits

/-- The effective address of a load or store: base plus signed displacement, modulo 2^XLEN (41_load_store.md R220). -/
def Hart.ea {x : Xlen} (h : Hart x) (rs1 : Reg) (imm : BitVec 12) : XWord x := h.reg rs1 + imm12 x imm

end Sys2Proof.Machine
end

