-- ==== Sys2Proof/Machine/Branch.lean ====
section
/-! DEFINITION. Branches and jumps (42_branch_jump.md R250 to R261). The target's alignment is not checked here: the next
fetch does it (R259). -/

namespace Sys2Proof.Machine

/-- A conditional branch: the target if taken, else `pc + 4` (R250). -/
def Hart.branch {x : Xlen} (taken : Bool) (off : BitVec 12) (h : Hart x) : Hart x :=
  h.commit (if taken then h.pc + immB x off else h.pc + 4)

/-- A jump: `x[rd] <- pc + 4` and the target, both from the state before (R257, R258). -/
def Hart.jump {x : Xlen} (rd : Reg) (target : XWord x) (h : Hart x) : Hart x :=
  (h.setReg rd (h.pc + 4)).commit target

/-- BEQ (R251). -/
def execBeq (rs1 rs2 : Reg) (off : BitVec 12) (s : State) : Host.Outcome State Fault Refusal :=
  s.next (s.hart.branch (s.hart.reg rs1 = s.hart.reg rs2) off)

/-- BNE (R252). -/
def execBne (rs1 rs2 : Reg) (off : BitVec 12) (s : State) : Host.Outcome State Fault Refusal :=
  s.next (s.hart.branch (s.hart.reg rs1 ≠ s.hart.reg rs2) off)

/-- BLT (R253). -/
def execBlt (rs1 rs2 : Reg) (off : BitVec 12) (s : State) : Host.Outcome State Fault Refusal :=
  s.next (s.hart.branch (ltSigned (s.hart.reg rs1) (s.hart.reg rs2)) off)

/-- BGE (R254). -/
def execBge (rs1 rs2 : Reg) (off : BitVec 12) (s : State) : Host.Outcome State Fault Refusal :=
  s.next (s.hart.branch (!ltSigned (s.hart.reg rs1) (s.hart.reg rs2)) off)

/-- BLTU (R255). -/
def execBltu (rs1 rs2 : Reg) (off : BitVec 12) (s : State) : Host.Outcome State Fault Refusal :=
  s.next (s.hart.branch (ltUnsigned (s.hart.reg rs1) (s.hart.reg rs2)) off)

/-- BGEU (R256). -/
def execBgeu (rs1 rs2 : Reg) (off : BitVec 12) (s : State) : Host.Outcome State Fault Refusal :=
  s.next (s.hart.branch (!ltUnsigned (s.hart.reg rs1) (s.hart.reg rs2)) off)

/-- JAL (R257). -/
def execJal (rd : Reg) (off : BitVec 20) (s : State) : Host.Outcome State Fault Refusal :=
  s.next (s.hart.jump rd (s.hart.pc + immJ s.xlen off))

/-- JALR (R258): bit 0 of the sum is cleared. -/
def execJalr (rd rs1 : Reg) (imm : BitVec 12) (s : State) : Host.Outcome State Fault Refusal :=
  s.next (s.hart.jump rd (clearBit0 (s.hart.reg rs1 + imm12 s.xlen imm)))

end Sys2Proof.Machine
end

