-- ==== Sys2Proof/Machine/CsrInstr.lean ====
section
/-! DEFINITION. The CSR instructions (44_csr.md R300 to R311). Whether one writes depends on its encoding, not on a value
(R302). -/

namespace Sys2Proof.Machine

/-- CSRRW (R303). -/
def execCsrrw (rd : Reg) (csr : BitVec 12) (rs1 : Reg) (s : State) : Host.Outcome State Fault Refusal :=
  s.next (s.hart.csrInstr (.csrrw rd csr rs1) rd csr true (fun _ => s.hart.reg rs1))

/-- CSRRS (R304). -/
def execCsrrs (rd : Reg) (csr : BitVec 12) (rs1 : Reg) (s : State) : Host.Outcome State Fault Refusal :=
  s.next (s.hart.csrInstr (.csrrs rd csr rs1) rd csr (rs1 ≠ 0) (fun old => old ||| s.hart.reg rs1))

/-- CSRRC (R305). -/
def execCsrrc (rd : Reg) (csr : BitVec 12) (rs1 : Reg) (s : State) : Host.Outcome State Fault Refusal :=
  s.next (s.hart.csrInstr (.csrrc rd csr rs1) rd csr (rs1 ≠ 0) (fun old => old &&& ~~~s.hart.reg rs1))

/-- CSRRWI (R306). -/
def execCsrrwi (rd : Reg) (csr : BitVec 12) (uimm : BitVec 5) (s : State) : Host.Outcome State Fault Refusal :=
  s.next (s.hart.csrInstr (.csrrwi rd csr uimm) rd csr true (fun _ => immZ s.xlen uimm))

/-- CSRRSI (R307). -/
def execCsrrsi (rd : Reg) (csr : BitVec 12) (uimm : BitVec 5) (s : State) : Host.Outcome State Fault Refusal :=
  s.next (s.hart.csrInstr (.csrrsi rd csr uimm) rd csr (uimm ≠ 0) (fun old => old ||| immZ s.xlen uimm))

/-- CSRRCI (R308). -/
def execCsrrci (rd : Reg) (csr : BitVec 12) (uimm : BitVec 5) (s : State) : Host.Outcome State Fault Refusal :=
  s.next (s.hart.csrInstr (.csrrci rd csr uimm) rd csr (uimm ≠ 0) (fun old => old &&& ~~~immZ s.xlen uimm))

end Sys2Proof.Machine
end

