-- ==== Sys2Proof/Machine/Integer.lean ====
section
/-! DEFINITION. The integer arithmetic instructions (40_integer_arithmetic.md R160 to R194). Each reads its sources, then
writes one register, sets `pc + 4` and retires (R160). -/

namespace Sys2Proof.Machine

/-- LUI (R161). -/
def execLui (rd : Reg) (imm : BitVec 20) (s : State) : Host.Outcome State Fault Refusal :=
  s.next (s.hart.retire rd (immU s.xlen imm))

/-- AUIPC (R162). -/
def execAuipc (rd : Reg) (imm : BitVec 20) (s : State) : Host.Outcome State Fault Refusal :=
  s.next (s.hart.retire rd (s.hart.pc + immU s.xlen imm))

/-- ADDI (R163). -/
def execAddi (rd rs1 : Reg) (imm : BitVec 12) (s : State) : Host.Outcome State Fault Refusal :=
  s.next (s.hart.retire rd (s.hart.reg rs1 + imm12 s.xlen imm))

/-- SLTI (R164). -/
def execSlti (rd rs1 : Reg) (imm : BitVec 12) (s : State) : Host.Outcome State Fault Refusal :=
  s.next (s.hart.retire rd (boolWord s.xlen (ltSigned (s.hart.reg rs1) (imm12 s.xlen imm))))

/-- SLTIU (R165). -/
def execSltiu (rd rs1 : Reg) (imm : BitVec 12) (s : State) : Host.Outcome State Fault Refusal :=
  s.next (s.hart.retire rd (boolWord s.xlen (ltUnsigned (s.hart.reg rs1) (imm12 s.xlen imm))))

/-- XORI (R166). -/
def execXori (rd rs1 : Reg) (imm : BitVec 12) (s : State) : Host.Outcome State Fault Refusal :=
  s.next (s.hart.retire rd (s.hart.reg rs1 ^^^ imm12 s.xlen imm))

/-- ORI (R167). -/
def execOri (rd rs1 : Reg) (imm : BitVec 12) (s : State) : Host.Outcome State Fault Refusal :=
  s.next (s.hart.retire rd (s.hart.reg rs1 ||| imm12 s.xlen imm))

/-- ANDI (R168). -/
def execAndi (rd rs1 : Reg) (imm : BitVec 12) (s : State) : Host.Outcome State Fault Refusal :=
  s.next (s.hart.retire rd (s.hart.reg rs1 &&& imm12 s.xlen imm))

/-- SLLI (R169). -/
def execSlli (rd rs1 : Reg) (shamt : BitVec 6) (s : State) : Host.Outcome State Fault Refusal :=
  s.ifShamt (.slli rd rs1 shamt) shamt (s.hart.retire rd (s.hart.reg rs1 <<< shamt.toNat))

/-- SRLI (R170). -/
def execSrli (rd rs1 : Reg) (shamt : BitVec 6) (s : State) : Host.Outcome State Fault Refusal :=
  s.ifShamt (.srli rd rs1 shamt) shamt (s.hart.retire rd (s.hart.reg rs1 >>> shamt.toNat))

/-- SRAI (R171). -/
def execSrai (rd rs1 : Reg) (shamt : BitVec 6) (s : State) : Host.Outcome State Fault Refusal :=
  s.ifShamt (.srai rd rs1 shamt) shamt (s.hart.retire rd ((s.hart.reg rs1).sshiftRight shamt.toNat))

/-- ADD (R172). -/
def execAdd (rd rs1 rs2 : Reg) (s : State) : Host.Outcome State Fault Refusal :=
  s.next (s.hart.retire rd (s.hart.reg rs1 + s.hart.reg rs2))

/-- SUB (R173). -/
def execSub (rd rs1 rs2 : Reg) (s : State) : Host.Outcome State Fault Refusal :=
  s.next (s.hart.retire rd (s.hart.reg rs1 - s.hart.reg rs2))

/-- SLL (R174). -/
def execSll (rd rs1 rs2 : Reg) (s : State) : Host.Outcome State Fault Refusal :=
  s.next (s.hart.retire rd (s.hart.reg rs1 <<< shiftAmount (s.hart.reg rs2)))

/-- SLT (R175). -/
def execSlt (rd rs1 rs2 : Reg) (s : State) : Host.Outcome State Fault Refusal :=
  s.next (s.hart.retire rd (boolWord s.xlen (ltSigned (s.hart.reg rs1) (s.hart.reg rs2))))

/-- SLTU (R176). -/
def execSltu (rd rs1 rs2 : Reg) (s : State) : Host.Outcome State Fault Refusal :=
  s.next (s.hart.retire rd (boolWord s.xlen (ltUnsigned (s.hart.reg rs1) (s.hart.reg rs2))))

/-- XOR (R177). -/
def execXor (rd rs1 rs2 : Reg) (s : State) : Host.Outcome State Fault Refusal :=
  s.next (s.hart.retire rd (s.hart.reg rs1 ^^^ s.hart.reg rs2))

/-- SRL (R178). -/
def execSrl (rd rs1 rs2 : Reg) (s : State) : Host.Outcome State Fault Refusal :=
  s.next (s.hart.retire rd (s.hart.reg rs1 >>> shiftAmount (s.hart.reg rs2)))

/-- SRA (R179). -/
def execSra (rd rs1 rs2 : Reg) (s : State) : Host.Outcome State Fault Refusal :=
  s.next (s.hart.retire rd ((s.hart.reg rs1).sshiftRight (shiftAmount (s.hart.reg rs2))))

/-- OR (R180). -/
def execOr (rd rs1 rs2 : Reg) (s : State) : Host.Outcome State Fault Refusal :=
  s.next (s.hart.retire rd (s.hart.reg rs1 ||| s.hart.reg rs2))

/-- AND (R181). -/
def execAnd (rd rs1 rs2 : Reg) (s : State) : Host.Outcome State Fault Refusal :=
  s.next (s.hart.retire rd (s.hart.reg rs1 &&& s.hart.reg rs2))

/-- ADDIW, XLEN 64 only (R182). -/
def execAddiw (rd rs1 : Reg) (imm : BitVec 12) (s : State) : Host.Outcome State Fault Refusal :=
  s.only64 (.addiw rd rs1 imm)
    (s.hart.retire rd (sext32 s.xlen (low32 (s.hart.reg rs1 + imm12 s.xlen imm))))

/-- SLLIW, XLEN 64 only (R183). -/
def execSlliw (rd rs1 : Reg) (shamt : BitVec 5) (s : State) : Host.Outcome State Fault Refusal :=
  s.only64 (.slliw rd rs1 shamt)
    (s.hart.retire rd (sext32 s.xlen (low32 (s.hart.reg rs1) <<< shamt.toNat)))

/-- SRLIW, XLEN 64 only (R184). -/
def execSrliw (rd rs1 : Reg) (shamt : BitVec 5) (s : State) : Host.Outcome State Fault Refusal :=
  s.only64 (.srliw rd rs1 shamt)
    (s.hart.retire rd (sext32 s.xlen (low32 (s.hart.reg rs1) >>> shamt.toNat)))

/-- SRAIW, XLEN 64 only (R185). -/
def execSraiw (rd rs1 : Reg) (shamt : BitVec 5) (s : State) : Host.Outcome State Fault Refusal :=
  s.only64 (.sraiw rd rs1 shamt)
    (s.hart.retire rd (sext32 s.xlen ((low32 (s.hart.reg rs1)).sshiftRight shamt.toNat)))

/-- ADDW, XLEN 64 only (R186). -/
def execAddw (rd rs1 rs2 : Reg) (s : State) : Host.Outcome State Fault Refusal :=
  s.only64 (.addw rd rs1 rs2)
    (s.hart.retire rd (sext32 s.xlen (low32 (s.hart.reg rs1 + s.hart.reg rs2))))

/-- SUBW, XLEN 64 only (R187). -/
def execSubw (rd rs1 rs2 : Reg) (s : State) : Host.Outcome State Fault Refusal :=
  s.only64 (.subw rd rs1 rs2)
    (s.hart.retire rd (sext32 s.xlen (low32 (s.hart.reg rs1 - s.hart.reg rs2))))

/-- SLLW, XLEN 64 only (R188). -/
def execSllw (rd rs1 rs2 : Reg) (s : State) : Host.Outcome State Fault Refusal :=
  s.only64 (.sllw rd rs1 rs2)
    (s.hart.retire rd (sext32 s.xlen (low32 (s.hart.reg rs1) <<< shiftAmountW (s.hart.reg rs2))))

/-- SRLW, XLEN 64 only (R189). -/
def execSrlw (rd rs1 rs2 : Reg) (s : State) : Host.Outcome State Fault Refusal :=
  s.only64 (.srlw rd rs1 rs2)
    (s.hart.retire rd (sext32 s.xlen (low32 (s.hart.reg rs1) >>> shiftAmountW (s.hart.reg rs2))))

/-- SRAW, XLEN 64 only (R190). -/
def execSraw (rd rs1 rs2 : Reg) (s : State) : Host.Outcome State Fault Refusal :=
  s.only64 (.sraw rd rs1 rs2)
    (s.hart.retire rd (sext32 s.xlen ((low32 (s.hart.reg rs1)).sshiftRight (shiftAmountW (s.hart.reg rs2)))))

end Sys2Proof.Machine
end

