-- ==== Sys2Proof/Machine/LoadStore.lean ====
section
/-! DEFINITION. Loads and stores (41_load_store.md R220 to R234). -/

namespace Sys2Proof.Machine

/-- What every load does (R233): the access, then `x[rd]` gets the extended value and `pc + 4`; if the access faults,
`LoadAccessFault` is raised and nothing is written. -/
def Hart.load {x : Xlen} (rd : Reg) (ea : XWord x) (w : Width) (extend : BitVec w.bits → XWord x) (h : Hart x) :
    Hart x :=
  match h.memRead ea w with
  | (.ok v, h1) => h1.retire rd (extend v)
  | (.error a, h1) => h1.raise (.loadAccessFault a)

/-- What every store does (R228): the access with the low bits of the source, then `pc + 4`; if the access faults,
`StoreAccessFault` is raised and no byte changes. -/
def Hart.store {x : Xlen} (ea : XWord x) (w : Width) (v : XWord x) (h : Hart x) : Hart x :=
  match h.memWrite ea w (v.setWidth w.bits) with
  | (none, h1) => h1.advance
  | (some a, h1) => h1.raise (.storeAccessFault a)

/-- LB (R221). -/
def execLb (rd rs1 : Reg) (imm : BitVec 12) (s : State) : Host.Outcome State Fault Refusal :=
  s.next (s.hart.load rd (s.hart.ea rs1 imm) .byte (fun v => v.signExtend s.xlen.bits))

/-- LH (R222). -/
def execLh (rd rs1 : Reg) (imm : BitVec 12) (s : State) : Host.Outcome State Fault Refusal :=
  s.next (s.hart.load rd (s.hart.ea rs1 imm) .half (fun v => v.signExtend s.xlen.bits))

/-- LW (R223). -/
def execLw (rd rs1 : Reg) (imm : BitVec 12) (s : State) : Host.Outcome State Fault Refusal :=
  s.next (s.hart.load rd (s.hart.ea rs1 imm) .word (fun v => v.signExtend s.xlen.bits))

/-- LBU (R224). -/
def execLbu (rd rs1 : Reg) (imm : BitVec 12) (s : State) : Host.Outcome State Fault Refusal :=
  s.next (s.hart.load rd (s.hart.ea rs1 imm) .byte (fun v => v.setWidth s.xlen.bits))

/-- LHU (R225). -/
def execLhu (rd rs1 : Reg) (imm : BitVec 12) (s : State) : Host.Outcome State Fault Refusal :=
  s.next (s.hart.load rd (s.hart.ea rs1 imm) .half (fun v => v.setWidth s.xlen.bits))

/-- LWU, XLEN 64 only (R226). -/
def execLwu (rd rs1 : Reg) (imm : BitVec 12) (s : State) : Host.Outcome State Fault Refusal :=
  s.only64 (.lwu rd rs1 imm)
    (s.hart.load rd (s.hart.ea rs1 imm) .word (fun v => v.setWidth s.xlen.bits))

/-- LD, XLEN 64 only (R227). -/
def execLd (rd rs1 : Reg) (imm : BitVec 12) (s : State) : Host.Outcome State Fault Refusal :=
  s.only64 (.ld rd rs1 imm)
    (s.hart.load rd (s.hart.ea rs1 imm) .double (fun v => v.setWidth s.xlen.bits))

/-- SB (R229). -/
def execSb (rs2 rs1 : Reg) (imm : BitVec 12) (s : State) : Host.Outcome State Fault Refusal :=
  s.next (s.hart.store (s.hart.ea rs1 imm) .byte (s.hart.reg rs2))

/-- SH (R230). -/
def execSh (rs2 rs1 : Reg) (imm : BitVec 12) (s : State) : Host.Outcome State Fault Refusal :=
  s.next (s.hart.store (s.hart.ea rs1 imm) .half (s.hart.reg rs2))

/-- SW (R231). -/
def execSw (rs2 rs1 : Reg) (imm : BitVec 12) (s : State) : Host.Outcome State Fault Refusal :=
  s.next (s.hart.store (s.hart.ea rs1 imm) .word (s.hart.reg rs2))

/-- SD, XLEN 64 only (R232). -/
def execSd (rs2 rs1 : Reg) (imm : BitVec 12) (s : State) : Host.Outcome State Fault Refusal :=
  s.only64 (.sd rs2 rs1 imm) (s.hart.store (s.hart.ea rs1 imm) .double (s.hart.reg rs2))

end Sys2Proof.Machine
end

