-- ==== Sys2Proof/Machine/MulDiv.lean ====
section
/-! DEFINITION. Multiply and divide (45_mul_div.md R320 to R335): operands become integers, the result is exact, and it
is narrowed at the end. -/

namespace Sys2Proof.Machine

/-- The low half of the product (R321). -/
def mulLow {n : Nat} (a b : BitVec n) : BitVec n := BitVec.ofNat n (a.toNat * b.toNat)

/-- The high half of signed by signed: `floor(product / 2^n) mod 2^n` (R322). -/
def mulHighSS {n : Nat} (a b : BitVec n) : BitVec n := BitVec.ofInt n (a.toInt * b.toInt / 2 ^ n)

/-- The high half of signed by unsigned (R323). -/
def mulHighSU {n : Nat} (a b : BitVec n) : BitVec n := BitVec.ofInt n (a.toInt * (b.toNat : Int) / 2 ^ n)

/-- The high half of unsigned by unsigned (R324). -/
def mulHighUU {n : Nat} (a b : BitVec n) : BitVec n := BitVec.ofNat n (a.toNat * b.toNat / 2 ^ n)

/-- The DIV column of R334: all ones for a zero divisor, the dividend on overflow, else the quotient rounded toward
zero. -/
def divSigned {n : Nat} (a b : BitVec n) : BitVec n :=
  if b = 0#n then BitVec.allOnes n
  else if a = BitVec.intMin n ∧ b = BitVec.allOnes n then a
  else BitVec.ofInt n (a.toInt.tdiv b.toInt)

/-- The DIVU column of R334. -/
def divUnsigned {n : Nat} (a b : BitVec n) : BitVec n :=
  if b = 0#n then BitVec.allOnes n else BitVec.ofNat n (a.toNat / b.toNat)

/-- The REM column of R334: the dividend for a zero divisor, 0 on overflow, else `a - b * q`. -/
def remSigned {n : Nat} (a b : BitVec n) : BitVec n :=
  if b = 0#n then a
  else if a = BitVec.intMin n ∧ b = BitVec.allOnes n then 0#n
  else BitVec.ofInt n (a.toInt - b.toInt * a.toInt.tdiv b.toInt)

/-- The REMU column of R334. -/
def remUnsigned {n : Nat} (a b : BitVec n) : BitVec n :=
  if b = 0#n then a else BitVec.ofNat n (a.toNat % b.toNat)

/-- MUL (R321). -/
def execMul (rd rs1 rs2 : Reg) (s : State) : Host.Outcome State Fault Refusal :=
  s.next (s.hart.retire rd (mulLow (s.hart.reg rs1) (s.hart.reg rs2)))

/-- MULH (R322). -/
def execMulh (rd rs1 rs2 : Reg) (s : State) : Host.Outcome State Fault Refusal :=
  s.next (s.hart.retire rd (mulHighSS (s.hart.reg rs1) (s.hart.reg rs2)))

/-- MULHSU (R323). -/
def execMulhsu (rd rs1 rs2 : Reg) (s : State) : Host.Outcome State Fault Refusal :=
  s.next (s.hart.retire rd (mulHighSU (s.hart.reg rs1) (s.hart.reg rs2)))

/-- MULHU (R324). -/
def execMulhu (rd rs1 rs2 : Reg) (s : State) : Host.Outcome State Fault Refusal :=
  s.next (s.hart.retire rd (mulHighUU (s.hart.reg rs1) (s.hart.reg rs2)))

/-- DIV (R325). -/
def execDiv (rd rs1 rs2 : Reg) (s : State) : Host.Outcome State Fault Refusal :=
  s.next (s.hart.retire rd (divSigned (s.hart.reg rs1) (s.hart.reg rs2)))

/-- DIVU (R326). -/
def execDivu (rd rs1 rs2 : Reg) (s : State) : Host.Outcome State Fault Refusal :=
  s.next (s.hart.retire rd (divUnsigned (s.hart.reg rs1) (s.hart.reg rs2)))

/-- REM (R327). -/
def execRem (rd rs1 rs2 : Reg) (s : State) : Host.Outcome State Fault Refusal :=
  s.next (s.hart.retire rd (remSigned (s.hart.reg rs1) (s.hart.reg rs2)))

/-- REMU (R328). -/
def execRemu (rd rs1 rs2 : Reg) (s : State) : Host.Outcome State Fault Refusal :=
  s.next (s.hart.retire rd (remUnsigned (s.hart.reg rs1) (s.hart.reg rs2)))

/-- MULW, XLEN 64 only (R329). -/
def execMulw (rd rs1 rs2 : Reg) (s : State) : Host.Outcome State Fault Refusal :=
  s.only64 (.mulw rd rs1 rs2)
    (s.hart.retire rd (sext32 s.xlen (mulLow (low32 (s.hart.reg rs1)) (low32 (s.hart.reg rs2)))))

/-- DIVW, XLEN 64 only (R330). -/
def execDivw (rd rs1 rs2 : Reg) (s : State) : Host.Outcome State Fault Refusal :=
  s.only64 (.divw rd rs1 rs2)
    (s.hart.retire rd (sext32 s.xlen (divSigned (low32 (s.hart.reg rs1)) (low32 (s.hart.reg rs2)))))

/-- DIVUW, XLEN 64 only (R331). -/
def execDivuw (rd rs1 rs2 : Reg) (s : State) : Host.Outcome State Fault Refusal :=
  s.only64 (.divuw rd rs1 rs2)
    (s.hart.retire rd (sext32 s.xlen (divUnsigned (low32 (s.hart.reg rs1)) (low32 (s.hart.reg rs2)))))

/-- REMW, XLEN 64 only (R332). -/
def execRemw (rd rs1 rs2 : Reg) (s : State) : Host.Outcome State Fault Refusal :=
  s.only64 (.remw rd rs1 rs2)
    (s.hart.retire rd (sext32 s.xlen (remSigned (low32 (s.hart.reg rs1)) (low32 (s.hart.reg rs2)))))

/-- REMUW, XLEN 64 only (R333). -/
def execRemuw (rd rs1 rs2 : Reg) (s : State) : Host.Outcome State Fault Refusal :=
  s.only64 (.remuw rd rs1 rs2)
    (s.hart.retire rd (sext32 s.xlen (remUnsigned (low32 (s.hart.reg rs1)) (low32 (s.hart.reg rs2)))))

end Sys2Proof.Machine
end

