-- ==== Sys2Proof/Machine/System.lean ====
section
/-! DEFINITION. Fences, environment call, breakpoint, trap return, wait and halt (43_system_fence.md R270 to R277). -/

namespace Sys2Proof.Machine

/-- FENCE: nothing is left to order, so it only advances the pc (R270). Its fields are ignored (30_encoding.md R152). -/
def execFence (_rd _rs1 : Reg) (_fm _pred _succ : BitVec 4) (s : State) : Host.Outcome State Fault Refusal :=
  s.next s.hart.advance

/-- FENCE.I: every fetch reads memory, so it only advances the pc (R271). Its fields are ignored (30_encoding.md R152). -/
def execFenceI (_rd _rs1 : Reg) (_imm : BitVec 12) (s : State) : Host.Outcome State Fault Refusal :=
  s.next s.hart.advance

/-- The exception an ECALL raises in a mode (R272). -/
def envCall (x : Xlen) : Priv → Exc x
  | .machine => .envCallFromM
  | .supervisor => .envCallFromS
  | .user => .envCallFromU

/-- ECALL: the exception is the whole effect (R272). -/
def execEcall (s : State) : Host.Outcome State Fault Refusal :=
  s.next (s.hart.raise (envCall s.xlen s.hart.priv))

/-- EBREAK: `Breakpoint(pc)` is the whole effect (R273). -/
def execEbreak (s : State) : Host.Outcome State Fault Refusal :=
  s.next (s.hart.raise (.breakpoint s.hart.pc))

/-- MRET: the return, which retires; outside M mode an illegal instruction (R274). -/
def execMret (s : State) : Host.Outcome State Fault Refusal :=
  if s.hart.priv = .machine then s.next (s.hart.trapReturn.commit s.hart.mepc) else s.next (s.hart.illegal .mret)

/-- WFI: never stalls, only advances the pc, in every mode (R275). -/
def execWfi (s : State) : Host.Outcome State Fault Refusal :=
  s.next s.hart.advance

/-- HALT: `halted <- 1` and nothing else (R276). -/
def execHalt (s : State) : Host.Outcome State Fault Refusal :=
  s.next { s.hart with halted := true }

end Sys2Proof.Machine
end

