-- ==== Sys2Proof/Machine/Cycle.lean ====
section
/-! DEFINITION. The instruction cycle (60_exceptions.md R370): fetch, decode, execute, commit or trap, then the
instruction boundary. -/

namespace Sys2Proof.Machine

/-- The end of a step that ran an instruction: HALT skips the count and the interrupt check (60_exceptions.md R370,
43_system_fence.md R276). -/
def State.endStep (s : State) : State :=
  if s.hart.halted then s else { s with hart := s.hart.boundary }

/-- `Step()` (60_exceptions.md R370). A halted core does nothing (70_reset_and_hazards.md R435). A fetch or decode
exception is a trap like any other. -/
def State.cycle (s : State) : Host.Outcome State Fault Refusal :=
  if s.hart.halted then .next s
  else
    match s.hart.fetch with
    | (.error a, h) => s.next (h.raise (.instrAccessFault a)).boundary
    | (.ok w, h) =>
      match decodeWord s.xlen h.params.haltWord w with
      | .error _ => s.next (h.raise (.illegalInstruction w)).boundary
      | .ok i =>
        match exec i { xlen := s.xlen, hart := h } with
        | .next t => .next t.endStep
        | .fault r => .fault r
        | .refused r => .refused r

end Sys2Proof.Machine
end

