-- ==== Sys2Proof/Machine/Step.lean ====
section
/-! DEFINITION. One step of the core, and the placing of an instruction word where the next step fetches. -/

namespace Sys2Proof.Machine

/-- One step (60_exceptions.md R370). -/
def step (s : State) : Host.Outcome State Fault Refusal := s.cycle

/-- The state with an instruction word, numbered as spec/opcode_table.json numbers it, stored where `step` fetches: the
4 bytes at the pc. It stands for the loading of a program from outside (log 16); the bits above `nbits` are 0. -/
def State.withFetchWord (s : State) (nbits w : Nat) : State :=
  { s with hart := s.hart.placeWord (BitVec.ofNat 32 (w % 2 ^ nbits)) }

end Sys2Proof.Machine
end

