-- ==== Sys2Proof/Machine/HostOps.lean ====
section
/-! DEFINITION. The host's operations, all between two steps (00_scope.md R9, R10; 70_reset_and_hazards.md R420 to R436). -/

namespace Sys2Proof.Machine

/-! ### Reset with parameters (R420, R421, R436) -/

/-- Two ranges of addresses share none; an empty range shares none with any (log 20). -/
def rangesApart (a n b m : Nat) : Bool := n = 0 || m = 0 || a + n ≤ b || b + m ≤ a

/-- No two of the ranges overlap. -/
def pairwiseApart : List (Nat × Nat) → Bool
  | [] => true
  | (a, n) :: rest => rest.all (fun p => rangesApart a n p.1 p.2) && pairwiseApart rest

/-- The XLEN a number stands for, if it is 32 or 64 (R436). -/
def xlenOfNat (n : Nat) : Option Xlen :=
  if n = 32 then some .rv32 else if n = 64 then some .rv64 else none

/-- A byte of the image falls inside a RAM or ROM region (R421). -/
def inStorage (regions : List Region) (a : Nat) : Bool :=
  regions.any (fun r => r.kind != .device && r.claims a)

/-- The configuration is consistent for an XLEN of `bits` bits (R436). -/
def consistentFor (bits : Nat) (c : Configuration) : Bool :=
  c.regions.all (fun r => 1 ≤ r.length && r.base + r.length ≤ 2 ^ bits) &&
  pairwiseApart (c.regions.map fun r => (r.base, r.length)) &&
  c.image.all (fun p => (List.range p.2.length).all fun i => inStorage c.regions (p.1 + i)) &&
  pairwiseApart (c.image.map fun p => (p.1, p.2.length)) &&
  c.resetPc < 2 ^ bits && c.resetPc % 2 = 0 && c.haltWord < 2 ^ 32

/-- The memory an image gives (R421): each pair puts its bytes at rising addresses. -/
def imageMemory : List (Nat × List Byte) → Memory
  | [] => []
  | (a, bytes) :: rest => (imageMemory rest).putBytes a bytes

/-- The core the host creates (R420). An inconsistent configuration is refused (R436). -/
def boot (c : Configuration) : Host.Outcome State Fault Refusal :=
  match xlenOfNat c.xlen with
  | none => .refused .inconsistentConfiguration
  | some x =>
    if consistentFor x.bits c then
      .next
        { xlen := x
          hart := Hart.initial
            { regions := c.regions, misaligned := c.misaligned, haltWord := BitVec.ofNat 32 c.haltWord }
            (BitVec.ofNat x.bits c.resetPc) (imageMemory c.image) }
    else .refused .inconsistentConfiguration

/-! ### Interrupt lines (R433, R434) -/

/-- Drives one line. -/
def IrqBits.set (q : Irq) (level : Bool) (b : IrqBits) : IrqBits :=
  match q with
  | .msi => { b with msi := level }
  | .mti => { b with mti := level }
  | .mei => { b with mei := level }

/-- `inject_interrupt(source)` (R433). -/
def State.injectInterrupt (s : State) (q : Irq) : State :=
  { s with hart := { s.hart with irq := s.hart.irq.set q true } }

/-- `retract_interrupt(source)` (R434). -/
def State.retractInterrupt (s : State) (q : Irq) : State :=
  { s with hart := { s.hart with irq := s.hart.irq.set q false } }

/-! ### step(n) (R431) -/

/-- Why `step(n)` returned (R430). -/
inductive HaltReason where
  | stepLimitReached
  | unrecoverableFault
  | explicitHaltInstruction
  deriving DecidableEq, Repr

/-- `step(n)` (R431): at most `n` steps, ended by HALT. -/
def stepN : Nat → State → State × HaltReason
  | 0, s => (s, if s.hart.halted then .explicitHaltInstruction else .stepLimitReached)
  | n + 1, s =>
    if s.hart.halted then (s, .explicitHaltInstruction)
    else
      match step s with
      | .next t => stepN n t
      | .fault _ => (s, .unrecoverableFault)
      | .refused _ => (s, .unrecoverableFault)

/-! ### inspect() (10_state.md R55, R432) -/

/-- The CSRs an XLEN has, with their addresses (10_state.md R31). -/
def csrsOf (x : Xlen) : List Csr :=
  [.mstatus, .misa, .mie, .mtvec, .mepc, .mcause, .mtval, .mip, .cycle, .time, .instret] ++
    (match x with
     | .rv32 => [.cycleh, .timeh, .instreth]
     | .rv64 => [])

/-- A snapshot of HartState (R55), its values as numbers. -/
structure Snapshot where
  pc   : Nat
  regs : List Nat
  csrs : List (Csr × Nat)
  priv : Priv
  deriving DecidableEq, Repr

/-- `inspect()` (R55, R432): every CSR as it would read. It changes nothing: `time` shows what its next sample would
give, and that sample is not taken (log 26). -/
def State.inspect (s : State) : Snapshot where
  pc := s.hart.pc.toNat
  regs := (List.range 32).map fun i => (s.hart.reg (BitVec.ofNat 5 i)).toNat
  csrs := (csrsOf s.xlen).map fun c => (c, (s.hart.csrValue c).toNat)
  priv := s.hart.priv

end Sys2Proof.Machine
end

