-- ==== Sys2Proof/Safety.lean ====
section
/-! DEFINITION. The terms the statements use: what a state of a run keeps, what an instruction leaves alone, and which
states a run reaches. -/

namespace Sys2Proof

/-! ### Forms of instructions -/

/-- The loads, with their operands and widths (41_load_store.md R221 to R227, 20_memory.md R98). -/
def Instr.loadForm : Instr → Option (Reg × Reg × BitVec 12 × Width)
  | .lb rd rs1 imm | .lbu rd rs1 imm => some (rd, rs1, imm, .byte)
  | .lh rd rs1 imm | .lhu rd rs1 imm => some (rd, rs1, imm, .half)
  | .lw rd rs1 imm | .lwu rd rs1 imm => some (rd, rs1, imm, .word)
  | .ld rd rs1 imm => some (rd, rs1, imm, .double)
  | _ => none

/-- The stores, with their operands and widths (41_load_store.md R229 to R232, 20_memory.md R98). -/
def Instr.storeForm : Instr → Option (Reg × Reg × BitVec 12 × Width)
  | .sb rs2 rs1 imm => some (rs2, rs1, imm, .byte)
  | .sh rs2 rs1 imm => some (rs2, rs1, imm, .half)
  | .sw rs2 rs1 imm => some (rs2, rs1, imm, .word)
  | .sd rs2 rs1 imm => some (rs2, rs1, imm, .double)
  | _ => none

/-- The CSR instructions: destination, CSR address, and whether the encoding writes (44_csr.md R302). -/
def Instr.csrForm : Instr → Option (Reg × BitVec 12 × Bool)
  | .csrrw rd a _ => some (rd, a, true)
  | .csrrs rd a rs1 => some (rd, a, rs1 ≠ 0)
  | .csrrc rd a rs1 => some (rd, a, rs1 ≠ 0)
  | .csrrwi rd a _ => some (rd, a, true)
  | .csrrsi rd a u => some (rd, a, u ≠ 0)
  | .csrrci rd a u => some (rd, a, u ≠ 0)
  | _ => none

end Sys2Proof

namespace Sys2Proof.Machine

/-! ### What every step keeps -/

/-- The invariant of a hart: x0's slot is zero (10_state.md R22), bit 0 of `pc` and of `mepc` is 0 (10_state.md R26,
R45), bit 1 of `mtvec` is 0 (10_state.md R44), the memory is canonical and lies in the address space (20_memory.md
R80). -/
structure Hart.Inv {x : Xlen} (h : Hart x) : Prop where
  slotZero  : h.regs[0] = 0#x.bits
  pcEven    : h.pc.getLsbD 0 = false
  mepcEven  : h.mepc.getLsbD 0 = false
  mtvecMode : h.mtvec.getLsbD 1 = false
  memWf     : h.memory.wf
  memSpace  : ∀ c ∈ h.memory, c.1 < 2 ^ x.bits

/-- The invariant of a machine. -/
def State.Inv (s : State) : Prop := s.hart.Inv

/-! ### Frames -/

/-- The harts agree but for the record of device accesses and the count of device answers. -/
def Hart.SameButDevices {x : Xlen} (h h1 : Hart x) : Prop :=
  h1 = { h with deviceLog := h1.deviceLog, deviceDraws := h1.deviceDraws }

/-- The harts agree but for the memory and the devices. -/
def Hart.SameButMemory {x : Xlen} (h h1 : Hart x) : Prop :=
  h1 = { h with memory := h1.memory, deviceLog := h1.deviceLog, deviceDraws := h1.deviceDraws }

/-- Every CSR, mode, line, counter of steps, parameter and platform record is unchanged, and the hart is no more halted
than before. It says nothing of registers, `pc`, memory and `instret_ctr`. -/
structure Hart.SameControl {x : Xlen} (h h1 : Hart x) : Prop where
  params      : h1.params = h.params
  priv        : h1.priv = h.priv
  mstatus     : h1.mstatus = h.mstatus
  mie         : h1.mie = h.mie
  irq         : h1.irq = h.irq
  mtvec       : h1.mtvec = h.mtvec
  mepc        : h1.mepc = h.mepc
  mcause      : h1.mcause = h.mcause
  mtval       : h1.mtval = h.mtval
  cycleCtr    : h1.cycleCtr = h.cycleCtr
  halted      : h1.halted = h.halted
  timeNow     : h1.timeNow = h.timeNow
  timeDraws   : h1.timeDraws = h.timeDraws

/-- No device is accessed. -/
structure Hart.SameDevices {x : Xlen} (h h1 : Hart x) : Prop where
  deviceLog   : h1.deviceLog = h.deviceLog
  deviceDraws : h1.deviceDraws = h.deviceDraws

/-- The instruction retires writing `rd` and nothing else: `instret_ctr` counts it, every other register reads as
before, every byte of memory reads as before, all control state stands, no device is accessed. `x0` reads 0. The next
pc is `target`; what `rd` holds is said by `result`, of which x0 is free. -/
structure Hart.Retires {x : Xlen} (h h1 : Hart x) (rd : Reg) (target : XWord x) (result : XWord x → Prop) : Prop where
  control : h.SameControl h1
  devices : h.SameDevices h1
  bytes   : ∀ a, h1.byteAt a = h.byteAt a
  regs    : ∀ r, r ≠ rd → h1.reg r = h.reg r
  zero    : h1.reg 0 = 0
  pc      : h1.pc = target
  instret : h1.instretCtr = h.instretCtr + 1
  result  : rd ≠ 0 → result (h1.reg rd)

/-- The instruction, run on this hart, completes and retires so. -/
def Completes {x : Xlen} (i : Instr) (h : Hart x) (rd : Reg) (target : XWord x) (result : XWord x → Prop) : Prop :=
  ∃ h1 : Hart x, exec i ⟨x, h⟩ = .next ⟨x, h1⟩ ∧ h.Retires h1 rd target result

/-- The instruction, run on this hart, computes `result` into `rd` and goes on at `pc + 4`. -/
def Computes {x : Xlen} (i : Instr) (h : Hart x) (rd : Reg) (result : XWord x → Prop) : Prop :=
  Completes i h rd (h.pc + 4) result

/-- `h1` is `h` after a trap for the synchronous exception of this code and value, at the instruction at `h`'s pc: mepc,
mcause, mtval, mstatus, the mode and the pc are as trap entry leaves them; every register, every byte of memory, every
other CSR, the lines, both counters and the parameters stand (60_exceptions.md R390, 00_scope.md R16). -/
structure Hart.Trapped {x : Xlen} (h h1 : Hart x) (code : Nat) (value : XWord x) : Prop where
  mepc      : h1.mepc = h.pc &&& ~~~1#x.bits
  mcause    : h1.mcause.toNat = code
  mtval     : h1.mtval = value
  mpie      : h1.mstatus.mpie = h.mstatus.mie
  mie       : h1.mstatus.mie = false
  mpp       : h1.mstatus.mpp = h.priv
  priv      : h1.priv = .machine
  pc        : h1.pc = h.mtvec &&& ~~~3#x.bits
  regs      : ∀ r, h1.reg r = h.reg r
  bytes     : ∀ a, h1.byteAt a = h.byteAt a
  params    : h1.params = h.params
  enables   : h1.mie = h.mie
  irq       : h1.irq = h.irq
  mtvec     : h1.mtvec = h.mtvec
  cycleCtr  : h1.cycleCtr = h.cycleCtr
  instret   : h1.instretCtr = h.instretCtr
  halted    : h1.halted = h.halted
  timeNow   : h1.timeNow = h.timeNow
  timeDraws : h1.timeDraws = h.timeDraws

/-- The instruction, run on this hart, takes this trap, and accesses no device. -/
def TakesTrap {x : Xlen} (i : Instr) (h : Hart x) (code : Nat) (value : XWord x) : Prop :=
  ∃ h1 : Hart x, exec i ⟨x, h⟩ = .next ⟨x, h1⟩ ∧ h.Trapped h1 code value ∧ h.SameDevices h1

/-- A whole step on this hart is this trap: it is counted by `cycle_ctr` only, and no interrupt is taken on top of it
(60_exceptions.md R372, R410). -/
def StepTraps {x : Xlen} (h : Hart x) (code : Nat) (value : XWord x) : Prop :=
  ∃ h1 : Hart x, step ⟨x, h⟩ = .next ⟨x, { h1 with cycleCtr := h1.cycleCtr + 1 }⟩ ∧ h.Trapped h1 code value

/-- The instruction completes, writes no register, and goes on at `target`. -/
def Advances {x : Xlen} (i : Instr) (h : Hart x) (target : XWord x) : Prop :=
  Completes i h 0 target (fun _ => True)

/-- The pc moved by a signed number of bytes, modulo 2^XLEN. -/
def Hart.pcPlus {x : Xlen} (h : Hart x) (d : Int) : XWord x := BitVec.ofInt x.bits ((h.pc.toNat : Int) + d)

/-- The instruction fetched and decoded at the hart's pc. -/
def Hart.Runs {x : Xlen} (h : Hart x) (i : Instr) : Prop :=
  ∃ (w : BitVec 32) (h1 : Hart x), h.fetch = (.ok w, h1) ∧ decodeWord x h.params.haltWord w = .ok i

/-! ### Where an access goes -/

/-- A single bus access of `n` bytes at `a` reaches storage (20_memory.md R83, R88, R89). -/
def Hart.ReachesStorage {x : Xlen} (h : Hart x) (k : Access) (a n : Nat) : Prop :=
  ∃ r, regionFor h.params.regions k a n = some r ∧ r.kind ≠ .device

/-- Address of byte `i` of an access at `ea`, modulo 2^XLEN (20_memory.md R94). -/
def byteAddr {x : Xlen} (ea : XWord x) (i : Nat) : Nat := (ea.toNat + i) % 2 ^ x.bits

/-- A load or store of this width at `ea` succeeds and touches storage only: it is aligned and one region takes it all,
or it is misaligned under `Split` and a region takes each byte (20_memory.md R91 to R94). -/
def Hart.StorageAccess {x : Xlen} (h : Hart x) (k : Access) (ea : XWord x) (w : Width) : Prop :=
  (ea.toNat % w.bytes = 0 ∧ h.ReachesStorage k ea.toNat w.bytes) ∨
  (ea.toNat % w.bytes ≠ 0 ∧ h.params.misaligned = .split ∧
    ∀ i < w.bytes, h.ReachesStorage k (byteAddr ea i) 1)

/-- The address is one of the bytes of an access. -/
def InAccess {x : Xlen} (ea : XWord x) (w : Width) (a : Nat) : Prop := ∃ i < w.bytes, a = byteAddr ea i

/-- The bytes of an access as one number, the byte at `ea` the least significant (20_memory.md R86, R92). -/
def Hart.accessValue {x : Xlen} (h : Hart x) (ea : XWord x) (w : Width) : Nat :=
  ∑ i ∈ Finset.range w.bytes, (h.byteAt (byteAddr ea i)).toNat * 256 ^ i

/-- No region takes the whole of a single bus access. -/
def Hart.Unmapped {x : Xlen} (h : Hart x) (k : Access) (a n : Nat) : Prop := regionFor h.params.regions k a n = none

/-- A load or store of this width at `ea` faults, and `a` is the address it reports: an aligned access no region takes,
any misaligned access under `Fault`, or under `Split` the first byte no region takes, the bytes before it being storage
(20_memory.md R92, R93, R96). -/
def Hart.AccessFaults {x : Xlen} (h : Hart x) (k : Access) (ea : XWord x) (w : Width) (a : XWord x) : Prop :=
  (ea.toNat % w.bytes = 0 ∧ h.Unmapped k ea.toNat w.bytes ∧ a = ea) ∨
  (ea.toNat % w.bytes ≠ 0 ∧ h.params.misaligned = .fault ∧ a = ea) ∨
  (ea.toNat % w.bytes ≠ 0 ∧ h.params.misaligned = .split ∧
    ∃ i < w.bytes, a.toNat = byteAddr ea i ∧ h.Unmapped k (byteAddr ea i) 1 ∧
      ∀ j < i, h.ReachesStorage k (byteAddr ea j) 1)

/-- The store retires having stored the low bytes of `v` at `ea`, and changes nothing else: every other byte of memory,
every register, all control state and the devices stand (41_load_store.md R228). -/
structure Hart.Stored {x : Xlen} (h h1 : Hart x) (ea : XWord x) (w : Width) (v : XWord x) : Prop where
  control : h.SameControl h1
  devices : h.SameDevices h1
  regs    : ∀ r, h1.reg r = h.reg r
  pc      : h1.pc = h.pc + 4
  instret : h1.instretCtr = h.instretCtr + 1
  stored  : ∀ i < w.bytes, (h1.byteAt (byteAddr ea i)).toNat = v.toNat / 256 ^ i % 256
  others  : ∀ a, ¬ InAccess ea w a → h1.byteAt a = h.byteAt a

/-- The instruction, run on this hart, completes so. -/
def Stores {x : Xlen} (i : Instr) (h : Hart x) (ea : XWord x) (w : Width) (v : XWord x) : Prop :=
  ∃ h1 : Hart x, exec i ⟨x, h⟩ = .next ⟨x, h1⟩ ∧ h.Stored h1 ea w v

/-- The effective address: `x[rs1] + imm` as integers, modulo 2^XLEN (41_load_store.md R220). -/
def Hart.eaOf {x : Xlen} (h : Hart x) (rs1 : Reg) (imm : BitVec 12) : XWord x :=
  BitVec.ofInt x.bits ((h.reg rs1).toNat + imm.toInt)

/-! ### CSR access as 44_csr.md and 10_state.md state it -/

/-- The implemented CSR addresses of an XLEN (10_state.md R31). -/
def csrAddresses (x : Xlen) : List (BitVec 12) :=
  [0x300#12, 0x301#12, 0x304#12, 0x305#12, 0x341#12, 0x342#12, 0x343#12, 0x344#12, 0xC00#12, 0xC01#12, 0xC02#12] ++
    (match x with
     | .rv32 => [0xC80#12, 0xC81#12, 0xC82#12]
     | .rv64 => [])

/-- The three checks of 44_csr.md R300 pass: existence, privilege, read-only. -/
def CsrPermitted (x : Xlen) (p : Priv) (a : BitVec 12) (writes : Bool) : Prop :=
  a ∈ csrAddresses x ∧ (a.extractLsb' 8 2).toNat ≤ p.code ∧ ¬ (writes = true ∧ a.extractLsb' 10 2 = 0b11#2)

/-- The value a CSR instruction presents, from the old value of the CSR (44_csr.md R302). -/
def Hart.csrOperand {x : Xlen} (h : Hart x) (i : Instr) (old : XWord x) : XWord x :=
  match i with
  | .csrrw _ _ rs1 => h.reg rs1
  | .csrrs _ _ rs1 => old ||| h.reg rs1
  | .csrrc _ _ rs1 => old &&& ~~~h.reg rs1
  | .csrrwi _ _ u => u.setWidth x.bits
  | .csrrsi _ _ u => old ||| u.setWidth x.bits
  | .csrrci _ _ u => old &&& ~~~u.setWidth x.bits
  | _ => old

/-- What a CSR reads after a write of `v` over `old`, by its own write rule (10_state.md R39, R41 to R47). -/
def csrWritten {x : Xlen} (c : Csr) (old v : XWord x) : XWord x :=
  match c with
  | .mstatus =>
    if v.extractLsb' 11 2 = 0b10#2 then (old &&& ~~~0x88#x.bits) ||| (v &&& 0x88#x.bits)
    else (old &&& ~~~0x1888#x.bits) ||| (v &&& 0x1888#x.bits)
  | .mie => v &&& 0x888#x.bits
  | .mtvec => v &&& ~~~2#x.bits
  | .mepc => v &&& ~~~1#x.bits
  | .mcause => v
  | .mtval => v
  | _ => old

/-- A clock or counter CSR, which changes by itself. -/
def Csr.counts : Csr → Bool
  | .cycle | .time | .instret | .cycleh | .timeh | .instreth => true
  | _ => false

/-- A CSR instruction retires on CSR `c`: `rd` gets the old value; a presented value goes through the write rule; every
other CSR, register and byte stands; the mode, the lines, `cycle_ctr` and the parameters stand; a read of the clock is
the only thing that moves it on (44_csr.md R301, R302, R309). -/
structure Hart.CsrDone {x : Xlen} (h h1 : Hart x) (c : Csr) (rd : Reg) (presented : Option (XWord x)) : Prop where
  result    : rd ≠ 0 → h1.reg rd = h.csrValue c
  regs      : ∀ r, r ≠ rd → h1.reg r = h.reg r
  zero      : h1.reg 0 = 0
  pc        : h1.pc = h.pc + 4
  instret   : h1.instretCtr = h.instretCtr + 1
  csrs      : ∀ d, d.counts = false → d ≠ c → h1.csrValue d = h.csrValue d
  kept      : presented = none → c.counts = false → h1.csrValue c = h.csrValue c
  written   : ∀ v, presented = some v → h1.csrValue c = csrWritten c (h.csrValue c) v
  params    : h1.params = h.params
  priv      : h1.priv = h.priv
  irq       : h1.irq = h.irq
  cycleCtr  : h1.cycleCtr = h.cycleCtr
  halted    : h1.halted = h.halted
  bytes     : ∀ a, h1.byteAt a = h.byteAt a
  devices   : h.SameDevices h1
  clock     : c ≠ .time → c ≠ .timeh → h1.timeNow = h.timeNow ∧ h1.timeDraws = h.timeDraws
  sample    : c = .time ∨ c = .timeh → h.timeNow ≤ h1.timeNow ∧ h.timeValue = BitVec.ofNat 64 h1.timeNow

/-- The exceptions an instruction can raise when it executes, with their values (60_exceptions.md R362, R363; for a term
that does not exist with this XLEN: 30_encoding.md R158, log 11). -/
def Hart.MayRaise {x : Xlen} (h : Hart x) (i : Instr) : Exc x → Prop
  | .instrAccessFault _ => False
  | .illegalInstruction w =>
    w = encode h.params.haltWord i ∧
      (i.wellFormed x = false ∨ (i = .mret ∧ h.priv ≠ .machine) ∨
        ∃ rd a writes, i.csrForm = some (rd, a, writes) ∧ ¬ CsrPermitted x h.priv a writes)
  | .breakpoint a => i = .ebreak ∧ a = h.pc
  | .loadAccessFault _ => i.loadForm ≠ none
  | .storeAccessFault _ => i.storeForm ≠ none
  | .envCallFromU => i = .ecall ∧ h.priv = .user
  | .envCallFromS => i = .ecall ∧ h.priv = .supervisor
  | .envCallFromM => i = .ecall ∧ h.priv = .machine

/-! ### When an instruction commits (60_exceptions.md R362, R410) -/

/-- The conditions under which executing an instruction raises an exception (60_exceptions.md R362; 20_memory.md R92,
R93; 30_encoding.md R158). -/
def Hart.Raises {x : Xlen} (h : Hart x) (i : Instr) : Prop :=
  i.wellFormed x = false ∨ i = .ecall ∨ i = .ebreak ∨ (i = .mret ∧ h.priv ≠ .machine) ∨
  (∃ rd a writes, i.csrForm = some (rd, a, writes) ∧ ¬ CsrPermitted x h.priv a writes) ∨
  (∃ rd rs1 imm w a, i.loadForm = some (rd, rs1, imm, w) ∧ (h.memRead (h.eaOf rs1 imm) w).1 = .error a) ∨
  (∃ rs2 rs1 imm w a, i.storeForm = some (rs2, rs1, imm, w) ∧
    (h.memWrite (h.eaOf rs1 imm) w ((h.reg rs2).setWidth w.bits)).1 = some a)

/-- The fetch and the decoder give an instruction, and it raises nothing. -/
def Hart.Commits {x : Xlen} (h : Hart x) : Prop :=
  ∃ (w : BitVec 32) (h' : Hart x) (i : Instr), h.fetch = (.ok w, h') ∧
    decodeWord x h.params.haltWord w = .ok i ∧ ¬ h'.Raises i

/-! ### Devices (20_memory.md R84, R94; logs 5, 6, 7) -/

/-- The loads that zero-extend (41_load_store.md R224 to R226). -/
def Instr.zeroExtends : Instr → Bool
  | .lbu .. | .lhu .. | .lwu .. => true
  | _ => false

/-- What a load leaves in its register for a value read: the same number, unsigned or signed (41_load_store.md R221 to
R227). -/
def LoadedAs {x : Xlen} (i : Instr) {n : Nat} (v : BitVec n) (r : XWord x) : Prop :=
  if Instr.zeroExtends i then r.toNat = v.toNat else r.toInt = v.toInt

/-- The instruction retires writing `rd`, with these device accesses recorded and so many device answers drawn. Memory is
not spoken of; every other register and all control state stand. -/
structure Hart.DeviceRetires {x : Xlen} (h h1 : Hart x) (rd : Reg) (result : XWord x → Prop)
    (events : List DeviceEvent) (draws : Nat) : Prop where
  control : h.SameControl h1
  regs    : ∀ r, r ≠ rd → h1.reg r = h.reg r
  zero    : h1.reg 0 = 0
  pc      : h1.pc = h.pc + 4
  instret : h1.instretCtr = h.instretCtr + 1
  result  : rd ≠ 0 → result (h1.reg rd)
  log     : h1.deviceLog = h.deviceLog ++ events
  draws   : h1.deviceDraws = h.deviceDraws + draws

/-- The instruction takes this trap, with these device accesses recorded and so many device answers drawn. -/
structure Hart.DeviceTraps {x : Xlen} (h h1 : Hart x) (code : Nat) (value : XWord x) (events : List DeviceEvent)
    (draws : Nat) : Prop where
  trapped : h.Trapped h1 code value
  log     : h1.deviceLog = h.deviceLog ++ events
  draws   : h1.deviceDraws = h.deviceDraws + draws

/-- The device region that takes a one-byte access, if one does. -/
def Hart.deviceAt {x : Xlen} (h : Hart x) (k : Access) (a : Nat) : Option Region :=
  (regionFor h.params.regions k a 1).filter fun r => r.kind = .device

/-- How many of the first bytes of a split access go to a device. -/
def Hart.deviceCount {x : Xlen} (h : Hart x) (k : Access) (ea : XWord x) : Nat → Nat
  | 0 => 0
  | i + 1 => h.deviceCount k ea i + if (h.deviceAt k (byteAddr ea i)).isSome then 1 else 0

/-- The answer to byte `i` of a split load: the byte in storage, or the device's answer to its own one-byte access, the
device bytes before it having had theirs (20_memory.md R92, R94). -/
def Hart.splitAnswer {x : Xlen} (h : Hart x) (ea : XWord x) (i : Nat) : Option Byte :=
  match regionFor h.params.regions .read (byteAddr ea i) 1 with
  | none => none
  | some r =>
    if r.kind = .device then
      Config.deviceRead (h.deviceDraws + h.deviceCount .read ea i) r (byteAddr ea i - r.base) .byte
    else some (h.byteAt (byteAddr ea i))

/-- Whether byte `i` of a split store can be written (20_memory.md R93, R94). -/
def Hart.splitTakes {x : Xlen} (h : Hart x) (ea v : XWord x) (i : Nat) : Bool :=
  match regionFor h.params.regions .write (byteAddr ea i) 1 with
  | none => false
  | some r =>
    if r.kind = .device then
      Config.deviceTakes (h.deviceDraws + h.deviceCount .write ea i) r (byteAddr ea i - r.base) .byte (byteOf v i)
    else true

/-- The one-byte reads the devices see of the first `n` bytes of a split load, in ascending order. -/
def Hart.splitReadEvents {x : Xlen} (h : Hart x) (ea : XWord x) (n : Nat) : List DeviceEvent :=
  (List.range n).flatMap fun i =>
    match h.deviceAt .read (byteAddr ea i) with
    | some r => [.read r (byteAddr ea i - r.base) .byte (h.splitAnswer ea i).isSome]
    | none => []

/-- The one-byte writes the devices see of the first `n` bytes of a split store, in ascending order. -/
def Hart.splitWriteEvents {x : Xlen} (h : Hart x) (ea v : XWord x) (n : Nat) : List DeviceEvent :=
  (List.range n).flatMap fun i =>
    match h.deviceAt .write (byteAddr ea i) with
    | some r => [.write r (byteAddr ea i - r.base) .byte ((byteOf v i).setWidth 64) true]
    | none => []

/-! ### Runs -/

/-- The states a run reaches: from a core the host creates, by steps and by the host's operations between steps
(00_scope.md R10, 70_reset_and_hazards.md R430). -/
inductive Reachable : State → Prop where
  | boot {c : Configuration} {s : State} : boot c = .next s → Reachable s
  | step {s t : State} : Reachable s → step s = .next t → Reachable t
  | inject {s : State} (q : Irq) : Reachable s → Reachable (s.injectInterrupt q)
  | retract {s : State} (q : Irq) : Reachable s → Reachable (s.retractInterrupt q)

end Sys2Proof.Machine
end

