-- ==== Sys2Proof/Certificates/Slice0/Obligations.lean ====
section
/-! DEFINITION. The statements about the model, each from the numbered rules of spec/. -/

section

open Sys2Proof Sys2Proof.Machine

/-! ### Encoding and decoding (30_encoding.md) -/

/-- O1. Words of every family, written out from the formats, decode to the instruction they stand for. -/
def Obligations.SpecWordsDecode : Prop :=
  let d := fun x w => decodeWord x Config.defaultHaltWord w
  d .rv64 0b00010010001101000101_00101_0110111#32 = .ok (.lui 5 0x12345) ∧
  d .rv64 0b00000000000000000001_00101_0010111#32 = .ok (.auipc 5 1) ∧
  d .rv32 0b000000000101_00000_000_00001_0010011#32 = .ok (.addi 1 0 5) ∧
  d .rv64 0b010000_111111_00001_101_00010_0010011#32 = .ok (.srai 2 1 63) ∧
  d .rv32 0b0100000_00010_00001_000_00011_0110011#32 = .ok (.sub 3 1 2) ∧
  d .rv64 0b0100000_00010_00001_101_00011_0111011#32 = .ok (.sraw 3 1 2) ∧
  d .rv64 0b111111111100_00001_011_00101_0000011#32 = .ok (.ld 5 1 0xFFC) ∧
  d .rv32 0b1111111_00110_00001_010_11100_0100011#32 = .ok (.sw 6 1 0xFFC) ∧
  d .rv32 0b1_111111_00010_00001_000_1100_1_1100011#32 = .ok (.beq 1 2 0xFFC) ∧
  d .rv32 0b1_0000000000_0_11111111_00001_1101111#32 = .ok (.jal 1 0xFF800) ∧
  d .rv64 0b000000000100_00010_000_00001_1100111#32 = .ok (.jalr 1 2 4) ∧
  d .rv64 0b1000_0011_0011_00000_000_00000_0001111#32 = .ok (.fence 0 0 8 3 3) ∧
  d .rv64 0b000000000000_00000_001_00000_0001111#32 = .ok (.fenceI 0 0 0) ∧
  d .rv64 0b001100000010_00000_000_00000_1110011#32 = .ok .mret ∧
  d .rv64 0b001100000101_00001_001_00101_1110011#32 = .ok (.csrrw 5 0x305 1) ∧
  d .rv32 0b001100000000_01000_111_00101_1110011#32 = .ok (.csrrci 5 0x300 8) ∧
  d .rv32 0b0000001_00010_00001_010_00011_0110011#32 = .ok (.mulhsu 3 1 2) ∧
  d .rv64 0b0000001_00010_00001_111_00011_0111011#32 = .ok (.remuw 3 1 2) ∧
  d .rv32 0b0000001_00010_00001_111_00011_0111011#32 = .error (.illegalInstruction 0x0220F1BB#32) ∧
  d .rv64 0b00000000000000000000000000001011#32 = .ok .halt

/-- O2. Every instruction the core has decodes back from its word, whatever its operands. -/
def Obligations.DecodeInvertsEncode : Prop :=
  ∀ (x : Xlen) (hw : BitVec 32) (i : Instr), i.wellFormed x = true → i.shadowed hw = false →
    decodeWord x hw (encode hw i) = .ok i

/-- O3. A word that decodes is the word of the instruction it decodes to, and that instruction exists for the XLEN. -/
def Obligations.EncodeInvertsDecode : Prop :=
  ∀ (x : Xlen) (hw w : BitVec 32) (i : Instr), decodeWord x hw w = .ok i →
    encode hw i = w ∧ i.wellFormed x = true ∧ i.shadowed hw = false

/-- O4. R159: HALT_WORD first; else the one row of the table that admits XLEN and matches; else illegal. The third clause is
the sentence of R159 that the spec marks as its own inference: "The rows for one XLEN are pairwise disjoint, so at most
one matches". -/
def Obligations.DecodeFollowsOpcodeTable : Prop :=
  ∀ (x : Xlen) (hw w : BitVec 32),
    (w = hw → decodeWord x hw w = .ok .halt) ∧
    (w ≠ hw → ∀ r ∈ opcodeTable, r.admits x = true → r.matches w = true →
      ∃ i, decodeWord x hw w = .ok i ∧ i.mnemonic = r.mnemonic) ∧
    (∀ r ∈ opcodeTable, ∀ q ∈ opcodeTable, r.admits x = true → q.admits x = true → r.matches w = true →
      q.matches w = true → r = q) ∧
    (w ≠ hw → (∀ r ∈ opcodeTable, r.admits x = true → r.matches w = false) →
      decodeWord x hw w = .error (.illegalInstruction w))

/-- O5. R120: the decoder on bytes takes 4 of them, the lowest address the least significant. -/
def Obligations.BytesDecodeLittleEndian : Prop :=
  ∀ (x : Xlen) (hw w : BitVec 32) (b0 b1 b2 b3 : Byte) (rest : List Byte),
    (w.toNat = b0.toNat + 256 * b1.toNat + 65536 * b2.toNat + 16777216 * b3.toNat →
      (∀ i, decodeWord x hw w = .ok i → decode x hw (b0 :: b1 :: b2 :: b3 :: rest) = .ok (i, rest)) ∧
      (∀ e, decodeWord x hw w = .error e → decode x hw (b0 :: b1 :: b2 :: b3 :: rest) = .error e)) ∧
    (rest.length < 4 → decode x hw rest = .error .truncated)

/-- O6. R150, R151: a word that no row of the table matches, every word whose major opcode the map does not name, and
every word whose low two bits are not 0b11, is an illegal instruction (unless it is HALT_WORD); executing it takes the
trap with the whole word as value. -/
def Obligations.IllegalWordsTrap : Prop :=
  ∀ (x : Xlen) (h h' : Hart x) (w : BitVec 32), w ≠ h.params.haltWord →
    ((∀ r ∈ opcodeTable, r.admits x = true → r.matches w = false) ∨
      opcodeOf w ∉ [0x03#7, 0x0F#7, 0x13#7, 0x17#7, 0x1B#7, 0x23#7, 0x33#7, 0x37#7, 0x3B#7, 0x63#7, 0x67#7, 0x6F#7,
        0x73#7] ∨
      w.extractLsb' 0 2 ≠ 0b11#2) →
    decodeWord x h.params.haltWord w = .error (.illegalInstruction w) ∧
    (h.halted = false → h.fetch = (.ok w, h') → StepTraps h 2 (w.setWidth x.bits))

/-- O7. R158: what decodes differently under the two values of XLEN. -/
def Obligations.XlenGatedEncodings : Prop :=
  ∀ (hw w : BitVec 32), w ≠ hw →
    ((opcodeOf w = 0x1B#7 ∨ opcodeOf w = 0x3B#7 ∨
        (opcodeOf w = 0x03#7 ∧ (funct3Of w = 0b011#3 ∨ funct3Of w = 0b110#3)) ∨
        (opcodeOf w = 0x23#7 ∧ funct3Of w = 0b011#3)) →
      decodeWord .rv32 hw w = .error (.illegalInstruction w)) ∧
    (opcodeOf w = 0x03#7 → funct3Of w = 0b011#3 →
      decodeWord .rv64 hw w = .ok (.ld (rdOf w) (rs1Of w) (immIOf w))) ∧
    (opcodeOf w = 0x03#7 → funct3Of w = 0b110#3 →
      decodeWord .rv64 hw w = .ok (.lwu (rdOf w) (rs1Of w) (immIOf w))) ∧
    (opcodeOf w = 0x23#7 → funct3Of w = 0b011#3 →
      decodeWord .rv64 hw w = .ok (.sd (rs2Of w) (rs1Of w) (immSOf w))) ∧
    (opcodeOf w = 0x13#7 → (funct3Of w = 0b001#3 ∨ funct3Of w = 0b101#3) → w.getLsbD 25 = true →
      decodeWord .rv32 hw w = .error (.illegalInstruction w) ∧
      (funct3Of w = 0b001#3 → funct6Of w = 0b000000#6 →
        decodeWord .rv64 hw w = .ok (.slli (rdOf w) (rs1Of w) (shamtOf w)) ∧ 32 ≤ (shamtOf w).toNat) ∧
      (funct3Of w = 0b101#3 → funct6Of w = 0b000000#6 →
        decodeWord .rv64 hw w = .ok (.srli (rdOf w) (rs1Of w) (shamtOf w)) ∧ 32 ≤ (shamtOf w).toNat) ∧
      (funct3Of w = 0b101#3 → funct6Of w = 0b010000#6 →
        decodeWord .rv64 hw w = .ok (.srai (rdOf w) (rs1Of w) (shamtOf w)) ∧ 32 ≤ (shamtOf w).toNat))

/-! ### The step (60_exceptions.md R370) -/

/-- O8. A running core whose pc is a multiple of 4 and whose 4 bytes there are in executable storage and decode to an
instruction runs it: the step is `exec` of it on this very state, then, unless HALT stopped the core, the boundary. If the
4 bytes are in an executable device region and the device's answer, whatever it is (log 5), decodes to an instruction, the
step is the same on the state after that one answer, recorded (logs 6, 21). -/
def Obligations.StepRunsDecodedInstruction : Prop :=
  ∀ (x : Xlen) (h : Hart x) (i : Instr), h.halted = false → h.pc.toNat % 4 = 0 →
    let runsOn := fun h' : Hart x =>
      ∃ h1 : Hart x, exec i ⟨x, h'⟩ = .next ⟨x, h1⟩ ∧
        (h1.halted = true → step ⟨x, h⟩ = .next ⟨x, h1⟩) ∧
        (h1.halted = false → step ⟨x, h⟩ = .next ⟨x, h1.boundary⟩)
    (∀ rest, h.ReachesStorage .fetch h.pc.toNat 4 →
      decode x h.params.haltWord (h.bytesAt h.pc.toNat 4) = .ok (i, rest) → rest = [] ∧ runsOn h) ∧
    (∀ (r : Region) (w : BitVec 32), regionFor h.params.regions .fetch h.pc.toNat 4 = some r → r.kind = .device →
      Config.deviceRead h.deviceDraws r (h.pc.toNat - r.base) .word = some w →
      decodeWord x h.params.haltWord w = .ok i →
      runsOn { h with
        deviceDraws := h.deviceDraws + 1,
        deviceLog := h.deviceLog ++ [.read r (h.pc.toNat - r.base) .word true] })

/-- O9. R95: a fetch at a misaligned pc, one no executable region holds, or one a device answers with a fault, is the
instruction access fault at the pc. -/
def Obligations.FetchFaultsTrap : Prop :=
  ∀ (x : Xlen) (h : Hart x), h.halted = false →
    (h.pc.toNat % 4 ≠ 0 ∨ h.Unmapped .fetch h.pc.toNat 4 ∨
      ∃ r, regionFor h.params.regions .fetch h.pc.toNat 4 = some r ∧ r.kind = .device ∧
        Config.deviceRead h.deviceDraws r (h.pc.toNat - r.base) .word = none) →
    StepTraps h 1 h.pc

/-- O10. No step ever faults or refuses; XLEN and the parameters (00_scope.md R7, R8) are not the hart's to change, nor are
the interrupt lines: that clause rests on log 9 (from 00_scope.md R10 and 60_exceptions.md R384: a device drives a line
between steps). -/
def Obligations.StepAlwaysAnswersNext : Prop :=
  ∀ (x : Xlen) (h : Hart x), ∃ h1 : Hart x, step ⟨x, h⟩ = .next ⟨x, h1⟩ ∧ h1.params = h.params ∧ h1.irq = h.irq

/-- O11. Every step keeps the invariant: x0's slot zero, bit 0 of pc and mepc zero, bit 1 of mtvec zero, the memory
canonical and inside the address space. -/
def Obligations.StepKeepsInvariant : Prop :=
  ∀ s t : State, s.Inv → step s = .next t → t.Inv

/-- O12. The state after reset meets the invariant. -/
def Obligations.ResetMeetsInvariant : Prop := State.reset.Inv

/-- O13. Every state a run reaches, from any core the host can create and by any host operations, meets the
invariant. -/
def Obligations.ReachableStatesMeetInvariant : Prop := ∀ s : State, Reachable s → s.Inv

/-- O14. R410: a halted core and the step that halts count nothing; any other step adds 1 to `cycle_ctr`. It adds 1 to
`instret_ctr` if the fetch and the decoder give an instruction that raises nothing by R362; otherwise `instret_ctr` stands,
and the step ends in M mode at that trap. -/
def Obligations.CountersCountStepsAndCommits : Prop :=
  ∀ (x : Xlen) (h h1 : Hart x), step ⟨x, h⟩ = .next ⟨x, h1⟩ →
    (h.halted = true ∨ h1.halted = true → h1.cycleCtr = h.cycleCtr ∧ h1.instretCtr = h.instretCtr) ∧
    (h.halted = false → h1.halted = false →
      h1.cycleCtr = h.cycleCtr + 1 ∧
      (h.Commits → h1.instretCtr = h.instretCtr + 1) ∧
      (¬ h.Commits → h1.instretCtr = h.instretCtr ∧ h1.mcause.toNat ∈ [1, 2, 3, 5, 7, 8, 9, 11] ∧ h1.priv = .machine ∧
        h1.mstatus.mpp = h.priv ∧ h1.mepc = h.pc &&& ~~~1#x.bits))

/-- O15. R362: an instruction retires, or is HALT, or takes the trap of an exception that this instruction can raise. -/
def Obligations.OnlyListedInstructionsRaise : Prop :=
  ∀ (x : Xlen) (i : Instr) (h h1 : Hart x), exec i ⟨x, h⟩ = .next ⟨x, h1⟩ →
    h1.instretCtr = h.instretCtr + 1 ∨
    (i = .halt ∧ h1 = { h with halted := true }) ∨
    ∃ e : Exc x, h.MayRaise i e ∧ h.Trapped h1 e.code e.value

/-- O16. R364: a step leaves `mcause` alone, or writes one of the eight exception codes or three interrupt causes, or
runs, in M mode, a CSR instruction that writes `mcause`. -/
def Obligations.CauseValuesRaised : Prop :=
  ∀ (x : Xlen) (h h1 : Hart x), step ⟨x, h⟩ = .next ⟨x, h1⟩ →
    h1.mcause = h.mcause ∨
    h1.mcause.toNat ∈ [1, 2, 3, 5, 7, 8, 9, 11] ∨
    h1.mcause.toNat ∈ [2 ^ (x.bits - 1) + 3, 2 ^ (x.bits - 1) + 7, 2 ^ (x.bits - 1) + 11] ∨
    (h.priv = .machine ∧ ∃ i rd, h.Runs i ∧ i.csrForm = some (rd, 0x342#12, true))

/-- O17. R27, R402: a step that changes the mode either took a trap, to M, or ran MRET in M mode and went to MPP. -/
def Obligations.ModeChangesOnlyByTrapOrReturn : Prop :=
  ∀ (x : Xlen) (h h1 : Hart x), step ⟨x, h⟩ = .next ⟨x, h1⟩ → h1.priv ≠ h.priv →
    (h1.priv = .machine ∧ h1.mstatus.mpp = h.priv ∧ h1.mstatus.mie = false ∧
      ∃ interrupt code, h1.mcause = causeWord x interrupt code ∧ h1.pc = trapTarget h.mtvec interrupt code) ∨
    (h.priv = .machine ∧ h.Runs .mret ∧ h1.priv = h.mstatus.mpp ∧ h1.pc = h.mepc)

/-- O18. R401: a step from S or U mode never changes `mie` or `mtvec`, and changes another machine CSR only by taking a
trap, which leaves the core in M mode. -/
def Obligations.LowerModesKeepMachineState : Prop :=
  ∀ (x : Xlen) (h h1 : Hart x), step ⟨x, h⟩ = .next ⟨x, h1⟩ → h.priv ≠ .machine →
    h1.mie = h.mie ∧ h1.mtvec = h.mtvec ∧
    (h1.priv ≠ .machine → h1.mstatus = h.mstatus ∧ h1.mepc = h.mepc ∧ h1.mcause = h.mcause ∧ h1.mtval = h.mtval ∧
      h1.priv = h.priv)

/-- O19. R83: a byte of storage changes only in a step that runs a store that reaches that byte. -/
def Obligations.MemoryChangesOnlyByStores : Prop :=
  ∀ (x : Xlen) (h h1 : Hart x) (a : Nat), step ⟨x, h⟩ = .next ⟨x, h1⟩ → h1.byteAt a ≠ h.byteAt a →
    ∃ i rs2 rs1 imm w, h.Runs i ∧ i.storeForm = some (rs2, rs1, imm, w) ∧ InAccess (h.eaOf rs1 imm) w a

/-! ### Interrupts and traps (60_exceptions.md) -/

/-- O20. R382, R383: what the interrupt check does, by the bits `mip`, `mie` and `mstatus` read. -/
def Obligations.InterruptEnableAndPriority : Prop :=
  ∀ (x : Xlen) (h : Hart x),
    let on := h.priv ≠ .machine ∨ (h.csrValue .mstatus).getLsbD 3 = true
    let wants := fun n => (h.csrValue .mip).getLsbD n = true ∧ (h.csrValue .mie).getLsbD n = true
    (on → wants 11 → h.interruptCheck = h.trapEntry true 11 0 h.pc) ∧
    (on → ¬ wants 11 → wants 3 → h.interruptCheck = h.trapEntry true 3 0 h.pc) ∧
    (on → ¬ wants 11 → ¬ wants 3 → wants 7 → h.interruptCheck = h.trapEntry true 7 0 h.pc) ∧
    (¬ on ∨ (¬ wants 11 ∧ ¬ wants 3 ∧ ¬ wants 7) → h.interruptCheck = h) ∧
    h.interruptCheck.csrValue .mip = h.csrValue .mip

/-- O21. R384, R392: an interrupt is taken after the instruction, on the state it leaves: the instruction's registers and
memory stand, and `mepc` is the address of the next instruction. -/
def Obligations.InterruptFollowsInstruction : Prop :=
  ∀ (x : Xlen) (h h' h1 : Hart x) (w : BitVec 32) (i : Instr) (q : Irq), h.halted = false →
    h.fetch = (.ok w, h') → decodeWord x h.params.haltWord w = .ok i → exec i ⟨x, h'⟩ = .next ⟨x, h1⟩ →
    h1.halted = false → h1.candidate = some q → h1.interruptsEnabled = true →
    ∃ h2 : Hart x, step ⟨x, h⟩ = .next ⟨x, h2⟩ ∧ h2.mepc = h1.pc &&& ~~~1#x.bits ∧
      h2.mcause.toNat = 2 ^ (x.bits - 1) + q.code ∧ h2.mtval = 0 ∧ h2.priv = .machine ∧ h2.mstatus.mie = false ∧
      h2.mstatus.mpie = h1.mstatus.mie ∧ h2.mstatus.mpp = h1.priv ∧ h2.pc = trapTarget h1.mtvec true q.code ∧
      (∀ r, h2.reg r = h1.reg r) ∧ (∀ a, h2.byteAt a = h1.byteAt a) ∧ h2.mie = h1.mie ∧ h2.mtvec = h1.mtvec ∧
      h2.instretCtr = h1.instretCtr ∧ h2.cycleCtr = h1.cycleCtr + 1 ∧ h2.irq = h1.irq

/-- O22. R390: trap entry, field by field, and nothing else; a synchronous exception saves the pc of the instruction that
raises it. -/
def Obligations.TrapEntryEffect : Prop :=
  ∀ (x : Xlen) (h : Hart x) (interrupt : Bool) (code : Nat) (value epc : XWord x), code < 2 ^ (x.bits - 1) →
    let t := h.trapEntry interrupt code value epc
    t.mepc = epc &&& ~~~1#x.bits ∧
    t.mcause.toNat = (if interrupt then 2 ^ (x.bits - 1) else 0) + code ∧
    t.mtval = value ∧ t.mstatus.mpie = h.mstatus.mie ∧ t.mstatus.mie = false ∧ t.mstatus.mpp = h.priv ∧
    t.priv = .machine ∧ t.pc = trapTarget h.mtvec interrupt code ∧
    (∀ r, t.reg r = h.reg r) ∧ (∀ a, t.byteAt a = h.byteAt a) ∧
    t = { h with mepc := t.mepc, mcause := t.mcause, mtval := t.mtval, mstatus := t.mstatus, priv := t.priv, pc := t.pc } ∧
    ∀ e : Exc x, h.raise e = h.trapEntry false e.code e.value h.pc

/-- O23. R391: the trap target as a number, in Direct and Vectored mode; it is always a multiple of 4. -/
def Obligations.TrapTargetArithmetic : Prop :=
  ∀ (x : Xlen) (mtvec : XWord x) (interrupt : Bool) (code : Nat),
    (mtvec.getLsbD 0 = false → (trapTarget mtvec interrupt code).toNat = mtvec.toNat / 4 * 4) ∧
    (interrupt = false → (trapTarget mtvec interrupt code).toNat = mtvec.toNat / 4 * 4) ∧
    (mtvec.getLsbD 0 = true → interrupt = true →
      (trapTarget mtvec interrupt code).toNat = (mtvec.toNat / 4 * 4 + 4 * code) % 2 ^ x.bits) ∧
    (trapTarget mtvec interrupt code).toNat % 4 = 0

/-- O24. R395: a trap, then MRET, restores pc, mode and MIE, and leaves MPIE = 1, MPP = U and the trap's `mepc`, `mcause`
and `mtval`. The saved pc has bit 0 clear, as every pc of a run has (O13). -/
def Obligations.TrapThenMretRestores : Prop :=
  ∀ (x : Xlen) (h : Hart x) (interrupt : Bool) (code : Nat) (value epc : XWord x), epc.getLsbD 0 = false →
    let t := h.trapEntry interrupt code value epc
    ∃ h2 : Hart x, exec .mret ⟨x, t⟩ = .next ⟨x, h2⟩ ∧ h2.pc = epc ∧ h2.priv = h.priv ∧
      h2.mstatus.mie = h.mstatus.mie ∧ h2.mstatus.mpie = true ∧ h2.mstatus.mpp = .user ∧ h2.mepc = t.mepc ∧
      h2.mcause = t.mcause ∧ h2.mtval = t.mtval ∧ (∀ r, h2.reg r = h.reg r) ∧ (∀ a, h2.byteAt a = h.byteAt a)

/-- O25. R372: an instruction that takes a synchronous trap ends its step there, counted by `cycle_ctr` only, whatever
interrupt is pending and enabled, and whatever devices the instruction or its fetch accessed. -/
def Obligations.ExceptionBeatsInterrupt : Prop :=
  ∀ (x : Xlen) (h h' h1 : Hart x) (w : BitVec 32) (i : Instr) (code : Nat) (value : XWord x), h.halted = false →
    h.fetch = (.ok w, h') → decodeWord x h.params.haltWord w = .ok i → exec i ⟨x, h'⟩ = .next ⟨x, h1⟩ →
    h'.Trapped h1 code value →
    step ⟨x, h⟩ = .next ⟨x, { h1 with cycleCtr := h1.cycleCtr + 1 }⟩ ∧ h.Trapped h1 code value

/-- O26. R385, R433, R434: `inject_interrupt` and `retract_interrupt` set and clear one line and nothing else; injecting
twice is injecting once; no step changes a line, not even one that takes its interrupt. That no step does rests on log 9
(from 00_scope.md R10 and 60_exceptions.md R384: a device drives a line between steps, also in response to a write). -/
def Obligations.InterruptLinesBelongToHost : Prop :=
  ∀ (s : State) (q : Irq),
    ((s.injectInterrupt q).hart.csrValue .mip).getLsbD q.code = true ∧
    ((s.retractInterrupt q).hart.csrValue .mip).getLsbD q.code = false ∧
    (∀ n, n ≠ q.code →
      ((s.injectInterrupt q).hart.csrValue .mip).getLsbD n = (s.hart.csrValue .mip).getLsbD n ∧
      ((s.retractInterrupt q).hart.csrValue .mip).getLsbD n = (s.hart.csrValue .mip).getLsbD n) ∧
    (s.injectInterrupt q).hart = { s.hart with irq := (s.injectInterrupt q).hart.irq } ∧
    (s.retractInterrupt q).hart = { s.hart with irq := (s.retractInterrupt q).hart.irq } ∧
    (s.injectInterrupt q).injectInterrupt q = s.injectInterrupt q ∧
    (∀ h1 : Hart s.xlen, step s = .next ⟨s.xlen, h1⟩ → h1.csrValue .mip = s.hart.csrValue .mip)

/-! ### System instructions (43_system_fence.md) -/

/-- O27. R272, R273: ECALL is exactly the word 0x00000073 and takes the environment call of the mode, with value 0;
EBREAK is exactly 0x00100073 and takes the breakpoint at its own pc. Neither changes anything else. -/
def Obligations.CallsAndBreakpointsTrap : Prop :=
  ∀ (x : Xlen) (h : Hart x),
    (h.priv = .user → TakesTrap .ecall h 8 0) ∧ (h.priv = .supervisor → TakesTrap .ecall h 9 0) ∧
    (h.priv = .machine → TakesTrap .ecall h 11 0) ∧ TakesTrap .ebreak h 3 h.pc ∧
    (∀ hw w : BitVec 32, decodeWord x hw w = .ok .ecall ↔ w ≠ hw ∧ w = 0x00000073#32) ∧
    (∀ hw w : BitVec 32, decodeWord x hw w = .ok .ebreak ↔ w ≠ hw ∧ w = 0x00100073#32)

/-- O28. R274: MRET, exactly the word 0x30200073. In M mode it returns and retires; in S and U mode it is an illegal
instruction. -/
def Obligations.MretReturnsOrTraps : Prop :=
  ∀ (x : Xlen) (h : Hart x),
    (h.priv = .machine →
      ∃ h1 : Hart x, exec .mret ⟨x, h⟩ = .next ⟨x, h1⟩ ∧ h1.pc = h.mepc ∧ h1.priv = h.mstatus.mpp ∧
        h1.mstatus.mie = h.mstatus.mpie ∧ h1.mstatus.mpie = true ∧ h1.mstatus.mpp = .user ∧
        h1.instretCtr = h.instretCtr + 1 ∧ h1.cycleCtr = h.cycleCtr ∧ (∀ r, h1.reg r = h.reg r) ∧
        (∀ a, h1.byteAt a = h.byteAt a) ∧
        h1 = { h with pc := h1.pc, priv := h1.priv, mstatus := h1.mstatus, instretCtr := h1.instretCtr }) ∧
    (h.priv ≠ .machine → TakesTrap .mret h 2 (BitVec.ofNat x.bits 0x30200073)) ∧
    (∀ hw w : BitVec 32, decodeWord x hw w = .ok .mret ↔ w ≠ hw ∧ w = 0x30200073#32)

/-- O29. R270, R271, R275: FENCE (every word with opcode 0x0F and funct3 000), FENCE.I (funct3 001) and WFI (exactly
0x10500073) only advance the pc and retire, in every mode. -/
def Obligations.FencesAndWfiOnlyAdvance : Prop :=
  ∀ (x : Xlen) (h : Hart x),
    (∀ rd rs1 fm pred succ, Advances (.fence rd rs1 fm pred succ) h (h.pc + 4)) ∧
    (∀ rd rs1 imm, Advances (.fenceI rd rs1 imm) h (h.pc + 4)) ∧
    Advances .wfi h (h.pc + 4) ∧
    (∀ hw w : BitVec 32, w ≠ hw → opcodeOf w = 0x0F#7 → funct3Of w = 0b000#3 →
      decodeWord x hw w = .ok (.fence (rdOf w) (rs1Of w) (fmOf w) (predOf w) (succOf w))) ∧
    (∀ hw w : BitVec 32, w ≠ hw → opcodeOf w = 0x0F#7 → funct3Of w = 0b001#3 →
      decodeWord x hw w = .ok (.fenceI (rdOf w) (rs1Of w) (immIOf w))) ∧
    (∀ hw w : BitVec 32, decodeWord x hw w = .ok .wfi ↔ w ≠ hw ∧ w = 0x10500073#32)

/-- O30. R276, R435: HALT is the word HALT_WORD, 0x0000000B by default, and sets `halted` and nothing else, interrupts or
not; `step(n)` then answers ExplicitHaltInstruction. A halted core takes no step, whatever is pending, and `step(n)`
answers ExplicitHaltInstruction at once. -/
def Obligations.HaltStopsCore : Prop :=
  ∀ (x : Xlen) (h : Hart x),
    exec .halt ⟨x, h⟩ = .next ⟨x, { h with halted := true }⟩ ∧
    (∀ hw : BitVec 32, decodeWord x hw hw = .ok .halt) ∧
    (∀ h' : Hart x, h.halted = false → h.fetch = (.ok h.params.haltWord, h') →
      step ⟨x, h⟩ = .next ⟨x, { h' with halted := true }⟩ ∧ h.SameButDevices h' ∧
      ∀ n, stepN (n + 1) ⟨x, h⟩ = (⟨x, { h' with halted := true }⟩, .explicitHaltInstruction)) ∧
    Config.defaultHaltWord = 0x0000000B#32 ∧
    (h.halted = true → step ⟨x, h⟩ = .next ⟨x, h⟩ ∧ ∀ n, stepN n ⟨x, h⟩ = (⟨x, h⟩, .explicitHaltInstruction))

/-! ### CSRs (10_state.md, 44_csr.md) -/

/-- O31. R300: a CSR instruction whose CSR does not exist for the XLEN, needs a higher mode, or is read-only and would be
written, is an illegal instruction with its own word as value; nothing is read or written. The decoder does not make
these checks: the word decodes all the same. -/
def Obligations.CsrIllegalAccessTraps : Prop :=
  ∀ (x : Xlen) (h : Hart x) (i : Instr) (rd : Reg) (a : BitVec 12) (writes : Bool),
    i.csrForm = some (rd, a, writes) → ¬ CsrPermitted x h.priv a writes →
    TakesTrap i h 2 ((encode h.params.haltWord i).setWidth x.bits) ∧
    (encode h.params.haltWord i ≠ h.params.haltWord →
      decodeWord x h.params.haltWord (encode h.params.haltWord i) = .ok i)

/-- O32. R302 to R309: a CSR instruction that passes the checks completes: `rd` gets the old value; if its encoding
writes, the CSR gets the presented value through its write rule; nothing else changes. -/
def Obligations.CsrInstructionsReadModifyWrite : Prop :=
  ∀ (x : Xlen) (h : Hart x) (i : Instr) (rd : Reg) (a : BitVec 12) (writes : Bool),
    i.csrForm = some (rd, a, writes) → CsrPermitted x h.priv a writes →
    ∃ (c : Csr) (h1 : Hart x), csrAt x a = some c ∧ exec i ⟨x, h⟩ = .next ⟨x, h1⟩ ∧
      h.CsrDone h1 c rd (if writes then some (h.csrOperand i (h.csrValue c)) else none)

/-- O33. R311's derived law: `csrrw x0, csr, rs` then `csrrs rd, csr, x0` reads `(v AND M) OR (prev AND NOT M)`, with
M of each machine CSR, but for MPP = 0b10 written to `mstatus`. States of a run (O13) have bit 0 of `mepc` and bit 1 of
`mtvec` clear, which the law needs. -/
def Obligations.CsrWriteThenReadLaw : Prop :=
  ∀ (x : Xlen) (h : Hart x) (a : BitVec 12) (mask : XWord x) (rd rs : Reg), h.Inv → h.priv = .machine → rd ≠ 0 →
    ((a = 0x300#12 ∧ (h.reg rs).extractLsb' 11 2 ≠ 0b10#2 ∧ mask = 0x1888#x.bits) ∨
      (a = 0x300#12 ∧ (h.reg rs).extractLsb' 11 2 = 0b10#2 ∧ mask = 0x88#x.bits) ∨
      (a = 0x304#12 ∧ mask = 0x888#x.bits) ∨ (a = 0x305#12 ∧ mask = ~~~2#x.bits) ∨
      (a = 0x341#12 ∧ mask = ~~~1#x.bits) ∨ ((a = 0x342#12 ∨ a = 0x343#12) ∧ mask = BitVec.allOnes x.bits) ∨
      ((a = 0x301#12 ∨ a = 0x344#12) ∧ mask = 0#x.bits)) →
    ∃ (c : Csr) (h1 h2 : Hart x), csrAt x a = some c ∧ exec (.csrrw 0 a rs) ⟨x, h⟩ = .next ⟨x, h1⟩ ∧
      exec (.csrrs rd a 0) ⟨x, h1⟩ = .next ⟨x, h2⟩ ∧
      h2.reg rd = (h.reg rs &&& mask) ||| (h.csrValue c &&& ~~~mask)

/-- O34. R39: the write rule of `mstatus` over the value it reads, its WARL field, and its read rule. -/
def Obligations.MstatusFieldRule : Prop :=
  ∀ (x : Xlen) (m : MStatus) (v : XWord x),
    (v.extractLsb' 11 2 ≠ 0b10#2 →
      (m.write v).read x = (m.read x &&& ~~~0x1888#x.bits) ||| (v &&& 0x1888#x.bits)) ∧
    (v.extractLsb' 11 2 = 0b10#2 →
      (m.write v).read x = (m.read x &&& ~~~0x88#x.bits) ||| (v &&& 0x88#x.bits)) ∧
    (m.read x).getLsbD 3 = m.mie ∧ (m.read x).getLsbD 7 = m.mpie ∧
    ((m.read x).extractLsb' 11 2).toNat = m.mpp.code ∧
    m.read x &&& ~~~0x1888#x.bits = BitVec.ofNat x.bits (if x = .rv64 then 0xA00000000 else 0) ∧
    (m.read x).extractLsb' 11 2 ≠ 0b10#2

/-- O35. R31, R41, R51: the CSR each address names, no other address naming one, and the constant `misa` reads. -/
def Obligations.CsrAddressMap : Prop :=
  (∀ x : Xlen, csrAt x 0x300#12 = some .mstatus ∧ csrAt x 0x301#12 = some .misa ∧ csrAt x 0x304#12 = some .mie ∧
    csrAt x 0x305#12 = some .mtvec ∧ csrAt x 0x341#12 = some .mepc ∧ csrAt x 0x342#12 = some .mcause ∧
    csrAt x 0x343#12 = some .mtval ∧ csrAt x 0x344#12 = some .mip ∧ csrAt x 0xC00#12 = some .cycle ∧
    csrAt x 0xC01#12 = some .time ∧ csrAt x 0xC02#12 = some .instret ∧
    ∀ a, (csrAt x a).isSome = true ↔ a ∈ csrAddresses x) ∧
  csrAt .rv32 0xC80#12 = some .cycleh ∧ csrAt .rv32 0xC81#12 = some .timeh ∧ csrAt .rv32 0xC82#12 = some .instreth ∧
  (∀ h : Hart .rv32, h.csrValue .misa = 0x40141100#32) ∧ (∀ h : Hart .rv64, h.csrValue .misa = 0x8000000000141100#64)

/-- O36. R48 to R50: the counters and the clock read as 64 bits, in two halves when XLEN is 32. -/
def Obligations.CountersReadInHalves : Prop :=
  (∀ h : Hart .rv64, h.csrValue .cycle = h.cycleCtr ∧ h.csrValue .instret = h.instretCtr ∧
    h.csrValue .time = h.timeValue) ∧
  (∀ h : Hart .rv32,
    (h.csrValue .cycleh).toNat * 2 ^ 32 + (h.csrValue .cycle).toNat = h.cycleCtr.toNat ∧
    (h.csrValue .instreth).toNat * 2 ^ 32 + (h.csrValue .instret).toNat = h.instretCtr.toNat ∧
    (h.csrValue .timeh).toNat * 2 ^ 32 + (h.csrValue .time).toNat = h.timeValue.toNat)

/-- O37. R411: the clock a run has sampled never goes back, and a step that does not read it leaves it alone. It holds
for every value of the free clock advance. -/
def Obligations.ClockNeverRunsBack : Prop :=
  ∀ (x : Xlen) (h h1 : Hart x), step ⟨x, h⟩ = .next ⟨x, h1⟩ →
    h.timeNow ≤ h1.timeNow ∧
    (h1.timeNow ≠ h.timeNow →
      ∃ i rd a writes, h.Runs i ∧ i.csrForm = some (rd, a, writes) ∧ (a = 0xC01#12 ∨ a = 0xC81#12))

/-! ### Loads and stores (20_memory.md, 41_load_store.md) -/

/-- O38. R220 to R227, R233: a load whose access is in readable storage completes, with the bytes at the effective address
read least significant first, and sign- or zero-extended. -/
def Obligations.LoadsComplete : Prop :=
  ∀ (x : Xlen) (h : Hart x) (rd rs1 : Reg) (imm : BitVec 12),
    let ea := h.eaOf rs1 imm
    let n := fun w => h.accessValue ea w
    (h.StorageAccess .read ea .byte →
      Computes (.lb rd rs1 imm) h rd (fun v => v.toInt = Int.bmod (n .byte) (2 ^ 8)) ∧
      Computes (.lbu rd rs1 imm) h rd (fun v => v.toNat = n .byte)) ∧
    (h.StorageAccess .read ea .half →
      Computes (.lh rd rs1 imm) h rd (fun v => v.toInt = Int.bmod (n .half) (2 ^ 16)) ∧
      Computes (.lhu rd rs1 imm) h rd (fun v => v.toNat = n .half)) ∧
    (h.StorageAccess .read ea .word →
      Computes (.lw rd rs1 imm) h rd (fun v => v.toInt = Int.bmod (n .word) (2 ^ 32)) ∧
      (x = .rv64 → Computes (.lwu rd rs1 imm) h rd (fun v => v.toNat = n .word))) ∧
    (h.StorageAccess .read ea .double → x = .rv64 →
      Computes (.ld rd rs1 imm) h rd (fun v => v.toNat = n .double))

/-- O39. R92, R96, R233: a load whose access faults takes the load access fault with the address R96 names, and writes
nothing. -/
def Obligations.LoadFaultsTrap : Prop :=
  ∀ (x : Xlen) (h : Hart x) (i : Instr) (rd rs1 : Reg) (imm : BitVec 12) (w : Width) (a : XWord x),
    i.loadForm = some (rd, rs1, imm, w) → i.wellFormed x = true → h.AccessFaults .read (h.eaOf rs1 imm) w a →
    TakesTrap i h 5 a

/-- O40. R220, R228 to R232: a store whose access is in writable storage completes: the low bytes of the source at the
effective address, the least significant first, and no other byte. -/
def Obligations.StoresComplete : Prop :=
  ∀ (x : Xlen) (h : Hart x) (i : Instr) (rs2 rs1 : Reg) (imm : BitVec 12) (w : Width),
    i.storeForm = some (rs2, rs1, imm, w) → i.wellFormed x = true → h.StorageAccess .write (h.eaOf rs1 imm) w →
    Stores i h (h.eaOf rs1 imm) w (h.reg rs2)

/-- O41. R93, R94, R96, R228: a store whose access faults takes the store access fault with the address R96 names, and no
byte of memory changes, not even those before the faulting byte of a split store. -/
def Obligations.StoreFaultsTrap : Prop :=
  ∀ (x : Xlen) (h : Hart x) (i : Instr) (rs2 rs1 : Reg) (imm : BitVec 12) (w : Width) (a : XWord x),
    i.storeForm = some (rs2, rs1, imm, w) → i.wellFormed x = true → h.AccessFaults .write (h.eaOf rs1 imm) w a →
    TakesTrap i h 7 a

/-- O42. R107: a store, then a load of the same width from the same address, gives the stored value, for every width and
every address in storage with r and w permission: the extent is the sentence of R107 that the spec marks as its own
inference, "This holds for every width and for every address in a storage region with r and w permission". -/
def Obligations.LoadAfterStore : Prop :=
  ∀ (x : Xlen) (h : Hart x) (i j : Instr) (rs2 rs1 rd : Reg) (imm : BitVec 12) (w : Width),
    i.storeForm = some (rs2, rs1, imm, w) → j.loadForm = some (rd, rs1, imm, w) → i.wellFormed x = true →
    j.wellFormed x = true → rd ≠ 0 → h.StorageAccess .write (h.eaOf rs1 imm) w →
    h.StorageAccess .read (h.eaOf rs1 imm) w →
    ∃ h1 h2 : Hart x, exec i ⟨x, h⟩ = .next ⟨x, h1⟩ ∧ exec j ⟨x, h1⟩ = .next ⟨x, h2⟩ ∧
      (h2.reg rd).toNat % 2 ^ w.bits = (h.reg rs2).toNat % 2 ^ w.bits

/-- O43. R84, R94: an aligned load from a device takes the device's answer, whatever it is, extended as its instruction
says; an aligned store hands the value over; both are recorded, neither touches storage; a device's fault is the access
fault. A split access is seen by the devices as one-byte accesses, in ascending order, each byte checked against its own
region; a split store that faults at a byte changes and hands over nothing (log 7). It holds for every value of the free
device answers (log 5); the form of the record is log 6. -/
def Obligations.DeviceAccessesFreeAndRecorded : Prop :=
  ∀ (x : Xlen) (h : Hart x) (i : Instr) (r3 rs1 : Reg) (imm : BitVec 12) (w : Width), i.wellFormed x = true →
    let ea := h.eaOf rs1 imm
    let answers := fun P : Hart x → Prop => ∃ h1 : Hart x, exec i ⟨x, h⟩ = .next ⟨x, h1⟩ ∧ P h1
    (∀ r : Region, ea.toNat % w.bytes = 0 → r.kind = .device →
      let off := ea.toNat - r.base
      (i.loadForm = some (r3, rs1, imm, w) → regionFor h.params.regions .read ea.toNat w.bytes = some r →
        (∀ v, Config.deviceRead h.deviceDraws r off w = some v →
          answers fun h1 => h.DeviceRetires h1 r3 (LoadedAs i v) [.read r off w true] 1 ∧ h1.memory = h.memory) ∧
        (Config.deviceRead h.deviceDraws r off w = none →
          answers fun h1 => h.DeviceTraps h1 5 ea [.read r off w false] 1 ∧ h1.memory = h.memory)) ∧
      (i.storeForm = some (r3, rs1, imm, w) → regionFor h.params.regions .write ea.toNat w.bytes = some r →
        ∀ v : BitVec w.bits, v.toNat = (h.reg r3).toNat % 2 ^ w.bits →
        (Config.deviceTakes h.deviceDraws r off w v = true →
          answers fun h1 => h.DeviceRetires h1 0 (fun _ => True) [.write r off w (v.setWidth 64) true] 1 ∧
            h1.memory = h.memory) ∧
        (Config.deviceTakes h.deviceDraws r off w v = false →
          answers fun h1 => h.DeviceTraps h1 7 ea [.write r off w (v.setWidth 64) false] 1 ∧
            h1.memory = h.memory))) ∧
    (ea.toNat % w.bytes ≠ 0 → h.params.misaligned = .split → i.loadForm = some (r3, rs1, imm, w) →
      (∀ b : Nat → Byte, (∀ j < w.bytes, h.splitAnswer ea j = some (b j)) →
        answers fun h1 =>
          h.DeviceRetires h1 r3
            (LoadedAs i (BitVec.ofNat w.bits (∑ j ∈ Finset.range w.bytes, (b j).toNat * 256 ^ j)))
            (h.splitReadEvents ea w.bytes) (h.deviceCount .read ea w.bytes) ∧ h1.memory = h.memory) ∧
      (∀ k < w.bytes, ∀ a : XWord x, a.toNat = byteAddr ea k → h.splitAnswer ea k = none →
        (∀ j < k, h.splitAnswer ea j ≠ none) →
        answers fun h1 =>
          h.DeviceTraps h1 5 a (h.splitReadEvents ea (k + 1)) (h.deviceCount .read ea (k + 1)) ∧
            h1.memory = h.memory)) ∧
    (ea.toNat % w.bytes ≠ 0 → h.params.misaligned = .split → i.storeForm = some (r3, rs1, imm, w) →
      ((∀ j < w.bytes, h.splitTakes ea (h.reg r3) j = true) →
        answers fun h1 =>
          h.DeviceRetires h1 0 (fun _ => True) (h.splitWriteEvents ea (h.reg r3) w.bytes)
            (h.deviceCount .write ea w.bytes) ∧
          (∀ j < w.bytes, h.deviceAt .write (byteAddr ea j) = none →
            (h1.byteAt (byteAddr ea j)).toNat = (h.reg r3).toNat / 256 ^ j % 256) ∧
          (∀ a, ¬ InAccess ea w a ∨ h.deviceAt .write a ≠ none → h1.byteAt a = h.byteAt a)) ∧
      (∀ k < w.bytes, ∀ a : XWord x, a.toNat = byteAddr ea k → h.splitTakes ea (h.reg r3) k = false →
        (∀ j < k, h.splitTakes ea (h.reg r3) j = true) →
        answers fun h1 =>
          h.DeviceTraps h1 7 a [] (h.deviceCount .write ea (k + 1)) ∧ h1.memory = h.memory))

/-- O44. R85: a load, a store or a fetch does the same in every mode: the mode changes neither what it reads and writes
nor whether and where it faults. -/
def Obligations.LoadsAndStoresIgnoreMode : Prop :=
  ∀ (x : Xlen) (h h1 : Hart x) (p : Priv),
    (∀ i : Instr, i.loadForm ≠ none ∨ i.storeForm ≠ none → i.wellFormed x = true → exec i ⟨x, h⟩ = .next ⟨x, h1⟩ →
      (h1.instretCtr = h.instretCtr + 1 ∧
        exec i ⟨x, { h with priv := p }⟩ = .next ⟨x, { h1 with priv := p }⟩) ∨
      (h1.instretCtr = h.instretCtr ∧
        exec i ⟨x, { h with priv := p }⟩ = .next ⟨x, { h1 with mstatus := { h1.mstatus with mpp := p } }⟩)) ∧
    Hart.fetch { h with priv := p } = (h.fetch.1, { h.fetch.2 with priv := p })

/-- O45. R104, R441: a word stored to memory is the word the next fetch from there gets, with no FENCE.I between. -/
def Obligations.StoredCodeIsFetched : Prop :=
  ∀ (x : Xlen) (h : Hart x) (rs2 rs1 : Reg) (imm : BitVec 12), (h.eaOf rs1 imm).toNat % 4 = 0 →
    h.ReachesStorage .write (h.eaOf rs1 imm).toNat 4 → h.ReachesStorage .fetch (h.eaOf rs1 imm).toNat 4 →
    ∃ h1 : Hart x, exec (.sw rs2 rs1 imm) ⟨x, h⟩ = .next ⟨x, h1⟩ ∧
      ∀ h2 : Hart x, h2.pc = h.eaOf rs1 imm → h2.memory = h1.memory → h2.params = h1.params →
        ∃ w, h2.fetch = (.ok w, h2) ∧ w.toNat = (h.reg rs2).toNat % 2 ^ 32

/-- O46. R82, R88, R89: over regions that do not overlap, a single bus access of `n` bytes at `a` has exactly the region
that claims its first and last byte and permits it; a ROM is never written (R83, log 15). -/
def Obligations.BusAccessNeedsOneRegion : Prop :=
  ∀ (regions : List Region) (k : Access) (a n : Nat) (r : Region), 1 ≤ n →
    regions.Pairwise (fun p q => p.base + p.length ≤ q.base ∨ q.base + q.length ≤ p.base) →
    (regionFor regions k a n = some r ↔
      r ∈ regions ∧ r.base ≤ a ∧ a + n ≤ r.base + r.length ∧
      match k with
      | .read => r.r = true
      | .write => r.w = true ∧ r.kind ≠ .rom
      | .fetch => r.x = true)

/-! ### Branches and jumps (42_branch_jump.md) -/

/-- O47. R250 to R256, R259: a branch goes to `pc` plus twice its signed 12-bit offset field if its condition holds, else
to `pc + 4`; it never traps and changes nothing else. -/
def Obligations.BranchesDecide : Prop :=
  ∀ (x : Xlen) (h : Hart x) (rs1 rs2 : Reg) (off : BitVec 12),
    let a := h.reg rs1
    let b := h.reg rs2
    let goes := fun (taken : Prop) (i : Instr) =>
      (taken → Advances i h (h.pcPlus (2 * off.toInt))) ∧ (¬ taken → Advances i h (h.pcPlus 4))
    goes (a = b) (.beq rs1 rs2 off) ∧ goes (a ≠ b) (.bne rs1 rs2 off) ∧
    goes (a.toInt < b.toInt) (.blt rs1 rs2 off) ∧ goes (b.toInt ≤ a.toInt) (.bge rs1 rs2 off) ∧
    goes (a.toNat < b.toNat) (.bltu rs1 rs2 off) ∧ goes (b.toNat ≤ a.toNat) (.bgeu rs1 rs2 off)

/-- O48. R257 to R259: JAL and JALR link `pc + 4` and go to their target, JALR's with bit 0 cleared and computed from the
old source; they never trap. -/
def Obligations.JumpsLink : Prop :=
  ∀ (x : Xlen) (h : Hart x) (rd rs1 : Reg) (off : BitVec 20) (imm : BitVec 12),
    Completes (.jal rd off) h rd (h.pcPlus (2 * off.toInt)) (fun v => v = h.pcPlus 4) ∧
    ∃ t : XWord x, t.toNat = ((h.reg rs1).toNat + imm.toInt) % 2 ^ x.bits / 2 * 2 ∧
      Completes (.jalr rd rs1 imm) h rd t (fun v => v = h.pcPlus 4)

/-! ### Integer arithmetic (40_integer_arithmetic.md) -/

/-- O49. R161 to R163, R172, R173, R191: LUI, AUIPC, ADDI, ADD and SUB, as integers modulo 2^XLEN. -/
def Obligations.UpperImmediatesAndSums : Prop :=
  ∀ (x : Xlen) (h : Hart x) (rd rs1 rs2 : Reg) (up : BitVec 20) (imm : BitVec 12),
    Computes (.lui rd up) h rd (fun v => v.toInt = 4096 * up.toInt) ∧
    Computes (.auipc rd up) h rd (fun v => v = h.pcPlus (4096 * up.toInt)) ∧
    Computes (.addi rd rs1 imm) h rd (fun v => (v.toNat : Int) = ((h.reg rs1).toNat + imm.toInt) % 2 ^ x.bits) ∧
    Computes (.add rd rs1 rs2) h rd (fun v => v.toNat = ((h.reg rs1).toNat + (h.reg rs2).toNat) % 2 ^ x.bits) ∧
    Computes (.sub rd rs1 rs2) h rd
      (fun v => (v.toNat : Int) = ((h.reg rs1).toNat - (h.reg rs2).toNat : Int) % 2 ^ x.bits)

/-- O50. R164, R165, R175, R176, R193: the four comparisons write 1 or 0, signed or unsigned; SLTIU compares with the
sign-extended immediate read as unsigned. -/
def Obligations.ComparisonsSet : Prop :=
  ∀ (x : Xlen) (h : Hart x) (rd rs1 rs2 : Reg) (imm : BitVec 12),
    let a := h.reg rs1
    let b := h.reg rs2
    let sets := fun (c : Prop) (i : Instr) =>
      Computes i h rd (fun v => (c → v.toNat = 1) ∧ (¬ c → v.toNat = 0))
    sets (a.toInt < imm.toInt) (.slti rd rs1 imm) ∧
    sets ((a.toNat : Int) < imm.toInt % 2 ^ x.bits) (.sltiu rd rs1 imm) ∧
    sets (a.toInt < b.toInt) (.slt rd rs1 rs2) ∧
    sets (a.toNat < b.toNat) (.sltu rd rs1 rs2)

/-- O51. R166 to R168, R177, R180, R181: the six bitwise instructions, bit by bit; bits of the immediate above bit 11 are
its bit 11. -/
def Obligations.BitwiseLogic : Prop :=
  ∀ (x : Xlen) (h : Hart x) (rd rs1 rs2 : Reg) (imm : BitVec 12),
    let a := h.reg rs1
    let b := h.reg rs2
    let m := fun k => imm.getLsbD (min k 11)
    let bits := fun (f : Nat → Bool) (v : XWord x) => ∀ k < x.bits, v.getLsbD k = f k
    Computes (.xori rd rs1 imm) h rd (bits fun k => a.getLsbD k ^^ m k) ∧
    Computes (.ori rd rs1 imm) h rd (bits fun k => a.getLsbD k || m k) ∧
    Computes (.andi rd rs1 imm) h rd (bits fun k => a.getLsbD k && m k) ∧
    Computes (.xor rd rs1 rs2) h rd (bits fun k => a.getLsbD k ^^ b.getLsbD k) ∧
    Computes (.or rd rs1 rs2) h rd (bits fun k => a.getLsbD k || b.getLsbD k) ∧
    Computes (.and rd rs1 rs2) h rd (bits fun k => a.getLsbD k && b.getLsbD k)

/-- O52. R169 to R171, R174, R178, R179, R192: the shifts as multiplication and division by a power of 2, rounding down;
a register amount counts modulo XLEN, an immediate amount is below XLEN. -/
def Obligations.Shifts : Prop :=
  ∀ (x : Xlen) (h : Hart x) (rd rs1 rs2 : Reg) (shamt : BitVec 6),
    let a := h.reg rs1
    let k := (h.reg rs2).toNat % x.bits
    let s := shamt.toNat
    (s < x.bits →
      Computes (.slli rd rs1 shamt) h rd (fun v => v.toNat = a.toNat * 2 ^ s % 2 ^ x.bits) ∧
      Computes (.srli rd rs1 shamt) h rd (fun v => v.toNat = a.toNat / 2 ^ s) ∧
      Computes (.srai rd rs1 shamt) h rd (fun v => v.toInt = a.toInt / 2 ^ s)) ∧
    Computes (.sll rd rs1 rs2) h rd (fun v => v.toNat = a.toNat * 2 ^ k % 2 ^ x.bits) ∧
    Computes (.srl rd rs1 rs2) h rd (fun v => v.toNat = a.toNat / 2 ^ k) ∧
    Computes (.sra rd rs1 rs2) h rd (fun v => v.toInt = a.toInt / 2 ^ k)

/-- O53. R182 to R190, R194: the W forms on XLEN 64: a 32-bit result from the low 32 bits, as a signed number. -/
def Obligations.WordForms : Prop :=
  ∀ (h : Hart .rv64) (rd rs1 rs2 : Reg) (imm : BitVec 12) (shamt : BitVec 5),
    let a : Nat := (h.reg rs1).toNat % 2 ^ 32
    let b : Nat := (h.reg rs2).toNat % 2 ^ 32
    let s : Nat := shamt.toNat
    let k : Nat := (h.reg rs2).toNat % 32
    let word := fun (n : Int) (v : XWord .rv64) => v.toInt = n.bmod (2 ^ 32)
    Computes (.addiw rd rs1 imm) h rd (word (a + imm.toInt)) ∧
    Computes (.slliw rd rs1 shamt) h rd (word (a * 2 ^ s : Nat)) ∧
    Computes (.srliw rd rs1 shamt) h rd (word (a / 2 ^ s : Nat)) ∧
    Computes (.sraiw rd rs1 shamt) h rd (word ((a : Int).bmod (2 ^ 32) / 2 ^ s)) ∧
    Computes (.addw rd rs1 rs2) h rd (word (a + b : Nat)) ∧
    Computes (.subw rd rs1 rs2) h rd (word ((a : Int) - b)) ∧
    Computes (.sllw rd rs1 rs2) h rd (word (a * 2 ^ k : Nat)) ∧
    Computes (.srlw rd rs1 rs2) h rd (word (a / 2 ^ k : Nat)) ∧
    Computes (.sraw rd rs1 rs2) h rd (word ((a : Int).bmod (2 ^ 32) / 2 ^ k))

/-! ### Multiply and divide (45_mul_div.md) -/

/-- O54. R320 to R324, R329: the low half of the product, and bits 2n-1 to n of the exact signed, mixed and unsigned
products taken as 2n-bit two's-complement numbers. -/
def Obligations.Multiplies : Prop :=
  ∀ (x : Xlen) (h : Hart x) (rd rs1 rs2 : Reg),
    let a := h.reg rs1
    let b := h.reg rs2
    let high := fun (p : Int) => (BitVec.ofInt (2 * x.bits) p).extractLsb' x.bits x.bits
    Computes (.mul rd rs1 rs2) h rd (fun v => v.toNat = a.toNat * b.toNat % 2 ^ x.bits) ∧
    Computes (.mulh rd rs1 rs2) h rd (fun v => v = high (a.toInt * b.toInt)) ∧
    Computes (.mulhsu rd rs1 rs2) h rd (fun v => v = high (a.toInt * b.toNat)) ∧
    Computes (.mulhu rd rs1 rs2) h rd (fun v => v = high (a.toNat * b.toNat)) ∧
    (x = .rv64 → Computes (.mulw rd rs1 rs2) h rd
      (fun v => v.toInt = Int.bmod (a.toNat % 2 ^ 32 * (b.toNat % 2 ^ 32) : Nat) (2 ^ 32)))

/-- O55. R334: the division laws of every width: each row of the table, the sign of the remainder, and
`a = b * q + r` modulo 2^n in every row. -/
def Obligations.DivisionLaws : Prop :=
  ∀ (n : Nat) (a b : BitVec n), 0 < n →
    (b = 0#n → divSigned a b = BitVec.allOnes n ∧ divUnsigned a b = BitVec.allOnes n ∧ remSigned a b = a ∧
      remUnsigned a b = a) ∧
    (a.toInt = -2 ^ (n - 1) → b.toInt = -1 → divSigned a b = a ∧ remSigned a b = 0#n) ∧
    (b ≠ 0#n → ¬ (a.toInt = -2 ^ (n - 1) ∧ b.toInt = -1) →
      (divSigned a b).toInt = a.toInt.tdiv b.toInt ∧
      (remSigned a b).toInt = a.toInt - b.toInt * a.toInt.tdiv b.toInt) ∧
    (b ≠ 0#n → (divUnsigned a b).toNat = a.toNat / b.toNat ∧ (remUnsigned a b).toNat = a.toNat % b.toNat) ∧
    (b ≠ 0#n → 0 ≤ a.toInt → 0 ≤ (remSigned a b).toInt) ∧ (b ≠ 0#n → a.toInt ≤ 0 → (remSigned a b).toInt ≤ 0) ∧
    b * divSigned a b + remSigned a b = a ∧ b * divUnsigned a b + remUnsigned a b = a

/-- O56. R320, R325 to R328, R330 to R333: the divide and remainder instructions never trap, whatever the divisor, and
give the column of R334 (O55) at width XLEN, or at width 32 sign-extended. -/
def Obligations.DivideInstructions : Prop :=
  ∀ (x : Xlen) (h : Hart x) (rd rs1 rs2 : Reg),
    let a := h.reg rs1
    let b := h.reg rs2
    let a32 := BitVec.ofNat 32 a.toNat
    let b32 := BitVec.ofNat 32 b.toNat
    let word := fun (q : BitVec 32) (v : XWord x) => v.toInt = q.toInt
    Computes (.div rd rs1 rs2) h rd (fun v => v = divSigned a b) ∧
    Computes (.divu rd rs1 rs2) h rd (fun v => v = divUnsigned a b) ∧
    Computes (.rem rd rs1 rs2) h rd (fun v => v = remSigned a b) ∧
    Computes (.remu rd rs1 rs2) h rd (fun v => v = remUnsigned a b) ∧
    (x = .rv64 →
      Computes (.divw rd rs1 rs2) h rd (word (divSigned a32 b32)) ∧
      Computes (.divuw rd rs1 rs2) h rd (word (divUnsigned a32 b32)) ∧
      Computes (.remw rd rs1 rs2) h rd (word (remSigned a32 b32)) ∧
      Computes (.remuw rd rs1 rs2) h rd (word (remUnsigned a32 b32)))

/-! ### Reset and the host (70_reset_and_hazards.md) -/

/-- O57. R54, R420 to R422: the core the host creates has every register and CSR at the value of R54's table, its
parameters, and the bytes of the image. -/
def Obligations.BootGivesResetState : Prop :=
  ∀ (c : Configuration) (s : State), boot c = .next s →
    s.xlen.bits = c.xlen ∧ s.hart.pc.toNat = c.resetPc ∧ (∀ r, s.hart.reg r = 0) ∧ s.hart.priv = .machine ∧
    s.hart.csrValue .mstatus = BitVec.ofNat s.xlen.bits (if s.xlen = .rv64 then 0xA00000000 else 0) ∧
    s.hart.csrValue .mie = 0 ∧ s.hart.csrValue .mip = 0 ∧ s.hart.mtvec = 0 ∧ s.hart.mepc = 0 ∧ s.hart.mcause = 0 ∧
    s.hart.mtval = 0 ∧ s.hart.cycleCtr = 0 ∧ s.hart.instretCtr = 0 ∧ s.hart.halted = false ∧
    s.hart.params.regions = c.regions ∧ s.hart.params.misaligned = c.misaligned ∧
    s.hart.params.haltWord.toNat = c.haltWord ∧
    ∀ p ∈ c.image, ∀ k b, p.2[k]? = some b → s.hart.byteAt (p.1 + k) = b

/-- O58. R421, R436: a core is created exactly from a consistent configuration, and no program then makes `step(n)` answer
UnrecoverableFault; any other configuration is refused. Regions, and pairs of the image, overlap if they share an
address; that a pair with no bytes shares none is the model's reading of R421 (log 20). -/
def Obligations.BootRefusesInconsistent : Prop :=
  ∀ c : Configuration,
    let consistent :=
      (c.xlen = 32 ∨ c.xlen = 64) ∧
      (∀ r ∈ c.regions, 1 ≤ r.length ∧ r.base + r.length ≤ 2 ^ c.xlen) ∧
      c.regions.Pairwise (fun p q => ∀ a, ¬ (p.base ≤ a ∧ a < p.base + p.length ∧ q.base ≤ a ∧
        a < q.base + q.length)) ∧
      (∀ p ∈ c.image, ∀ k < p.2.length, ∃ r ∈ c.regions, r.kind ≠ .device ∧ r.base ≤ p.1 + k ∧
        p.1 + k < r.base + r.length) ∧
      c.image.Pairwise (fun p q => ∀ a, ¬ (p.1 ≤ a ∧ a < p.1 + p.2.length ∧ q.1 ≤ a ∧ a < q.1 + q.2.length)) ∧
      c.resetPc < 2 ^ c.xlen ∧ c.resetPc % 2 = 0 ∧ c.haltWord < 2 ^ 32
    (consistent → ∃ s, boot c = .next s ∧ ∀ n, (stepN n s).2 ≠ .unrecoverableFault) ∧
    (¬ consistent → boot c = .refused .inconsistentConfiguration)

/-- O59. R431: `step(1)` is one step; `step(a)` then `step(b)` is `step(a + b)`; `step(0)` changes nothing; `step` reports
an unrecoverable fault never, and a HALT exactly if the core is halted. -/
def Obligations.StepNComposes : Prop :=
  ∀ (a b : Nat) (s : State),
    step s = .next (stepN 1 s).1 ∧ stepN (a + b) s = stepN b (stepN a s).1 ∧ (stepN 0 s).1 = s ∧
    (stepN a s).2 = (if (stepN a s).1.hart.halted then .explicitHaltInstruction else .stepLimitReached)

/-- O60. R55, R432: the snapshot shows the pc, the 32 registers, every CSR of the XLEN as it would read, and the mode. -/
def Obligations.InspectShowsState : Prop :=
  ∀ s : State,
    s.inspect.pc = s.hart.pc.toNat ∧ s.inspect.priv = s.hart.priv ∧ s.inspect.regs.length = 32 ∧
    (∀ r : Reg, s.inspect.regs[r.toNat]? = some (s.hart.reg r).toNat) ∧
    (∀ a ∈ csrAddresses s.xlen, ∃ c, csrAt s.xlen a = some c ∧ (c, (s.hart.csrValue c).toNat) ∈ s.inspect.csrs) ∧
    s.inspect.csrs.length = (csrAddresses s.xlen).length

end
end

