-- ==== Sys2Proof/Laws/State.lean ====
section
/-! SUPPORT. One lemma for each field of a hart and each update of one, by `rfl`, so that no later proof unfolds a record
update. -/

namespace Sys2Proof.Machine.Hart

variable {x : Xlen} (h : Hart x)

/-! A register write touches the registers only. -/

@[simp] theorem setReg_params (r : Reg) (v : XWord x) : (h.setReg r v).params = h.params := rfl
@[simp] theorem setReg_regs (r : Reg) (v : XWord x) : (h.setReg r v).regs = if r = 0 then h.regs else h.regs.set r.toNat v r.isLt := rfl
@[simp] theorem setReg_pc (r : Reg) (v : XWord x) : (h.setReg r v).pc = h.pc := rfl
@[simp] theorem setReg_priv (r : Reg) (v : XWord x) : (h.setReg r v).priv = h.priv := rfl
@[simp] theorem setReg_mstatus (r : Reg) (v : XWord x) : (h.setReg r v).mstatus = h.mstatus := rfl
@[simp] theorem setReg_mie (r : Reg) (v : XWord x) : (h.setReg r v).mie = h.mie := rfl
@[simp] theorem setReg_irq (r : Reg) (v : XWord x) : (h.setReg r v).irq = h.irq := rfl
@[simp] theorem setReg_mtvec (r : Reg) (v : XWord x) : (h.setReg r v).mtvec = h.mtvec := rfl
@[simp] theorem setReg_mepc (r : Reg) (v : XWord x) : (h.setReg r v).mepc = h.mepc := rfl
@[simp] theorem setReg_mcause (r : Reg) (v : XWord x) : (h.setReg r v).mcause = h.mcause := rfl
@[simp] theorem setReg_mtval (r : Reg) (v : XWord x) : (h.setReg r v).mtval = h.mtval := rfl
@[simp] theorem setReg_cycleCtr (r : Reg) (v : XWord x) : (h.setReg r v).cycleCtr = h.cycleCtr := rfl
@[simp] theorem setReg_instretCtr (r : Reg) (v : XWord x) : (h.setReg r v).instretCtr = h.instretCtr := rfl
@[simp] theorem setReg_halted (r : Reg) (v : XWord x) : (h.setReg r v).halted = h.halted := rfl
@[simp] theorem setReg_memory (r : Reg) (v : XWord x) : (h.setReg r v).memory = h.memory := rfl
@[simp] theorem setReg_deviceLog (r : Reg) (v : XWord x) : (h.setReg r v).deviceLog = h.deviceLog := rfl
@[simp] theorem setReg_deviceDraws (r : Reg) (v : XWord x) : (h.setReg r v).deviceDraws = h.deviceDraws := rfl
@[simp] theorem setReg_timeNow (r : Reg) (v : XWord x) : (h.setReg r v).timeNow = h.timeNow := rfl
@[simp] theorem setReg_timeDraws (r : Reg) (v : XWord x) : (h.setReg r v).timeDraws = h.timeDraws := rfl

/-! A commit touches `pc` and `instretCtr` only. -/

@[simp] theorem commit_params (t : XWord x) : (h.commit t).params = h.params := rfl
@[simp] theorem commit_regs (t : XWord x) : (h.commit t).regs = h.regs := rfl
@[simp] theorem commit_pc (t : XWord x) : (h.commit t).pc = t := rfl
@[simp] theorem commit_priv (t : XWord x) : (h.commit t).priv = h.priv := rfl
@[simp] theorem commit_mstatus (t : XWord x) : (h.commit t).mstatus = h.mstatus := rfl
@[simp] theorem commit_mie (t : XWord x) : (h.commit t).mie = h.mie := rfl
@[simp] theorem commit_irq (t : XWord x) : (h.commit t).irq = h.irq := rfl
@[simp] theorem commit_mtvec (t : XWord x) : (h.commit t).mtvec = h.mtvec := rfl
@[simp] theorem commit_mepc (t : XWord x) : (h.commit t).mepc = h.mepc := rfl
@[simp] theorem commit_mcause (t : XWord x) : (h.commit t).mcause = h.mcause := rfl
@[simp] theorem commit_mtval (t : XWord x) : (h.commit t).mtval = h.mtval := rfl
@[simp] theorem commit_cycleCtr (t : XWord x) : (h.commit t).cycleCtr = h.cycleCtr := rfl
@[simp] theorem commit_instretCtr (t : XWord x) : (h.commit t).instretCtr = h.instretCtr + 1 := rfl
@[simp] theorem commit_halted (t : XWord x) : (h.commit t).halted = h.halted := rfl
@[simp] theorem commit_memory (t : XWord x) : (h.commit t).memory = h.memory := rfl
@[simp] theorem commit_deviceLog (t : XWord x) : (h.commit t).deviceLog = h.deviceLog := rfl
@[simp] theorem commit_deviceDraws (t : XWord x) : (h.commit t).deviceDraws = h.deviceDraws := rfl
@[simp] theorem commit_timeNow (t : XWord x) : (h.commit t).timeNow = h.timeNow := rfl
@[simp] theorem commit_timeDraws (t : XWord x) : (h.commit t).timeDraws = h.timeDraws := rfl

/-! A storage write touches the memory only. -/

@[simp] theorem storageWrite_params (a : Nat) (w : Width) (v : BitVec w.bits) : (h.storageWrite a w v).params = h.params := rfl
@[simp] theorem storageWrite_regs (a : Nat) (w : Width) (v : BitVec w.bits) : (h.storageWrite a w v).regs = h.regs := rfl
@[simp] theorem storageWrite_pc (a : Nat) (w : Width) (v : BitVec w.bits) : (h.storageWrite a w v).pc = h.pc := rfl
@[simp] theorem storageWrite_priv (a : Nat) (w : Width) (v : BitVec w.bits) : (h.storageWrite a w v).priv = h.priv := rfl
@[simp] theorem storageWrite_mstatus (a : Nat) (w : Width) (v : BitVec w.bits) : (h.storageWrite a w v).mstatus = h.mstatus := rfl
@[simp] theorem storageWrite_mie (a : Nat) (w : Width) (v : BitVec w.bits) : (h.storageWrite a w v).mie = h.mie := rfl
@[simp] theorem storageWrite_irq (a : Nat) (w : Width) (v : BitVec w.bits) : (h.storageWrite a w v).irq = h.irq := rfl
@[simp] theorem storageWrite_mtvec (a : Nat) (w : Width) (v : BitVec w.bits) : (h.storageWrite a w v).mtvec = h.mtvec := rfl
@[simp] theorem storageWrite_mepc (a : Nat) (w : Width) (v : BitVec w.bits) : (h.storageWrite a w v).mepc = h.mepc := rfl
@[simp] theorem storageWrite_mcause (a : Nat) (w : Width) (v : BitVec w.bits) : (h.storageWrite a w v).mcause = h.mcause := rfl
@[simp] theorem storageWrite_mtval (a : Nat) (w : Width) (v : BitVec w.bits) : (h.storageWrite a w v).mtval = h.mtval := rfl
@[simp] theorem storageWrite_cycleCtr (a : Nat) (w : Width) (v : BitVec w.bits) : (h.storageWrite a w v).cycleCtr = h.cycleCtr := rfl
@[simp] theorem storageWrite_instretCtr (a : Nat) (w : Width) (v : BitVec w.bits) : (h.storageWrite a w v).instretCtr = h.instretCtr := rfl
@[simp] theorem storageWrite_halted (a : Nat) (w : Width) (v : BitVec w.bits) : (h.storageWrite a w v).halted = h.halted := rfl
@[simp] theorem storageWrite_memory (a : Nat) (w : Width) (v : BitVec w.bits) : (h.storageWrite a w v).memory = h.memory.putBytes a (bytesOf v w.bytes) := rfl
@[simp] theorem storageWrite_deviceLog (a : Nat) (w : Width) (v : BitVec w.bits) : (h.storageWrite a w v).deviceLog = h.deviceLog := rfl
@[simp] theorem storageWrite_deviceDraws (a : Nat) (w : Width) (v : BitVec w.bits) : (h.storageWrite a w v).deviceDraws = h.deviceDraws := rfl
@[simp] theorem storageWrite_timeNow (a : Nat) (w : Width) (v : BitVec w.bits) : (h.storageWrite a w v).timeNow = h.timeNow := rfl
@[simp] theorem storageWrite_timeDraws (a : Nat) (w : Width) (v : BitVec w.bits) : (h.storageWrite a w v).timeDraws = h.timeDraws := rfl

/-! A device answer touches its counter only. -/

@[simp] theorem drawDevice_params : (h.drawDevice).params = h.params := rfl
@[simp] theorem drawDevice_regs : (h.drawDevice).regs = h.regs := rfl
@[simp] theorem drawDevice_pc : (h.drawDevice).pc = h.pc := rfl
@[simp] theorem drawDevice_priv : (h.drawDevice).priv = h.priv := rfl
@[simp] theorem drawDevice_mstatus : (h.drawDevice).mstatus = h.mstatus := rfl
@[simp] theorem drawDevice_mie : (h.drawDevice).mie = h.mie := rfl
@[simp] theorem drawDevice_irq : (h.drawDevice).irq = h.irq := rfl
@[simp] theorem drawDevice_mtvec : (h.drawDevice).mtvec = h.mtvec := rfl
@[simp] theorem drawDevice_mepc : (h.drawDevice).mepc = h.mepc := rfl
@[simp] theorem drawDevice_mcause : (h.drawDevice).mcause = h.mcause := rfl
@[simp] theorem drawDevice_mtval : (h.drawDevice).mtval = h.mtval := rfl
@[simp] theorem drawDevice_cycleCtr : (h.drawDevice).cycleCtr = h.cycleCtr := rfl
@[simp] theorem drawDevice_instretCtr : (h.drawDevice).instretCtr = h.instretCtr := rfl
@[simp] theorem drawDevice_halted : (h.drawDevice).halted = h.halted := rfl
@[simp] theorem drawDevice_memory : (h.drawDevice).memory = h.memory := rfl
@[simp] theorem drawDevice_deviceLog : (h.drawDevice).deviceLog = h.deviceLog := rfl
@[simp] theorem drawDevice_deviceDraws : (h.drawDevice).deviceDraws = h.deviceDraws + 1 := rfl
@[simp] theorem drawDevice_timeNow : (h.drawDevice).timeNow = h.timeNow := rfl
@[simp] theorem drawDevice_timeDraws : (h.drawDevice).timeDraws = h.timeDraws := rfl

/-! A device record touches the record only. -/

@[simp] theorem logDevice_params (e : DeviceEvent) : (h.logDevice e).params = h.params := rfl
@[simp] theorem logDevice_regs (e : DeviceEvent) : (h.logDevice e).regs = h.regs := rfl
@[simp] theorem logDevice_pc (e : DeviceEvent) : (h.logDevice e).pc = h.pc := rfl
@[simp] theorem logDevice_priv (e : DeviceEvent) : (h.logDevice e).priv = h.priv := rfl
@[simp] theorem logDevice_mstatus (e : DeviceEvent) : (h.logDevice e).mstatus = h.mstatus := rfl
@[simp] theorem logDevice_mie (e : DeviceEvent) : (h.logDevice e).mie = h.mie := rfl
@[simp] theorem logDevice_irq (e : DeviceEvent) : (h.logDevice e).irq = h.irq := rfl
@[simp] theorem logDevice_mtvec (e : DeviceEvent) : (h.logDevice e).mtvec = h.mtvec := rfl
@[simp] theorem logDevice_mepc (e : DeviceEvent) : (h.logDevice e).mepc = h.mepc := rfl
@[simp] theorem logDevice_mcause (e : DeviceEvent) : (h.logDevice e).mcause = h.mcause := rfl
@[simp] theorem logDevice_mtval (e : DeviceEvent) : (h.logDevice e).mtval = h.mtval := rfl
@[simp] theorem logDevice_cycleCtr (e : DeviceEvent) : (h.logDevice e).cycleCtr = h.cycleCtr := rfl
@[simp] theorem logDevice_instretCtr (e : DeviceEvent) : (h.logDevice e).instretCtr = h.instretCtr := rfl
@[simp] theorem logDevice_halted (e : DeviceEvent) : (h.logDevice e).halted = h.halted := rfl
@[simp] theorem logDevice_memory (e : DeviceEvent) : (h.logDevice e).memory = h.memory := rfl
@[simp] theorem logDevice_deviceLog (e : DeviceEvent) : (h.logDevice e).deviceLog = h.deviceLog ++ [e] := rfl
@[simp] theorem logDevice_deviceDraws (e : DeviceEvent) : (h.logDevice e).deviceDraws = h.deviceDraws := rfl
@[simp] theorem logDevice_timeNow (e : DeviceEvent) : (h.logDevice e).timeNow = h.timeNow := rfl
@[simp] theorem logDevice_timeDraws (e : DeviceEvent) : (h.logDevice e).timeDraws = h.timeDraws := rfl

/-! Trap entry touches six fields (60_exceptions.md R390). -/

@[simp] theorem trapEntry_params (I : Bool) (c : Nat) (v e : XWord x) : (h.trapEntry I c v e).params = h.params := rfl
@[simp] theorem trapEntry_regs (I : Bool) (c : Nat) (v e : XWord x) : (h.trapEntry I c v e).regs = h.regs := rfl
@[simp] theorem trapEntry_pc (I : Bool) (c : Nat) (v e : XWord x) : (h.trapEntry I c v e).pc = trapTarget h.mtvec I c := rfl
@[simp] theorem trapEntry_priv (I : Bool) (c : Nat) (v e : XWord x) : (h.trapEntry I c v e).priv = .machine := rfl
@[simp] theorem trapEntry_mstatus (I : Bool) (c : Nat) (v e : XWord x) : (h.trapEntry I c v e).mstatus = { mie := false, mpie := h.mstatus.mie, mpp := h.priv } := rfl
@[simp] theorem trapEntry_mie (I : Bool) (c : Nat) (v e : XWord x) : (h.trapEntry I c v e).mie = h.mie := rfl
@[simp] theorem trapEntry_irq (I : Bool) (c : Nat) (v e : XWord x) : (h.trapEntry I c v e).irq = h.irq := rfl
@[simp] theorem trapEntry_mtvec (I : Bool) (c : Nat) (v e : XWord x) : (h.trapEntry I c v e).mtvec = h.mtvec := rfl
@[simp] theorem trapEntry_mepc (I : Bool) (c : Nat) (v e : XWord x) : (h.trapEntry I c v e).mepc = clearBit0 e := rfl
@[simp] theorem trapEntry_mcause (I : Bool) (c : Nat) (v e : XWord x) : (h.trapEntry I c v e).mcause = causeWord x I c := rfl
@[simp] theorem trapEntry_mtval (I : Bool) (c : Nat) (v e : XWord x) : (h.trapEntry I c v e).mtval = v := rfl
@[simp] theorem trapEntry_cycleCtr (I : Bool) (c : Nat) (v e : XWord x) : (h.trapEntry I c v e).cycleCtr = h.cycleCtr := rfl
@[simp] theorem trapEntry_instretCtr (I : Bool) (c : Nat) (v e : XWord x) : (h.trapEntry I c v e).instretCtr = h.instretCtr := rfl
@[simp] theorem trapEntry_halted (I : Bool) (c : Nat) (v e : XWord x) : (h.trapEntry I c v e).halted = h.halted := rfl
@[simp] theorem trapEntry_memory (I : Bool) (c : Nat) (v e : XWord x) : (h.trapEntry I c v e).memory = h.memory := rfl
@[simp] theorem trapEntry_deviceLog (I : Bool) (c : Nat) (v e : XWord x) : (h.trapEntry I c v e).deviceLog = h.deviceLog := rfl
@[simp] theorem trapEntry_deviceDraws (I : Bool) (c : Nat) (v e : XWord x) : (h.trapEntry I c v e).deviceDraws = h.deviceDraws := rfl
@[simp] theorem trapEntry_timeNow (I : Bool) (c : Nat) (v e : XWord x) : (h.trapEntry I c v e).timeNow = h.timeNow := rfl
@[simp] theorem trapEntry_timeDraws (I : Bool) (c : Nat) (v e : XWord x) : (h.trapEntry I c v e).timeDraws = h.timeDraws := rfl

/-! The return touches three fields (60_exceptions.md R394). -/

@[simp] theorem trapReturn_params : (h.trapReturn).params = h.params := rfl
@[simp] theorem trapReturn_regs : (h.trapReturn).regs = h.regs := rfl
@[simp] theorem trapReturn_pc : (h.trapReturn).pc = h.mepc := rfl
@[simp] theorem trapReturn_priv : (h.trapReturn).priv = h.mstatus.mpp := rfl
@[simp] theorem trapReturn_mstatus : (h.trapReturn).mstatus = { mie := h.mstatus.mpie, mpie := true, mpp := .user } := rfl
@[simp] theorem trapReturn_mie : (h.trapReturn).mie = h.mie := rfl
@[simp] theorem trapReturn_irq : (h.trapReturn).irq = h.irq := rfl
@[simp] theorem trapReturn_mtvec : (h.trapReturn).mtvec = h.mtvec := rfl
@[simp] theorem trapReturn_mepc : (h.trapReturn).mepc = h.mepc := rfl
@[simp] theorem trapReturn_mcause : (h.trapReturn).mcause = h.mcause := rfl
@[simp] theorem trapReturn_mtval : (h.trapReturn).mtval = h.mtval := rfl
@[simp] theorem trapReturn_cycleCtr : (h.trapReturn).cycleCtr = h.cycleCtr := rfl
@[simp] theorem trapReturn_instretCtr : (h.trapReturn).instretCtr = h.instretCtr := rfl
@[simp] theorem trapReturn_halted : (h.trapReturn).halted = h.halted := rfl
@[simp] theorem trapReturn_memory : (h.trapReturn).memory = h.memory := rfl
@[simp] theorem trapReturn_deviceLog : (h.trapReturn).deviceLog = h.deviceLog := rfl
@[simp] theorem trapReturn_deviceDraws : (h.trapReturn).deviceDraws = h.deviceDraws := rfl
@[simp] theorem trapReturn_timeNow : (h.trapReturn).timeNow = h.timeNow := rfl
@[simp] theorem trapReturn_timeDraws : (h.trapReturn).timeDraws = h.timeDraws := rfl

/-! A sample touches the clock's record only. -/

@[simp] theorem sampleTime_params : (h.sampleTime).params = h.params := rfl
@[simp] theorem sampleTime_regs : (h.sampleTime).regs = h.regs := rfl
@[simp] theorem sampleTime_pc : (h.sampleTime).pc = h.pc := rfl
@[simp] theorem sampleTime_priv : (h.sampleTime).priv = h.priv := rfl
@[simp] theorem sampleTime_mstatus : (h.sampleTime).mstatus = h.mstatus := rfl
@[simp] theorem sampleTime_mie : (h.sampleTime).mie = h.mie := rfl
@[simp] theorem sampleTime_irq : (h.sampleTime).irq = h.irq := rfl
@[simp] theorem sampleTime_mtvec : (h.sampleTime).mtvec = h.mtvec := rfl
@[simp] theorem sampleTime_mepc : (h.sampleTime).mepc = h.mepc := rfl
@[simp] theorem sampleTime_mcause : (h.sampleTime).mcause = h.mcause := rfl
@[simp] theorem sampleTime_mtval : (h.sampleTime).mtval = h.mtval := rfl
@[simp] theorem sampleTime_cycleCtr : (h.sampleTime).cycleCtr = h.cycleCtr := rfl
@[simp] theorem sampleTime_instretCtr : (h.sampleTime).instretCtr = h.instretCtr := rfl
@[simp] theorem sampleTime_halted : (h.sampleTime).halted = h.halted := rfl
@[simp] theorem sampleTime_memory : (h.sampleTime).memory = h.memory := rfl
@[simp] theorem sampleTime_deviceLog : (h.sampleTime).deviceLog = h.deviceLog := rfl
@[simp] theorem sampleTime_deviceDraws : (h.sampleTime).deviceDraws = h.deviceDraws := rfl
@[simp] theorem sampleTime_timeNow : (h.sampleTime).timeNow = h.timeNext := rfl
@[simp] theorem sampleTime_timeDraws : (h.sampleTime).timeDraws = h.timeDraws + 1 := rfl

end Sys2Proof.Machine.Hart
end

