-- ==== Sys2Proof/Laws/Memory.lean ====
section
/-! SUPPORT. Memory as data: what a write leaves at each address, and that the canonical form is kept. -/

namespace Sys2Proof.Machine

/-! ### The laws of `put` -/

theorem Memory.wf_tail {c : Host.Cell} {m : Memory} (h : Memory.wf (c :: m)) : Memory.wf m :=
  (List.pairwise_cons.mp h).2

/-- Below the first listed address of a canonical memory nothing was written. -/
theorem Memory.written_below {m : Memory} {k : Nat} (h : ∀ c ∈ m, k < c.1) : m.written k = none := by
  induction m with
  | nil => rfl
  | cons c m ih =>
    have hc := h c (by simp)
    simp only [Memory.written]
    rw [if_neg (by omega)]
    exact ih fun d hd => h d (by simp [hd])

/-- Every address of a memory after a write is the written one or was there before. -/
theorem Memory.mem_put {m : Memory} {a : Nat} {b : Byte} {c : Host.Cell} (h : c ∈ m.put a b) :
    c = (a, b) ∨ c ∈ m := by
  induction m with
  | nil => simpa [Memory.put] using h
  | cons d m ih =>
    simp only [Memory.put] at h
    split at h
    · simpa using h
    · split at h
      · rcases List.mem_cons.mp h with h | h
        · exact .inl h
        · exact .inr (by simp [h])
      · rcases List.mem_cons.mp h with h | h
        · exact .inr (by simp [h])
        · rcases ih h with h | h
          · exact .inl h
          · exact .inr (by simp [h])

/-- Writing one byte keeps the canonical form. -/
theorem Memory.wf_put {m : Memory} (h : m.wf) (a : Nat) (b : Byte) : (m.put a b).wf := by
  induction m with
  | nil => simp [Memory.put, Memory.wf]
  | cons c m ih =>
    obtain ⟨hc, hm⟩ := List.pairwise_cons.mp h
    simp only [Memory.put]
    split
    · rename_i hlt
      refine List.pairwise_cons.mpr ⟨fun d hd => ?_, h⟩
      rcases List.mem_cons.mp hd with hd | hd
      · simpa [hd] using hlt
      · exact Nat.lt_trans hlt (hc d hd)
    · split
      · rename_i _ heq
        exact List.pairwise_cons.mpr ⟨fun d hd => by simpa [heq] using hc d hd, hm⟩
      · rename_i hge hne
        refine List.pairwise_cons.mpr ⟨fun d hd => ?_, ih hm⟩
        rcases Memory.mem_put hd with hd | hd
        · subst hd; simp only; omega
        · exact hc d hd

/-- A write gives its address its byte and leaves every other address alone. -/
theorem Memory.written_put (m : Memory) (a : Nat) (b : Byte) (k : Nat) :
    (m.put a b).written k = if k = a then some b else m.written k := by
  induction m with
  | nil => simp [Memory.put, Memory.written, eq_comm]
  | cons c m ih =>
    simp only [Memory.put]
    split
    · simp [Memory.written, eq_comm]
    · split
      · rename_i _ heq
        simp only [Memory.written, heq]
        by_cases hk : k = c.1 <;> simp [hk, eq_comm]
      · rename_i hge hne
        simp only [Memory.written, ih]
        by_cases hk : c.1 = k
        · have : k ≠ a := by omega
          simp [hk, this]
        · simp [hk]

/-- A byte is listed exactly where it was written. -/
theorem Memory.mem_of_written {m : Memory} {a : Nat} {b : Byte} (h : m.written a = some b) : (a, b) ∈ m := by
  induction m with
  | nil => simp [Memory.written] at h
  | cons c m ih =>
    simp only [Memory.written] at h
    split at h
    · rename_i hk
      simp only [Option.some.injEq] at h
      simp [← hk, ← h]
    · simp [ih h]

/-- Two canonical memories that hold the same bytes are the same list. -/
theorem Memory.eq_of_written {m n : Memory} (hm : m.wf) (hn : n.wf) (h : ∀ a, m.written a = n.written a) : m = n := by
  induction m generalizing n with
  | nil =>
    cases n with
    | nil => rfl
    | cons d n => simpa [Memory.written] using h d.1
  | cons c m ih =>
    cases n with
    | nil => simpa [Memory.written] using h c.1
    | cons d n =>
      obtain ⟨hc, hm'⟩ := List.pairwise_cons.mp hm
      obtain ⟨hd, hn'⟩ := List.pairwise_cons.mp hn
      have hk : c.1 = d.1 := by
        rcases Nat.lt_trichotomy c.1 d.1 with hlt | heq | hgt
        · have h1 := h c.1
          rw [show Memory.written (d :: n) c.1 = none from
            Memory.written_below fun e he => by
              rcases List.mem_cons.mp he with he | he
              · simpa [he] using hlt
              · exact Nat.lt_trans hlt (hd e he)] at h1
          simp [Memory.written] at h1
        · exact heq
        · have h1 := h d.1
          rw [show Memory.written (c :: m) d.1 = none from
            Memory.written_below fun e he => by
              rcases List.mem_cons.mp he with he | he
              · simpa [he] using hgt
              · exact Nat.lt_trans hgt (hc e he)] at h1
          simp [Memory.written] at h1
      have hv : c.2 = d.2 := by
        have h1 := h c.1
        simpa [Memory.written, hk] using h1
      have : m = n := by
        refine ih hm' hn' fun a => ?_
        by_cases ha : c.1 = a
        · rw [Memory.written_below fun e he => by simpa [← ha] using hc e he,
            Memory.written_below fun e he => by simpa [← ha, hk] using hd e he]
        · have h1 := h a
          simpa [Memory.written, ha, show d.1 ≠ a by omega] using h1
      rw [this, show c = d from Prod.ext hk hv]

/-! ### The laws of `putBytes` -/

/-- Writing bytes keeps the canonical form. -/
theorem Memory.wf_putBytes {m : Memory} (h : m.wf) (a : Nat) (bs : List Byte) : (m.putBytes a bs).wf := by
  induction bs generalizing m a with
  | nil => exact h
  | cons b bs ih => exact ih (Memory.wf_put h a b) (a + 1)

/-- Every address of a memory after a write is in the written range or was there before. -/
theorem Memory.mem_putBytes {m : Memory} {a : Nat} {bs : List Byte} {c : Host.Cell} (h : c ∈ m.putBytes a bs) :
    (a ≤ c.1 ∧ c.1 < a + bs.length) ∨ c ∈ m := by
  induction bs generalizing m a with
  | nil => exact .inr h
  | cons b bs ih =>
    rcases ih h with h | h
    · exact .inl ⟨by omega, by simp only [List.length_cons]; omega⟩
    · rcases Memory.mem_put h with h | h
      · subst h; exact .inl ⟨by simp, by simp⟩
      · exact .inr h

/-- A write of bytes gives each address of its range its byte and leaves every other address alone. -/
theorem Memory.written_putBytes (m : Memory) (a : Nat) (bs : List Byte) (k : Nat) :
    (m.putBytes a bs).written k =
      if a ≤ k ∧ k < a + bs.length then bs[k - a]? else m.written k := by
  induction bs generalizing m a with
  | nil => simp [Memory.putBytes]
  | cons b bs ih =>
    simp only [Memory.putBytes, ih, Memory.written_put, List.length_cons]
    by_cases h1 : k = a
    · subst h1; simp
    · by_cases h2 : a + 1 ≤ k ∧ k < a + 1 + bs.length
      · have h3 : a ≤ k ∧ k < a + (bs.length + 1) := by omega
        rw [if_pos h2, if_pos h3, show k - a = (k - (a + 1)) + 1 by omega]
        simp
      · have h3 : ¬ (a ≤ k ∧ k < a + (bs.length + 1)) := by omega
        rw [if_neg h2, if_neg h3, if_neg h1]

/-- The memory right after reset is canonical. -/
theorem reset_memory_wf : State.reset.hart.memory.wf := by decide

/-! ### Bytes of values -/

theorem bytesOf_length {n : Nat} (v : BitVec n) (k : Nat) : (bytesOf v k).length = k := by simp [bytesOf]

theorem bytesOf_getElem? {n : Nat} (v : BitVec n) (k i : Nat) (h : i < k) : (bytesOf v k)[i]? = some (byteOf v i) := by
  simp [bytesOf, h]

/-- Byte `i` as a number. -/
theorem byteOf_toNat {n : Nat} (v : BitVec n) (i : Nat) : (byteOf v i).toNat = v.toNat / 256 ^ i % 256 := by
  simp only [byteOf, BitVec.extractLsb'_toNat, Nat.shiftRight_eq_div_pow, Nat.pow_mul]

/-- The only byte of a byte. -/
theorem byteOf_byte (b : BitVec Width.byte.bits) : byteOf b 0 = b :=
  BitVec.eq_of_toNat_eq (by rw [byteOf_toNat]; simpa using Nat.mod_eq_of_lt b.isLt)

/-- A list of bytes as a number is less than the power of its length. -/
theorem littleEndian_lt (bs : List Byte) : littleEndian bs < 256 ^ bs.length := by
  induction bs with
  | nil => simp [littleEndian]
  | cons b bs ih =>
    have hb := b.isLt
    simp only [littleEndian, List.length_cons, Nat.pow_succ]
    omega

/-- A list of bytes as the sum of its bytes at their powers. -/
theorem littleEndian_eq_sum (f : Nat → Byte) (n : Nat) :
    littleEndian ((List.range n).map f) = ∑ i ∈ Finset.range n, (f i).toNat * 256 ^ i := by
  induction n generalizing f with
  | zero => simp [littleEndian]
  | succ n ih =>
    rw [List.range_succ_eq_map, List.map_cons, List.map_map, littleEndian, ih (f ∘ Nat.succ), Finset.sum_range_succ',
      Finset.mul_sum]
    simp only [Function.comp, Nat.succ_eq_add_one, Nat.pow_zero, Nat.mul_one]
    rw [Nat.add_comm]
    congr 1
    refine Finset.sum_congr rfl fun i _ => ?_
    rw [Nat.pow_succ]
    ring

/-- The bytes of a value give the value back. -/
theorem littleEndian_bytesOf {n : Nat} (v : BitVec n) (k : Nat) : littleEndian (bytesOf v k) = v.toNat % 256 ^ k := by
  rw [bytesOf, littleEndian_eq_sum]
  induction k with
  | zero => simp [Nat.mod_one]
  | succ k ih =>
    rw [Finset.sum_range_succ, ih, byteOf_toNat, Nat.pow_succ, Nat.mod_mul]
    ring

end Sys2Proof.Machine
end

