-- ==== Sys2Proof/Laws/Bus.lean ====
section
/-! SUPPORT. Registers, storage bytes and the bus: one lemma for everything each operation can do. -/

namespace Sys2Proof.Machine

namespace Hart

variable {x : Xlen}

/-! ### Registers -/

@[simp] theorem reg_zero (h : Hart x) : h.reg 0 = 0 := by simp [reg]

/-- Registers depend on the register file only. -/
theorem reg_congr {h h1 : Hart x} (e : h1.regs = h.regs) (r : Reg) : h1.reg r = h.reg r := by simp [reg, e]

/-- A register read after a register write (10_state.md R22). -/
theorem reg_setReg (h : Hart x) (r s : Reg) (v : XWord x) :
    (h.setReg r v).reg s = if s = r ∧ r ≠ 0 then v else h.reg s := by
  by_cases hr : r = 0
  · rw [if_neg fun e => e.2 hr]
    exact reg_congr (by rw [setReg_regs, if_pos hr]) s
  · by_cases hs : s = 0
    · subst hs
      rw [if_neg fun e => hr e.1.symm, reg_zero, reg_zero]
    · have e : (h.setReg r v).regs = h.regs.set r.toNat v r.isLt := by rw [setReg_regs, if_neg hr]
      simp only [reg, if_neg hs, e]
      by_cases hsr : s = r
      · subst hsr; rw [if_pos ⟨rfl, hr⟩]; exact Vector.getElem_set_self _
      · simp only [hsr, false_and, if_false]
        exact Vector.getElem_set_ne _ _ fun e => hsr (BitVec.eq_of_toNat_eq e.symm)

/-- Bytes depend on the memory only. -/
theorem byteAt_congr {h h1 : Hart x} (e : h1.memory = h.memory) (a : Nat) : h1.byteAt a = h.byteAt a := by
  simp [byteAt, e]

/-! ### Storage bytes -/

/-- Every byte after a storage write: the written bytes, and all others as before (20_memory.md R87, R89). -/
theorem byteAt_storageWrite (h : Hart x) (a : Nat) (w : Width) (v : BitVec w.bits) (k : Nat) :
    (h.storageWrite a w v).byteAt k = if a ≤ k ∧ k < a + w.bytes then byteOf v (k - a) else h.byteAt k := by
  simp only [byteAt, storageWrite_memory, Memory.written_putBytes, bytesOf_length]
  split
  · rw [bytesOf_getElem? _ _ _ (by omega)]; rfl
  · rfl

theorem storageRead_toNat (h : Hart x) (a : Nat) (w : Width) :
    (h.storageRead a w).toNat = ∑ i ∈ Finset.range w.bytes, (h.byteAt (a + i)).toNat * 256 ^ i := by
  have hb : littleEndian (h.bytesAt a w.bytes) < 2 ^ w.bits := by
    have := littleEndian_lt (h.bytesAt a w.bytes)
    simpa [bytesAt, Width.bits, Nat.pow_mul] using this
  rw [storageRead, BitVec.toNat_ofNat, Nat.mod_eq_of_lt hb, bytesAt, littleEndian_eq_sum fun i => h.byteAt (a + i)]

/-! ### Harts that agree but for the memory and the devices -/

namespace SameButMemory

theorem refl (h : Hart x) : h.SameButMemory h := rfl

theorem trans {h h1 h2 : Hart x} (a : h.SameButMemory h1) (b : h1.SameButMemory h2) : h.SameButMemory h2 := by
  unfold SameButMemory at *; rw [b, a]

variable {h h1 : Hart x} (e : h.SameButMemory h1)

include e

theorem params : h1.params = h.params := by rw [e]
theorem regs : h1.regs = h.regs := by rw [e]
theorem pc : h1.pc = h.pc := by rw [e]
theorem priv : h1.priv = h.priv := by rw [e]
theorem mstatus : h1.mstatus = h.mstatus := by rw [e]
theorem mie : h1.mie = h.mie := by rw [e]
theorem irq : h1.irq = h.irq := by rw [e]
theorem mtvec : h1.mtvec = h.mtvec := by rw [e]
theorem mepc : h1.mepc = h.mepc := by rw [e]
theorem mcause : h1.mcause = h.mcause := by rw [e]
theorem mtval : h1.mtval = h.mtval := by rw [e]
theorem cycleCtr : h1.cycleCtr = h.cycleCtr := by rw [e]
theorem instretCtr : h1.instretCtr = h.instretCtr := by rw [e]
theorem halted : h1.halted = h.halted := by rw [e]
theorem timeNow : h1.timeNow = h.timeNow := by rw [e]
theorem timeDraws : h1.timeDraws = h.timeDraws := by rw [e]

/-- All control state agrees. -/
theorem sameControl : h.SameControl h1 :=
  ⟨params e, priv e, mstatus e, mie e, irq e, mtvec e, mepc e, mcause e, mtval e, cycleCtr e, halted e, timeNow e,
    timeDraws e⟩

/-- Every register agrees. -/
theorem reg (r : Reg) : h1.reg r = h.reg r := reg_congr (regs e) r

end SameButMemory

namespace SameButDevices

theorem refl (h : Hart x) : h.SameButDevices h := rfl

theorem trans {h h1 h2 : Hart x} (a : h.SameButDevices h1) (b : h1.SameButDevices h2) : h.SameButDevices h2 := by
  unfold SameButDevices at *; rw [b, a]

variable {h h1 : Hart x} (e : h.SameButDevices h1)

include e

theorem sameButMemory : h.SameButMemory h1 := by unfold SameButMemory SameButDevices at *; rw [e]

theorem memory : h1.memory = h.memory := by rw [e]

/-- Every byte agrees. -/
theorem byteAt (a : Nat) : h1.byteAt a = h.byteAt a := byteAt_congr (memory e) a

theorem params : h1.params = h.params := (sameButMemory e).params
theorem regs : h1.regs = h.regs := (sameButMemory e).regs
theorem pc : h1.pc = h.pc := (sameButMemory e).pc
theorem priv : h1.priv = h.priv := (sameButMemory e).priv
theorem mstatus : h1.mstatus = h.mstatus := (sameButMemory e).mstatus
theorem mie : h1.mie = h.mie := (sameButMemory e).mie
theorem irq : h1.irq = h.irq := (sameButMemory e).irq
theorem mtvec : h1.mtvec = h.mtvec := (sameButMemory e).mtvec
theorem mepc : h1.mepc = h.mepc := (sameButMemory e).mepc
theorem mcause : h1.mcause = h.mcause := (sameButMemory e).mcause
theorem mtval : h1.mtval = h.mtval := (sameButMemory e).mtval
theorem cycleCtr : h1.cycleCtr = h.cycleCtr := (sameButMemory e).cycleCtr
theorem instretCtr : h1.instretCtr = h.instretCtr := (sameButMemory e).instretCtr
theorem halted : h1.halted = h.halted := (sameButMemory e).halted
theorem timeNow : h1.timeNow = h.timeNow := (sameButMemory e).timeNow
theorem timeDraws : h1.timeDraws = h.timeDraws := (sameButMemory e).timeDraws

/-- Every register agrees. -/
theorem reg (r : Reg) : h1.reg r = h.reg r := (sameButMemory e).reg r

end SameButDevices

/-! ### The bus -/

/-- A bus read that reaches storage gives its bytes and changes nothing (20_memory.md R88, R99). -/
theorem busRead_storage {h : Hart x} {k : Access} {a : Nat} {w : Width} (hr : h.ReachesStorage k a w.bytes) :
    h.busRead k a w = (some (h.storageRead a w), h) := by
  obtain ⟨r, h1, h2⟩ := hr
  simp [busRead, h1, h2]

/-- A bus read no region takes faults and changes nothing. -/
theorem busRead_unmapped {h : Hart x} {k : Access} {a : Nat} {w : Width} (hr : h.Unmapped k a w.bytes) :
    h.busRead k a w = (none, h) := by
  simp only [Unmapped] at hr; simp [busRead, hr]

/-- A bus read changes nothing but the devices. -/
theorem busRead_same (h : Hart x) (k : Access) (a : Nat) (w : Width) : h.SameButDevices (h.busRead k a w).2 := by
  unfold busRead
  split
  · rfl
  · split <;> rfl

theorem busWriteOk_storage {h : Hart x} {a : Nat} {w : Width} {v : BitVec w.bits}
    (hr : h.ReachesStorage .write a w.bytes) : h.busWriteOk a w v = (true, h) := by
  obtain ⟨r, h1, h2⟩ := hr
  simp [busWriteOk, h1, h2]

theorem busWriteOk_unmapped {h : Hart x} {a : Nat} {w : Width} {v : BitVec w.bits}
    (hr : h.Unmapped .write a w.bytes) : h.busWriteOk a w v = (false, h) := by
  simp only [Unmapped] at hr; simp [busWriteOk, hr]

/-- Asking whether a write would succeed changes nothing but the devices. -/
theorem busWriteOk_same (h : Hart x) (a : Nat) (w : Width) (v : BitVec w.bits) :
    h.SameButDevices (h.busWriteOk a w v).2 := by
  unfold busWriteOk
  split
  · rfl
  · split <;> rfl

theorem busWriteDo_storage {h : Hart x} {a : Nat} {w : Width} {v : BitVec w.bits}
    (hr : h.ReachesStorage .write a w.bytes) : h.busWriteDo a w v true = h.storageWrite a w v := by
  obtain ⟨r, h1, h2⟩ := hr
  simp [busWriteDo, h1, h2]

/-- A refused write changes nothing but the devices (20_memory.md R89). -/
theorem busWriteDo_refused (h : Hart x) (a : Nat) (w : Width) (v : BitVec w.bits) :
    h.SameButDevices (h.busWriteDo a w v false) := by
  unfold busWriteDo
  split
  · rfl
  · split <;> rfl

/-- What a performed write can do: record a device event, or write the bytes. -/
theorem busWriteDo_cases (h : Hart x) (a : Nat) (w : Width) (v : BitVec w.bits) (ok : Bool) :
    h.SameButDevices (h.busWriteDo a w v ok) ∨ h.busWriteDo a w v ok = h.storageWrite a w v := by
  unfold busWriteDo
  split
  · exact .inl rfl
  · split
    · exact .inl rfl
    · split
      · exact .inr rfl
      · exact .inl rfl

/-- A performed write changes nothing but the memory and the devices. -/
theorem busWriteDo_frame (h : Hart x) (a : Nat) (w : Width) (v : BitVec w.bits) (ok : Bool) :
    h.SameButMemory (h.busWriteDo a w v ok) := by
  rcases busWriteDo_cases h a w v ok with e | e
  · exact e.sameButMemory
  · rw [e]; rfl

end Hart

/-! ### Addresses of an access -/

theorem byteAddr_eq {x : Xlen} (ea : XWord x) (i : Nat) : (ea + BitVec.ofNat x.bits i).toNat = byteAddr ea i := by
  simp [byteAddr]

theorem byteAddr_lt {x : Xlen} (ea : XWord x) (i : Nat) : byteAddr ea i < 2 ^ x.bits :=
  Nat.mod_lt _ (Nat.two_pow_pos _)

/-- An aligned access does not cross the end of the address space (20_memory.md R108). -/
theorem aligned_end {x : Xlen} (ea : XWord x) (w : Width) (h : ea.toNat % w.bytes = 0) :
    ea.toNat + w.bytes ≤ 2 ^ x.bits := by
  have := ea.isLt
  cases x <;> cases w <;> simp only [Xlen.bits, Width.bytes] at * <;> omega

theorem byteAddr_aligned {x : Xlen} {ea : XWord x} {w : Width} (h : ea.toNat % w.bytes = 0) {i : Nat}
    (hi : i < w.bytes) : byteAddr ea i = ea.toNat + i :=
  Nat.mod_eq_of_lt (Nat.lt_of_lt_of_le (by omega) (aligned_end ea w h))

/-- The bytes of an access are different addresses. -/
theorem byteAddr_inj {x : Xlen} (ea : XWord x) {w : Width} {i j : Nat} (hi : i < w.bytes) (hj : j < w.bytes)
    (h : byteAddr ea i = byteAddr ea j) : i = j := by
  have := ea.isLt
  unfold byteAddr at h
  cases x <;> cases w <;> simp only [Xlen.bits, Width.bytes] at * <;> omega

namespace Hart

variable {x : Xlen}

theorem accessValue_lt (h : Hart x) (ea : XWord x) (w : Width) : h.accessValue ea w < 2 ^ w.bits := by
  have := littleEndian_lt ((List.range w.bytes).map fun i => h.byteAt (byteAddr ea i))
  rw [littleEndian_eq_sum fun i => h.byteAt (byteAddr ea i)] at this
  simpa [accessValue, Width.bits, Nat.pow_mul] using this

/-! ### Split accesses -/

theorem splitRead_same (ea : XWord x) (n i : Nat) (h : Hart x) : h.SameButDevices (splitRead ea n i h).2 := by
  induction n generalizing i h with
  | zero => rfl
  | succ n ih =>
    unfold splitRead
    have hb := busRead_same h .read (ea + BitVec.ofNat x.bits i).toNat .byte
    split
    · rename_i h1 e; rw [e] at hb; exact hb
    · rename_i b h1 e
      rw [e] at hb
      have := ih (i + 1) h1
      split <;> (rename_i e2; rw [e2] at this; exact hb.trans this)

theorem splitRead_storage {h : Hart x} {ea : XWord x} {n i : Nat}
    (hs : ∀ j < n, h.ReachesStorage .read (byteAddr ea (i + j)) 1) :
    splitRead ea n i h = (.ok ((List.range n).map fun j => h.byteAt (byteAddr ea (i + j))), h) := by
  induction n generalizing i with
  | zero => rfl
  | succ n ih =>
    have h0 := hs 0 (by omega)
    rw [Nat.add_zero] at h0
    unfold splitRead
    rw [byteAddr_eq, busRead_storage (w := .byte) h0]
    simp only
    rw [ih (i := i + 1) (fun j hj => by
      have := hs (j + 1) (by omega); rwa [show i + (j + 1) = i + 1 + j by omega] at this)]
    simp only [List.range_succ_eq_map, List.map_cons, List.map_map, Nat.add_zero]
    congr 2
    · congr 1
      · apply BitVec.eq_of_toNat_eq
        rw [storageRead_toNat]; simp
      · refine List.map_congr_left fun j _ => ?_
        simp only [Function.comp, Nat.succ_eq_add_one]
        rw [show i + 1 + j = i + (j + 1) by omega]

theorem splitRead_fault {h : Hart x} {ea : XWord x} {n i k : Nat} (hk : k < n)
    (hs : ∀ j < k, h.ReachesStorage .read (byteAddr ea (i + j)) 1) (hu : h.Unmapped .read (byteAddr ea (i + k)) 1) :
    splitRead ea n i h = (.error (ea + BitVec.ofNat x.bits (i + k)), h) := by
  induction n generalizing i k with
  | zero => omega
  | succ n ih =>
    unfold splitRead
    rw [byteAddr_eq]
    cases k with
    | zero => rw [Nat.add_zero] at hu; rw [busRead_unmapped (w := .byte) hu]; rfl
    | succ k =>
      have h0 := hs 0 (by omega)
      rw [Nat.add_zero] at h0
      rw [busRead_storage (w := .byte) h0]
      simp only
      rw [ih (i := i + 1) (k := k) (by omega)
          (fun j hj => by have := hs (j + 1) (by omega); rwa [show i + (j + 1) = i + 1 + j by omega] at this)
          (by rwa [show i + 1 + k = i + (k + 1) by omega])]
      simp only [show i + 1 + k = i + (k + 1) by omega]

theorem splitCheck_same (ea : XWord x) {m : Nat} (v : BitVec m) (n i : Nat) (h : Hart x) :
    h.SameButDevices (splitCheck ea v n i h).2 := by
  induction n generalizing i h with
  | zero => rfl
  | succ n ih =>
    unfold splitCheck
    have hb := busWriteOk_same h (ea + BitVec.ofNat x.bits i).toNat .byte (byteOf v i)
    split
    · rename_i h1 e; rw [e] at hb; exact hb
    · rename_i h1 e
      rw [e] at hb
      exact hb.trans (ih (i + 1) h1)

theorem splitCheck_storage {h : Hart x} {ea : XWord x} {m : Nat} {v : BitVec m} {n i : Nat}
    (hs : ∀ j < n, h.ReachesStorage .write (byteAddr ea (i + j)) 1) : splitCheck ea v n i h = (none, h) := by
  induction n generalizing i with
  | zero => rfl
  | succ n ih =>
    have h0 := hs 0 (by omega)
    rw [Nat.add_zero] at h0
    unfold splitCheck
    rw [byteAddr_eq, busWriteOk_storage (w := .byte) h0]
    exact ih (i := i + 1) (fun j hj => by
      have := hs (j + 1) (by omega); rwa [show i + (j + 1) = i + 1 + j by omega] at this)

theorem splitCheck_fault {h : Hart x} {ea : XWord x} {m : Nat} {v : BitVec m} {n i k : Nat} (hk : k < n)
    (hs : ∀ j < k, h.ReachesStorage .write (byteAddr ea (i + j)) 1)
    (hu : h.Unmapped .write (byteAddr ea (i + k)) 1) :
    splitCheck ea v n i h = (some (ea + BitVec.ofNat x.bits (i + k)), h) := by
  induction n generalizing i k with
  | zero => omega
  | succ n ih =>
    unfold splitCheck
    rw [byteAddr_eq]
    cases k with
    | zero => rw [Nat.add_zero] at hu; rw [busWriteOk_unmapped (w := .byte) hu]; rfl
    | succ k =>
      have h0 := hs 0 (by omega)
      rw [Nat.add_zero] at h0
      rw [busWriteOk_storage (w := .byte) h0]
      simp only
      rw [ih (i := i + 1) (k := k) (by omega)
          (fun j hj => by have := hs (j + 1) (by omega); rwa [show i + (j + 1) = i + 1 + j by omega] at this)
          (by rwa [show i + 1 + k = i + (k + 1) by omega])]
      simp only [show i + 1 + k = i + (k + 1) by omega]

/-- A split store's second pass changes nothing but the memory and the devices. -/
theorem splitWrite_frame (ea : XWord x) {m : Nat} (v : BitVec m) (n i : Nat) (h : Hart x) :
    h.SameButMemory (splitWrite ea v n i h) := by
  induction n generalizing i h with
  | zero => rfl
  | succ n ih => exact (busWriteDo_frame h _ .byte _ true).trans (ih (i + 1) _)

/-- A split store to storage: each of its bytes, and every other byte as before. -/
theorem splitWrite_storage {h : Hart x} {ea : XWord x} {m : Nat} {v : BitVec m} {n i : Nat}
    (hs : ∀ j < n, h.ReachesStorage .write (byteAddr ea (i + j)) 1) :
    splitWrite ea v n i h = { h with memory := (splitWrite ea v n i h).memory } ∧
      (∀ a, (∀ j < n, a ≠ byteAddr ea (i + j)) → (splitWrite ea v n i h).byteAt a = h.byteAt a) ∧
      ((∀ j < n, ∀ k < n, byteAddr ea (i + j) = byteAddr ea (i + k) → j = k) →
        ∀ j < n, (splitWrite ea v n i h).byteAt (byteAddr ea (i + j)) = byteOf v (i + j)) := by
  induction n generalizing i h with
  | zero => simp [splitWrite]
  | succ n ih =>
    have h0 := hs 0 (by omega)
    rw [Nat.add_zero] at h0
    unfold splitWrite
    rw [byteAddr_eq, busWriteDo_storage (w := .byte) h0]
    obtain ⟨p1, p2, p3⟩ := ih (h := h.storageWrite (byteAddr ea i) .byte (byteOf v i)) (i := i + 1)
      (fun j hj => by
        have := hs (j + 1) (by omega)
        rw [show i + (j + 1) = i + 1 + j by omega] at this
        exact this)
    have hw : ∀ a, (h.storageWrite (byteAddr ea i) .byte (byteOf v i)).byteAt a =
        if a = byteAddr ea i then byteOf v i else h.byteAt a := by
      intro a
      rw [byteAt_storageWrite]
      by_cases ha : a = byteAddr ea i
      · rw [if_pos ha, if_pos (by simp only [Width.bytes]; omega), ha, Nat.sub_self]
        exact byteOf_byte _
      · rw [if_neg ha, if_neg (by simp only [Width.bytes]; omega)]
    refine ⟨?_, ?_, ?_⟩
    · rw [p1]; rfl
    · intro a ha
      rw [p2 a fun j hj => by have := ha (j + 1) (by omega); rwa [show i + (j + 1) = i + 1 + j by omega] at this, hw,
        if_neg (by simpa using ha 0 (by omega))]
    · intro hinj j hj
      cases j with
      | zero =>
        rw [p2 _ fun k hk e => ?_, hw, if_pos (by rw [Nat.add_zero]), Nat.add_zero]
        have := hinj 0 (by omega) (k + 1) (by omega)
          (by rw [e, show i + 1 + k = i + (k + 1) by omega])
        omega
      | succ j =>
        rw [show i + (j + 1) = i + 1 + j by omega]
        refine p3 (fun a ha b hb e => ?_) j (by omega)
        have := hinj (a + 1) (by omega) (b + 1) (by omega)
          (by rw [show i + (a + 1) = i + 1 + a by omega, show i + (b + 1) = i + 1 + b by omega, e])
        omega

/-! ### MemRead, MemWrite, Fetch -/

/-- `MemRead` changes nothing but the devices (20_memory.md R92, R99). -/
theorem memRead_same (ea : XWord x) (w : Width) (h : Hart x) : h.SameButDevices (h.memRead ea w).2 := by
  unfold memRead
  have hb := busRead_same h .read ea.toNat w
  have hr := splitRead_same ea w.bytes 0 h
  split
  · split <;> (rename_i e; rw [e] at hb; exact hb)
  · split
    · rfl
    · split <;> (rename_i e; rw [e] at hr; exact hr)

/-- `MemRead` of storage gives the bytes of the access and changes nothing (20_memory.md R88, R92, R94). -/
theorem memRead_storage {h : Hart x} {ea : XWord x} {w : Width} (hs : h.StorageAccess .read ea w) :
    h.memRead ea w = (.ok (BitVec.ofNat w.bits (h.accessValue ea w)), h) := by
  unfold memRead
  rcases hs with ⟨ha, hr⟩ | ⟨ha, hp, hr⟩
  · rw [if_pos ha, busRead_storage hr]
    simp only
    congr 2
    apply BitVec.eq_of_toNat_eq
    rw [storageRead_toNat, BitVec.toNat_ofNat, Nat.mod_eq_of_lt (accessValue_lt h ea w), accessValue]
    refine Finset.sum_congr rfl fun i hi => ?_
    rw [byteAddr_aligned ha (Finset.mem_range.mp hi)]
  · rw [if_neg ha, hp]
    simp only
    rw [splitRead_storage (fun j hj => by simpa using hr j hj)]
    simp only [Nat.zero_add]
    rw [littleEndian_eq_sum fun i => h.byteAt (byteAddr ea i)]
    rfl

/-- `MemRead` that faults reports the address 20_memory.md R96 says, and changes nothing. -/
theorem memRead_fault {h : Hart x} {ea a : XWord x} {w : Width} (hf : h.AccessFaults .read ea w a) :
    h.memRead ea w = (.error a, h) := by
  unfold memRead
  rcases hf with ⟨ha, hu, rfl⟩ | ⟨ha, hp, rfl⟩ | ⟨ha, hp, i, hi, rfl', hu, hs⟩
  · rw [if_pos ha, busRead_unmapped hu]
  · rw [if_neg ha, hp]
  · rw [if_neg ha, hp]
    simp only
    rw [splitRead_fault hi (fun j hj => by simpa using hs j hj) (by simpa using hu)]
    simp only [Nat.zero_add]
    congr 2
    exact BitVec.eq_of_toNat_eq (by rw [byteAddr_eq, rfl'])

/-- `MemWrite` that faults changes nothing but the devices (20_memory.md R89, R93, R94). -/
theorem memWrite_refused {h h1 : Hart x} {ea a : XWord x} {w : Width} {v : BitVec w.bits}
    (e : h.memWrite ea w v = (some a, h1)) : h.SameButDevices h1 := by
  unfold memWrite at e
  have hb := busWriteOk_same h ea.toNat w v
  have hc := splitCheck_same ea v w.bytes 0 h
  split at e
  · split at e
    · simp at e
    · rename_i h2 e2
      rw [e2] at hb
      simp only [Prod.mk.injEq, Option.some.injEq] at e
      rw [← e.2]
      exact hb.trans (busWriteDo_refused h2 ea.toNat w v)
  · split at e
    · simp only [Prod.mk.injEq, Option.some.injEq] at e
      rw [← e.2]; rfl
    · split at e
      · rename_i e2
        rw [e2] at hc
        simp only [Prod.mk.injEq, Option.some.injEq] at e
        rw [← e.2]; exact hc
      · simp at e

/-- `MemWrite` changes nothing but the memory and the devices. -/
theorem memWrite_frame (ea : XWord x) (w : Width) (v : BitVec w.bits) (h : Hart x) :
    h.SameButMemory (h.memWrite ea w v).2 := by
  unfold memWrite
  have hb := (busWriteOk_same h ea.toNat w v).sameButMemory
  have hc := (splitCheck_same ea v w.bytes 0 h).sameButMemory
  split
  · split <;> (rename_i e; rw [e] at hb; exact hb.trans (busWriteDo_frame _ _ _ _ _))
  · split
    · rfl
    · split <;> (rename_i e; rw [e] at hc)
      · exact hc
      · exact hc.trans (splitWrite_frame ea v w.bytes 0 _)

/-- `MemWrite` to storage: it writes the bytes of the access and changes nothing else (20_memory.md R89, R93, R94). -/
theorem memWrite_storage {h : Hart x} {ea : XWord x} {w : Width} {v : BitVec w.bits}
    (hs : h.StorageAccess .write ea w) :
    ∃ m, h.memWrite ea w v = (none, { h with memory := m }) ∧
      (∀ i < w.bytes, ({ h with memory := m } : Hart x).byteAt (byteAddr ea i) = byteOf v i) ∧
      (∀ a, ¬ InAccess ea w a → ({ h with memory := m } : Hart x).byteAt a = h.byteAt a) := by
  unfold memWrite
  rcases hs with ⟨ha, hr⟩ | ⟨ha, hp, hr⟩
  · rw [if_pos ha, busWriteOk_storage hr]
    simp only
    rw [busWriteDo_storage hr]
    refine ⟨_, rfl, fun i hi => ?_, fun a hn => ?_⟩
    · have := byteAt_storageWrite h ea.toNat w v (byteAddr ea i)
      rw [byteAddr_aligned ha hi, if_pos (by omega), Nat.add_sub_cancel_left] at this
      rw [byteAddr_aligned ha hi]
      exact this
    · have := byteAt_storageWrite h ea.toNat w v a
      rw [if_neg] at this
      · exact this
      · rintro ⟨h1, h2⟩
        exact hn ⟨a - ea.toNat, by omega, by rw [byteAddr_aligned ha (by omega)]; omega⟩
  · rw [if_neg ha, hp]
    simp only
    rw [splitCheck_storage (fun j hj => by simpa using hr j hj)]
    simp only
    obtain ⟨p1, p2, p3⟩ := splitWrite_storage (v := v) (i := 0) (n := w.bytes) (fun j hj => by simpa using hr j hj)
    refine ⟨(splitWrite ea v w.bytes 0 h).memory, by rw [← p1], fun i hi => ?_, fun a hn => ?_⟩
    · rw [← p1]
      simpa using p3 (fun j hj k hk e => byteAddr_inj ea hj hk (by simpa using e)) i hi
    · rw [← p1]
      exact p2 a fun j hj e => hn ⟨j, hj, by simpa using e⟩

/-- `MemWrite` that faults reports the address 20_memory.md R96 says, and changes nothing at all. -/
theorem memWrite_fault {h : Hart x} {ea a : XWord x} {w : Width} {v : BitVec w.bits}
    (hf : h.AccessFaults .write ea w a) : h.memWrite ea w v = (some a, h) := by
  unfold memWrite
  rcases hf with ⟨ha, hu, rfl⟩ | ⟨ha, hp, rfl⟩ | ⟨ha, hp, i, hi, rfl', hu, hs⟩
  · rw [if_pos ha, busWriteOk_unmapped hu]
    simp only [Unmapped] at hu
    simp [busWriteDo, hu]
  · rw [if_neg ha, hp]
  · rw [if_neg ha, hp]
    simp only
    rw [splitCheck_fault hi (fun j hj => by simpa using hs j hj) (by simpa using hu)]
    simp only [Nat.zero_add]
    congr 2
    exact BitVec.eq_of_toNat_eq (by rw [byteAddr_eq, rfl'])

/-- What a performed write can do to the memory: nothing, or put bytes at its address. -/
theorem busWriteDo_memory (h : Hart x) (a : Nat) (w : Width) (v : BitVec w.bits) (ok : Bool) :
    (h.busWriteDo a w v ok).memory = h.memory ∨
      (h.busWriteDo a w v ok).memory = h.memory.putBytes a (bytesOf v w.bytes) := by
  rcases busWriteDo_cases h a w v ok with e | e
  · exact .inl (SameButDevices.memory e)
  · exact .inr (by rw [e, storageWrite_memory])

theorem splitWrite_memory (ea : XWord x) {m : Nat} (v : BitVec m) (n i : Nat) (h : Hart x) :
    (h.memory.wf → (splitWrite ea v n i h).memory.wf) ∧
      ∀ c ∈ (splitWrite ea v n i h).memory, c ∈ h.memory ∨ c.1 < 2 ^ x.bits := by
  induction n generalizing i h with
  | zero => exact ⟨id, fun c hc => .inl hc⟩
  | succ n ih =>
    obtain ⟨w, s⟩ := ih (i + 1) (h.busWriteDo (ea + BitVec.ofNat x.bits i).toNat .byte (byteOf v i) true)
    unfold splitWrite
    rcases busWriteDo_memory h (ea + BitVec.ofNat x.bits i).toNat .byte (byteOf v i) true with e | e
    · rw [e] at w s; exact ⟨w, s⟩
    · rw [e] at w s
      refine ⟨fun hw => w (Memory.wf_putBytes hw _ _), fun c hc => ?_⟩
      rcases s c hc with h1 | h1
      · rcases Memory.mem_putBytes h1 with ⟨_, h2⟩ | h2
        · refine .inr (Nat.lt_of_lt_of_le h2 ?_)
          have := (ea + BitVec.ofNat x.bits i).isLt
          simp only [bytesOf_length, Width.bytes]; omega
        · exact .inl h2
      · exact .inr h1

/-- `MemWrite` keeps the canonical form and the address space. -/
theorem memWrite_memory (ea : XWord x) (w : Width) (v : BitVec w.bits) (h : Hart x) :
    (h.memory.wf → (h.memWrite ea w v).2.memory.wf) ∧
      ∀ c ∈ (h.memWrite ea w v).2.memory, c ∈ h.memory ∨ c.1 < 2 ^ x.bits := by
  unfold memWrite
  have hb := SameButDevices.memory (busWriteOk_same h ea.toNat w v)
  have hc := SameButDevices.memory (splitCheck_same ea v w.bytes 0 h)
  split
  · rename_i ha
    have key : ∀ (h1 : Hart x) (ok : Bool), h1.memory = h.memory →
        (h.memory.wf → (h1.busWriteDo ea.toNat w v ok).memory.wf) ∧
          ∀ c ∈ (h1.busWriteDo ea.toNat w v ok).memory, c ∈ h.memory ∨ c.1 < 2 ^ x.bits := by
      intro h1 ok e1
      rcases busWriteDo_memory h1 ea.toNat w v ok with e | e
      · rw [e, e1]; exact ⟨id, fun c hc => .inl hc⟩
      · rw [e, e1]
        refine ⟨fun hw => Memory.wf_putBytes hw _ _, fun c hc => ?_⟩
        rcases Memory.mem_putBytes hc with ⟨_, h2⟩ | h2
        · rw [bytesOf_length] at h2
          exact .inr (Nat.lt_of_lt_of_le h2 (aligned_end ea w ha))
        · exact .inl h2
    split <;> (rename_i e; rw [e] at hb; exact key _ _ hb)
  · split
    · exact ⟨id, fun c hc => .inl hc⟩
    · split <;> (rename_i e; rw [e] at hc)
      · simp only at hc ⊢; rw [hc]; exact ⟨id, fun c hc => .inl hc⟩
      · simp only at hc ⊢
        rw [← hc]
        exact splitWrite_memory ea v w.bytes 0 _

/-- `Fetch` changes nothing but the devices (20_memory.md R95). -/
theorem fetch_same (h : Hart x) : h.SameButDevices h.fetch.2 := by
  unfold fetch
  have hb := busRead_same h .fetch h.pc.toNat .word
  split
  · split <;> (rename_i e; rw [e] at hb; exact hb)
  · rfl

/-- The only address a faulting `Fetch` reports is the pc (20_memory.md R95, R96). -/
theorem fetch_error {h h1 : Hart x} {a : XWord x} (e : h.fetch = (.error a, h1)) : a = h.pc := by
  unfold fetch at e
  split at e
  · split at e <;> simp at e
    exact e.1.symm
  · simp at e; exact e.1.symm

end Hart

end Sys2Proof.Machine
end

