-- ==== Sys2Proof/Laws/Exec.lean ====
section
/-! SUPPORT. Everything one instruction, and one step, can do: the lemmas later proofs cite instead of unfolding `exec` and
`step`. -/

namespace Sys2Proof.Machine

/-! ### CSR access -/

/-- An address names a CSR exactly if 10_state.md R31 lists it. -/
theorem csrAt_isSome (x : Xlen) (a : BitVec 12) : (csrAt x a).isSome ↔ a ∈ csrAddresses x := by
  constructor
  · intro h
    by_contra hn
    cases x <;>
    · simp only [csrAddresses, List.mem_append, List.mem_cons, List.not_mem_nil, or_false, not_or] at hn
      simp only [csrAt, hn, if_false, ite_self, reduceCtorEq, Option.isSome_none, Bool.false_eq_true] at h
  · intro h
    cases x <;> simp only [csrAddresses, List.mem_append, List.mem_cons, List.not_mem_nil, or_false] at h
    · rcases h with (rfl | rfl | rfl | rfl | rfl | rfl | rfl | rfl | rfl | rfl | rfl) | rfl | rfl | rfl <;> rfl
    · rcases h with rfl | rfl | rfl | rfl | rfl | rfl | rfl | rfl | rfl | rfl | rfl <;> rfl

/-- The access checks pass exactly if 44_csr.md R300 says so. -/
theorem csrAccess_isSome (x : Xlen) (p : Priv) (a : BitVec 12) (writes : Bool) :
    (csrAccess x p a writes).isSome ↔ CsrPermitted x p a writes := by
  unfold csrAccess CsrPermitted
  rw [← csrAt_isSome]
  split
  · rename_i e; simp [e]
  · rename_i c e
    simp only [e, Option.isSome_some, true_and]
    split
    · rename_i h
      simp only [Option.isSome_none, Bool.false_eq_true, false_iff, not_and]
      exact fun h2 => absurd h2 (by omega)
    · rename_i h
      split
      · rename_i h2
        simp only [Bool.and_eq_true, decide_eq_true_eq] at h2
        simp [h2]
      · rename_i h2
        simp only [Bool.and_eq_true, decide_eq_true_eq] at h2
        simp only [Option.isSome_some, true_iff]
        exact ⟨Nat.le_of_not_lt h, h2⟩

theorem csrAccess_eq_none (x : Xlen) (p : Priv) (a : BitVec 12) (writes : Bool) :
    csrAccess x p a writes = none ↔ ¬ CsrPermitted x p a writes := by
  rw [← csrAccess_isSome, Option.not_isSome_iff_eq_none]

/-- An access that passes names the CSR of its address. -/
theorem csrAt_of_csrAccess {x : Xlen} {p : Priv} {a : BitVec 12} {writes : Bool} {c : Csr}
    (h : csrAccess x p a writes = some c) : csrAt x a = some c := by
  unfold csrAccess at h
  split at h
  · simp at h
  · split at h
    · simp at h
    · split at h
      · simp at h
      · rename_i e _ _; rw [e, h]

/-! ### What one instruction can do -/

/-- The ways an instruction can change a hart. -/
inductive Effect {x : Xlen} (i : Instr) (h : Hart x) : Hart x → Prop where
  /-- A register, and the next pc; x0 for an instruction that writes none. -/
  | write (rd : Reg) (v t : XWord x) (hl : i.loadForm = none) (hs : i.storeForm = none) (hc : i.csrForm = none) :
    Effect i h ((h.setReg rd v).commit t)
  /-- A load, its access done. -/
  | load (h' : Hart x) (rd : Reg) (v : XWord x) (same : h.SameButDevices h') (form : i.loadForm ≠ none) :
    Effect i h (h'.retire rd v)
  /-- A store, its access done. -/
  | store (h' : Hart x) (same : h.SameButMemory h') (wf : h.memory.wf → h'.memory.wf)
    (space : ∀ c ∈ h'.memory, c ∈ h.memory ∨ c.1 < 2 ^ x.bits) (form : i.storeForm ≠ none) : Effect i h h'.advance
  /-- A CSR instruction that passed its checks. -/
  | csr (c : Csr) (rd : Reg) (a : BitVec 12) (writes : Bool) (v : XWord x)
    (form : i.csrForm = some (rd, a, writes)) (ok : csrAccess x h.priv a writes = some c) :
    Effect i h ((if writes then (h.csrSampled c).csrWrite c v else h.csrSampled c).retire rd (h.csrValue c))
  /-- MRET in machine mode. -/
  | mret (is : i = .mret) (mode : h.priv = .machine) : Effect i h (h.trapReturn.commit h.mepc)
  /-- HALT. -/
  | halt (is : i = .halt) : Effect i h { h with halted := true }
  /-- The trap of an exception. -/
  | trap (h' : Hart x) (e : Exc x) (same : h.SameButDevices h') (may : h.MayRaise i e) : Effect i h (h'.raise e)

namespace Effect

variable {x : Xlen} {h : Hart x}

theorem ofRetire {i : Instr} (rd : Reg) (v : XWord x) (hl : i.loadForm = none := by rfl)
    (hs : i.storeForm = none := by rfl) (hc : i.csrForm = none := by rfl) : Effect i h (h.retire rd v) :=
  .write rd v (h.pc + 4) hl hs hc

theorem ofCommit {i : Instr} (t : XWord x) (hl : i.loadForm = none := by rfl)
    (hs : i.storeForm = none := by rfl) (hc : i.csrForm = none := by rfl) : Effect i h (h.commit t) := by
  have := Effect.write (i := i) (h := h) 0 0 t hl hs hc
  exact this

theorem ofIllegal {i : Instr} (hi : i.wellFormed x = false) : Effect i h (h.illegal i) :=
  .trap h (.illegalInstruction (h.wordOf i)) (.refl h) ⟨rfl, .inl hi⟩

theorem ofLoad {i : Instr} (rd : Reg) (ea : XWord x) (w : Width) (f : BitVec w.bits → XWord x)
    (form : i.loadForm ≠ none) : Effect i h (h.load rd ea w f) := by
  have hm := Hart.memRead_same ea w h
  unfold Hart.load
  split <;> (rename_i e; rw [e] at hm)
  · exact .load _ rd _ hm form
  · exact .trap _ _ hm form

theorem ofStore {i : Instr} (ea : XWord x) (w : Width) (v : XWord x) (form : i.storeForm ≠ none) :
    Effect i h (h.store ea w v) := by
  have hf := Hart.memWrite_frame ea w (v.setWidth w.bits) h
  have hm := Hart.memWrite_memory ea w (v.setWidth w.bits) h
  unfold Hart.store
  split <;> (rename_i e; rw [e] at hf hm)
  · exact .store _ hf hm.1 hm.2 form
  · exact .trap _ _ (Hart.memWrite_refused e) form

theorem ofCsr {i : Instr} (rd : Reg) (a : BitVec 12) (writes : Bool) (f : XWord x → XWord x)
    (form : i.csrForm = some (rd, a, writes)) : Effect i h (h.csrInstr i rd a writes f) := by
  unfold Hart.csrInstr
  split
  · rename_i e
    exact .trap h _ (.refl h) ⟨rfl, .inr (.inr ⟨rd, a, writes, form, (csrAccess_eq_none _ _ _ _).mp e⟩)⟩
  · rename_i c e
    exact .csr c rd a writes (f (h.csrValue c)) form e

end Effect

theorem next_only64 {x : Xlen} {i : Instr} {h h1 : Hart x} (hi : i.rv64Only = true) (e : Effect i h h1) :
    ∃ h2, State.only64 ⟨x, h⟩ i h1 = .next ⟨x, h2⟩ ∧ Effect i h h2 := by
  unfold State.only64
  split
  · exact ⟨h1, rfl, e⟩
  · rename_i hx
    refine ⟨_, rfl, .ofIllegal ?_⟩
    have : x ≠ .rv64 := hx
    simp [Instr.wellFormed, hi, this]

theorem next_ifShamt {x : Xlen} {i : Instr} {shamt : BitVec 6} {h h1 : Hart x} (hi : i.xlenShamt = some shamt)
    (e : Effect i h h1) : ∃ h2, State.ifShamt ⟨x, h⟩ i shamt h1 = .next ⟨x, h2⟩ ∧ Effect i h h2 := by
  unfold State.ifShamt
  split
  · exact ⟨h1, rfl, e⟩
  · rename_i hx
    refine ⟨_, rfl, .ofIllegal ?_⟩
    have : ¬ shamt.toNat < x.bits := hx
    simp [Instr.wellFormed, hi, this]

/-- Every instruction, in every state, answers a next state of the same XLEN, by one of these effects. -/
theorem exec_effect {x : Xlen} (i : Instr) (h : Hart x) :
    ∃ h1, exec i ⟨x, h⟩ = .next ⟨x, h1⟩ ∧ Effect i h h1 := by
  cases i
  case addiw | slliw | srliw | sraiw | addw | subw | sllw | srlw | sraw | mulw | divw | divuw | remw | remuw =>
    exact next_only64 rfl (.ofRetire _ _)
  case lwu | ld => exact next_only64 rfl (.ofLoad _ _ _ _ (by simp [Instr.loadForm]))
  case sd => exact next_only64 rfl (.ofStore _ _ _ (by simp [Instr.storeForm]))
  case slli | srli | srai => exact next_ifShamt rfl (.ofRetire _ _)
  case lb | lh | lw | lbu | lhu => exact ⟨_, rfl, .ofLoad _ _ _ _ (by simp [Instr.loadForm])⟩
  case sb | sh | sw => exact ⟨_, rfl, .ofStore _ _ _ (by simp [Instr.storeForm])⟩
  case beq | bne | blt | bge | bltu | bgeu => exact ⟨_, rfl, .ofCommit _⟩
  case jal | jalr => exact ⟨_, rfl, .write _ _ _ rfl rfl rfl⟩
  case fence | fenceI | wfi => exact ⟨_, rfl, .ofCommit _⟩
  case csrrw | csrrs | csrrc | csrrwi | csrrsi | csrrci => exact ⟨_, rfl, .ofCsr _ _ _ _ rfl⟩
  case halt => exact ⟨_, rfl, .halt rfl⟩
  case ebreak => exact ⟨_, rfl, .trap h _ (.refl h) ⟨rfl, rfl⟩⟩
  case ecall =>
    refine ⟨_, rfl, .trap h _ (.refl h) ?_⟩
    show h.MayRaise .ecall (envCall x h.priv)
    cases hp : h.priv <;> exact ⟨rfl, hp⟩
  case mret =>
    by_cases hp : h.priv = .machine
    · exact ⟨h.trapReturn.commit h.mepc, by simp [exec, execMret, hp, State.next], .mret rfl hp⟩
    · exact ⟨h.illegal .mret, by simp [exec, execMret, hp, State.next],
        .trap h (.illegalInstruction (h.wordOf .mret)) (.refl h) ⟨rfl, .inr (.inl ⟨rfl, hp⟩)⟩⟩
  all_goals exact ⟨_, rfl, .ofRetire _ _⟩

/-! ### The boundary -/

namespace Hart

variable {x : Xlen}

/-- The hart with the step counted by `cycle_ctr`. -/
def counted (h : Hart x) : Hart x := { h with cycleCtr := h.cycleCtr + 1 }

/-- What a boundary does: it counts the step, and takes at most one interrupt (60_exceptions.md R370, R382). -/
theorem boundary_cases (h : Hart x) :
    (h.boundary = h.counted ∧ ∀ q, h.candidate = some q → h.interruptsEnabled = false) ∨
      ∃ q, h.candidate = some q ∧ h.interruptsEnabled = true ∧
        h.boundary = h.counted.trapEntry true q.code 0 h.pc := by
  have hc : h.counted.candidate = h.candidate := rfl
  have he : h.counted.interruptsEnabled = h.interruptsEnabled := rfl
  have hb : h.boundary = h.counted.interruptCheck := rfl
  rw [hb]
  unfold interruptCheck
  rw [hc, he]
  cases h.candidate with
  | none => exact .inl ⟨rfl, fun q e => by simp at e⟩
  | some q =>
    cases hi : h.interruptsEnabled with
    | false => exact .inl ⟨rfl, fun _ _ => rfl⟩
    | true => exact .inr ⟨q, rfl, rfl, rfl⟩

/-- Right after a trap no interrupt is taken (60_exceptions.md R372). -/
theorem boundary_of_trapped {h : Hart x} (hp : h.priv = .machine) (hm : h.mstatus.mie = false) :
    h.boundary = h.counted := by
  rcases boundary_cases h with ⟨e, _⟩ | ⟨q, _, he, _⟩
  · exact e
  · simp [interruptsEnabled, hp, hm] at he

theorem boundary_raise (h : Hart x) (e : Exc x) : (h.raise e).boundary = (h.raise e).counted :=
  boundary_of_trapped rfl rfl

end Hart

/-! ### What one step can do -/

/-- The ways a step can change a hart. -/
inductive StepEffect {x : Xlen} (h : Hart x) : Hart x → Prop where
  /-- A halted core does nothing. -/
  | idle (halted : h.halted = true) : StepEffect h h
  /-- The fetch faults. -/
  | noFetch (h' : Hart x) (running : h.halted = false) (fetch : h.fetch = (.error h.pc, h'))
    (same : h.SameButDevices h') : StepEffect h (h'.raise (.instrAccessFault h.pc)).counted
  /-- The word is no instruction. -/
  | noDecode (w : BitVec 32) (d : DecodeError) (h' : Hart x) (running : h.halted = false)
    (fetch : h.fetch = (.ok w, h')) (same : h.SameButDevices h')
    (decode : decodeWord x h.params.haltWord w = .error d) :
    StepEffect h (h'.raise (.illegalInstruction w)).counted
  /-- The instruction runs, and HALT ends the run. -/
  | halts (w : BitVec 32) (h' h1 : Hart x) (running : h.halted = false) (fetch : h.fetch = (.ok w, h'))
    (same : h.SameButDevices h') (decode : decodeWord x h.params.haltWord w = .ok .halt)
    (exec : exec .halt ⟨x, h'⟩ = .next ⟨x, h1⟩) (is : h1 = { h' with halted := true }) : StepEffect h h1
  /-- The instruction runs, and the boundary follows. -/
  | runs (w : BitVec 32) (i : Instr) (h' h1 : Hart x) (running : h.halted = false) (fetch : h.fetch = (.ok w, h'))
    (same : h.SameButDevices h') (decode : decodeWord x h.params.haltWord w = .ok i)
    (exec : exec i ⟨x, h'⟩ = .next ⟨x, h1⟩) (effect : Effect i h' h1) (on : h1.halted = false) :
    StepEffect h h1.boundary

/-- Only HALT halts. -/
theorem Effect.halted {x : Xlen} {i : Instr} {h h1 : Hart x} (e : Effect i h h1) (hr : h.halted = false) :
    (i = .halt ∧ h1 = { h with halted := true }) ∨ h1.halted = false := by
  cases e with
  | halt is => exact .inl ⟨is, rfl⟩
  | write => exact .inr hr
  | load h' _ _ same => exact .inr (by rw [← hr, ← same.halted]; rfl)
  | store h' same => exact .inr (by rw [← hr, ← same.halted]; rfl)
  | csr c rd a writes v =>
    refine .inr ?_
    cases writes <;> cases c <;> exact hr
  | mret => exact .inr hr
  | trap h' e same => exact .inr (by rw [← hr, ← same.halted]; rfl)

/-- Every step, in every state, answers a next state of the same XLEN, by one of these effects. -/
theorem step_effect {x : Xlen} (h : Hart x) : ∃ h1, step ⟨x, h⟩ = .next ⟨x, h1⟩ ∧ StepEffect h h1 := by
  have hs := Hart.fetch_same h
  unfold step State.cycle
  simp only
  cases hh : h.halted with
  | true => exact ⟨h, rfl, .idle hh⟩
  | false =>
    rw [if_neg (by simp)]
    rcases hf : h.fetch with ⟨a | w, h'⟩
    · obtain rfl := Hart.fetch_error hf
      rw [hf] at hs
      refine ⟨_, ?_, .noFetch h' hh hf hs⟩
      simp only [State.next, Hart.boundary_raise]
    · rw [hf] at hs
      have hp : h'.params = h.params := hs.params
      simp only [hp]
      cases hd : decodeWord x h.params.haltWord w with
      | error d =>
        refine ⟨_, ?_, .noDecode w d h' hh hf hs hd⟩
        simp only [State.next, Hart.boundary_raise]
      | ok i =>
        obtain ⟨h1, he, ef⟩ := exec_effect i h'
        have hh' : h'.halted = false := by rw [hs.halted, hh]
        simp only [he, State.endStep]
        rcases ef.halted hh' with ⟨rfl, e1⟩ | e1
        · refine ⟨h1, ?_, .halts w h' h1 hh hf hs hd he e1⟩
          rw [if_pos (by rw [e1])]
        · refine ⟨h1.boundary, ?_, .runs w i h' h1 hh hf hs hd he ef e1⟩
          rw [if_neg (by rw [e1]; simp)]

/-- The step of a hart, by the effect of the step it takes. -/
theorem stepEffect_of_step {x : Xlen} {h h1 : Hart x} (e : step ⟨x, h⟩ = .next ⟨x, h1⟩) : StepEffect h h1 := by
  obtain ⟨h2, e2, s⟩ := step_effect h
  rw [e] at e2
  simp only [Host.Outcome.next.injEq, State.mk.injEq, heq_eq_eq, true_and] at e2
  rwa [e2]

/-- The instruction of a hart, by the effect it has. -/
theorem effect_of_exec {x : Xlen} {i : Instr} {h h1 : Hart x} (e : exec i ⟨x, h⟩ = .next ⟨x, h1⟩) : Effect i h h1 := by
  obtain ⟨h2, e2, s⟩ := exec_effect i h
  rw [e] at e2
  simp only [Host.Outcome.next.injEq, State.mk.injEq, heq_eq_eq, true_and] at e2
  rwa [e2]

end Sys2Proof.Machine
end

