-- ==== Sys2Proof/Laws/Frames.lean ====
section
/-! SUPPORT. The frames: what each kind of effect leaves alone, in the terms of Safety.lean. -/

namespace Sys2Proof.Machine

variable {x : Xlen}

/-! ### Retiring -/

theorem Hart.SameControl.refl (h : Hart x) : h.SameControl h :=
  ⟨rfl, rfl, rfl, rfl, rfl, rfl, rfl, rfl, rfl, rfl, rfl, rfl, rfl⟩

theorem Hart.SameDevices.refl (h : Hart x) : h.SameDevices h := ⟨rfl, rfl⟩

/-- Writing one register and the next pc is retiring. -/
theorem Hart.retires_write (h : Hart x) (rd : Reg) (v t : XWord x) {P : XWord x → Prop} (hp : P v) :
    h.Retires ((h.setReg rd v).commit t) rd t P where
  control := ⟨rfl, rfl, rfl, rfl, rfl, rfl, rfl, rfl, rfl, rfl, rfl, rfl, rfl⟩
  devices := ⟨rfl, rfl⟩
  bytes _ := rfl
  regs r hr := by
    rw [Hart.reg_congr (Hart.commit_regs _ _), Hart.reg_setReg, if_neg fun e => hr e.1]
  zero := Hart.reg_zero _
  pc := rfl
  instret := rfl
  result hr := by rwa [Hart.reg_congr (Hart.commit_regs _ _), Hart.reg_setReg, if_pos ⟨rfl, hr⟩]

/-- An instruction whose next state writes `v` to `rd` and goes on at `t` completes so. -/
theorem completes_of {i : Instr} {h : Hart x} {rd : Reg} {v t : XWord x} {P : XWord x → Prop}
    (e : exec i ⟨x, h⟩ = .next ⟨x, (h.setReg rd v).commit t⟩) (hp : P v) : Completes i h rd t P :=
  ⟨_, e, h.retires_write rd v t hp⟩

theorem computes_of {i : Instr} {h : Hart x} {rd : Reg} {v : XWord x} {P : XWord x → Prop}
    (e : exec i ⟨x, h⟩ = .next ⟨x, h.retire rd v⟩) (hp : P v) : Computes i h rd P := completes_of e hp

/-- An instruction that only sets the next pc advances to it. -/
theorem advances_of {i : Instr} {h : Hart x} {t : XWord x} (e : exec i ⟨x, h⟩ = .next ⟨x, h.commit t⟩) :
    Advances i h t := by
  have hs : (h.setReg 0 0).commit t = h.commit t := by cases h; rfl
  exact completes_of (v := 0) (by rw [hs]; exact e) trivial

/-! ### Trapping -/

theorem Exc.code_lt (e : Exc x) : e.code < 16 := by cases e <;> simp [Exc.code]

theorem causeWord_exception (e : Exc x) : (causeWord x false e.code).toNat = e.code := by
  have := e.code_lt
  simp only [causeWord, Bool.false_eq_true, if_false, Nat.zero_add, BitVec.toNat_ofNat]
  exact Nat.mod_eq_of_lt (by cases x <;> simp only [Xlen.bits] <;> omega)

/-- Raising an exception is the trap with its code and value (60_exceptions.md R390). -/
theorem Hart.trapped_raise (h : Hart x) (e : Exc x) : h.Trapped (h.raise e) e.code e.value where
  mepc := rfl
  mcause := causeWord_exception e
  mtval := rfl
  mpie := rfl
  mie := rfl
  mpp := rfl
  priv := rfl
  pc := rfl
  regs _ := rfl
  bytes _ := rfl
  params := rfl
  enables := rfl
  irq := rfl
  mtvec := rfl
  cycleCtr := rfl
  instret := rfl
  halted := rfl
  timeNow := rfl
  timeDraws := rfl

/-- A trap taken after accesses that changed only the devices. -/
theorem Hart.Trapped.of_same {h h' h1 : Hart x} {c : Nat} {v : XWord x} (s : h.SameButDevices h')
    (t : h'.Trapped h1 c v) : h.Trapped h1 c v where
  mepc := by rw [t.mepc, s.pc]
  mcause := t.mcause
  mtval := t.mtval
  mpie := by rw [t.mpie, s.mstatus]
  mie := t.mie
  mpp := by rw [t.mpp, s.priv]
  priv := t.priv
  pc := by rw [t.pc, s.mtvec]
  regs r := by rw [t.regs, s.reg]
  bytes a := by rw [t.bytes, s.byteAt]
  params := by rw [t.params, s.params]
  enables := by rw [t.enables, s.mie]
  irq := by rw [t.irq, s.irq]
  mtvec := by rw [t.mtvec, s.mtvec]
  cycleCtr := by rw [t.cycleCtr, s.cycleCtr]
  instret := by rw [t.instret, s.instretCtr]
  halted := by rw [t.halted, s.halted]
  timeNow := by rw [t.timeNow, s.timeNow]
  timeDraws := by rw [t.timeDraws, s.timeDraws]

theorem takesTrap_of {i : Instr} {h : Hart x} (e : Exc x) (eq : exec i ⟨x, h⟩ = .next ⟨x, h.raise e⟩) :
    TakesTrap i h e.code e.value := ⟨_, eq, h.trapped_raise e, rfl, rfl⟩

/-- A step that ends in a raised exception is that trap. -/
theorem stepTraps_of {h h' : Hart x} (e : Exc x) (s : h.SameButDevices h')
    (eq : step ⟨x, h⟩ = .next ⟨x, (h'.raise e).counted⟩) : StepTraps h e.code e.value :=
  ⟨h'.raise e, eq, .of_same s (h'.trapped_raise e)⟩

/-! ### Loads and stores -/

theorem Hart.load_storage {h : Hart x} {rd : Reg} {ea : XWord x} {w : Width} {f : BitVec w.bits → XWord x}
    (hs : h.StorageAccess .read ea w) : h.load rd ea w f = h.retire rd (f (BitVec.ofNat w.bits (h.accessValue ea w))) := by
  simp [Hart.load, Hart.memRead_storage hs]

theorem Hart.load_fault {h : Hart x} {rd : Reg} {ea a : XWord x} {w : Width} {f : BitVec w.bits → XWord x}
    (hf : h.AccessFaults .read ea w a) : h.load rd ea w f = h.raise (.loadAccessFault a) := by
  simp [Hart.load, Hart.memRead_fault hf]

theorem Hart.store_fault {h : Hart x} {ea a : XWord x} {w : Width} {v : XWord x}
    (hf : h.AccessFaults .write ea w a) : h.store ea w v = h.raise (.storeAccessFault a) := by
  simp [Hart.store, Hart.memWrite_fault hf]

/-- A store to storage retires having stored the low bytes (41_load_store.md R228). -/
theorem Hart.stored_store {h : Hart x} {ea : XWord x} {w : Width} {v : XWord x}
    (hs : h.StorageAccess .write ea w) : h.Stored (h.store ea w v) ea w v := by
  obtain ⟨m, e, hb, ho⟩ := Hart.memWrite_storage (v := v.setWidth w.bits) hs
  have hst : h.store ea w v = ({ h with memory := m } : Hart x).advance := by simp [Hart.store, e]
  rw [hst]
  exact
    { control := ⟨rfl, rfl, rfl, rfl, rfl, rfl, rfl, rfl, rfl, rfl, rfl, rfl, rfl⟩
      devices := ⟨rfl, rfl⟩
      regs := fun _ => rfl
      pc := rfl
      instret := rfl
      stored := fun i hi => by
        have := hb i hi
        rw [show ({ h with memory := m } : Hart x).advance.byteAt (byteAddr ea i) =
          ({ h with memory := m } : Hart x).byteAt (byteAddr ea i) from rfl, this, byteOf_toNat, BitVec.toNat_setWidth]
        have h8 : w.bits = 8 * i + 8 * (w.bytes - i) := by simp only [Width.bits]; omega
        rw [h8, Nat.pow_add, Nat.pow_mul, Nat.mod_mul_right_div_self,
          Nat.mod_mod_of_dvd]
        obtain ⟨k, hk⟩ : ∃ k, w.bytes - i = k + 1 := ⟨w.bytes - i - 1, by omega⟩
        exact ⟨2 ^ (8 * k), by rw [hk, Nat.mul_add, Nat.pow_add, Nat.mul_comm]⟩
      others := fun a ha => ho a ha }

/-- Reading back what was stored (20_memory.md R107). -/
theorem Hart.accessValue_of_stored {h : Hart x} {ea : XWord x} {w : Width} {n : Nat}
    (hb : ∀ i < w.bytes, (h.byteAt (byteAddr ea i)).toNat = n / 256 ^ i % 256) :
    h.accessValue ea w = n % 2 ^ w.bits := by
  have e : ∀ k, ∑ i ∈ Finset.range k, n / 256 ^ i % 256 * 256 ^ i = n % 256 ^ k := by
    intro k
    induction k with
    | zero => simp [Nat.mod_one]
    | succ k ih => rw [Finset.sum_range_succ, ih, Nat.pow_succ, Nat.mod_mul]; ring
  rw [Hart.accessValue, Finset.sum_congr rfl fun i hi => by rw [hb i (Finset.mem_range.mp hi)], e, Width.bits,
    Nat.pow_mul]

/-- The effective address is the integer sum modulo 2^XLEN (41_load_store.md R220). -/
theorem Hart.ea_eq_eaOf (h : Hart x) (rs1 : Reg) (imm : BitVec 12) : h.ea rs1 imm = h.eaOf rs1 imm := by
  have hw : 12 ≤ x.bits := by cases x <;> decide
  apply BitVec.eq_of_toInt_eq
  rw [Hart.ea, Hart.eaOf, imm12, BitVec.toInt_add, BitVec.toInt_signExtend_of_le hw, BitVec.toInt_ofInt,
    BitVec.toInt_eq_toNat_bmod]
  simp [Int.bmod_add_bmod]

/-! ### CSR instructions -/

/-- Reading a CSR takes at most a sample of the clock. -/
theorem Hart.csrSampled_cases (c : Csr) (h : Hart x) :
    (c ≠ .time ∧ c ≠ .timeh ∧ h.csrSampled c = h) ∨ ((c = .time ∨ c = .timeh) ∧ h.csrSampled c = h.sampleTime) := by
  cases c <;> simp [csrSampled]

end Sys2Proof.Machine
end

