-- ==== Sys2Proof/Laws/CsrBank.lean ====
section
/-! SUPPORT. The CSR bank: what each CSR reads after a write, and everything a CSR instruction does. -/

namespace Sys2Proof.Machine

variable {x : Xlen}

/-! ### Single bits -/

/-- One bit of a word as a word. -/
def bitWord (n k : Nat) (b : Bool) : BitVec n := if b then BitVec.ofNat n (2 ^ k) else 0#n

theorem and_0x1888_32 (v : BitVec 32) :
    v &&& 0x1888#32 = bitWord 32 3 (v.getLsbD 3) ||| bitWord 32 7 (v.getLsbD 7) |||
      bitWord 32 11 (v.getLsbD 11) ||| bitWord 32 12 (v.getLsbD 12) := by
  apply BitVec.eq_of_getLsbD_eq
  intro i hi
  simp only [bitWord, BitVec.getLsbD_and, BitVec.getLsbD_or, apply_ite (fun w => BitVec.getLsbD w i)]
  interval_cases i <;> simp

theorem and_0x1888_64 (v : BitVec 64) :
    v &&& 0x1888#64 = bitWord 64 3 (v.getLsbD 3) ||| bitWord 64 7 (v.getLsbD 7) |||
      bitWord 64 11 (v.getLsbD 11) ||| bitWord 64 12 (v.getLsbD 12) := by
  apply BitVec.eq_of_getLsbD_eq
  intro i hi
  simp only [bitWord, BitVec.getLsbD_and, BitVec.getLsbD_or, apply_ite (fun w => BitVec.getLsbD w i)]
  interval_cases i <;> simp

theorem and_0x1888 (v : XWord x) :
    v &&& 0x1888#x.bits = bitWord x.bits 3 (v.getLsbD 3) ||| bitWord x.bits 7 (v.getLsbD 7) |||
      bitWord x.bits 11 (v.getLsbD 11) ||| bitWord x.bits 12 (v.getLsbD 12) := by
  cases x
  · exact and_0x1888_32 v
  · exact and_0x1888_64 v

theorem and_0x88_32 (v : BitVec 32) :
    v &&& 0x88#32 = bitWord 32 3 (v.getLsbD 3) ||| bitWord 32 7 (v.getLsbD 7) := by
  apply BitVec.eq_of_getLsbD_eq
  intro i hi
  simp only [bitWord, BitVec.getLsbD_and, BitVec.getLsbD_or, apply_ite (fun w => BitVec.getLsbD w i)]
  interval_cases i <;> simp

theorem and_0x88_64 (v : BitVec 64) :
    v &&& 0x88#64 = bitWord 64 3 (v.getLsbD 3) ||| bitWord 64 7 (v.getLsbD 7) := by
  apply BitVec.eq_of_getLsbD_eq
  intro i hi
  simp only [bitWord, BitVec.getLsbD_and, BitVec.getLsbD_or, apply_ite (fun w => BitVec.getLsbD w i)]
  interval_cases i <;> simp

theorem and_0x88 (v : XWord x) :
    v &&& 0x88#x.bits = bitWord x.bits 3 (v.getLsbD 3) ||| bitWord x.bits 7 (v.getLsbD 7) := by
  cases x
  · exact and_0x88_32 v
  · exact and_0x88_64 v

theorem and_0x888_32 (v : BitVec 32) :
    v &&& 0x888#32 = bitWord 32 3 (v.getLsbD 3) ||| bitWord 32 7 (v.getLsbD 7) |||
      bitWord 32 11 (v.getLsbD 11) := by
  apply BitVec.eq_of_getLsbD_eq
  intro i hi
  simp only [bitWord, BitVec.getLsbD_and, BitVec.getLsbD_or, apply_ite (fun w => BitVec.getLsbD w i)]
  interval_cases i <;> simp

theorem and_0x888_64 (v : BitVec 64) :
    v &&& 0x888#64 = bitWord 64 3 (v.getLsbD 3) ||| bitWord 64 7 (v.getLsbD 7) |||
      bitWord 64 11 (v.getLsbD 11) := by
  apply BitVec.eq_of_getLsbD_eq
  intro i hi
  simp only [bitWord, BitVec.getLsbD_and, BitVec.getLsbD_or, apply_ite (fun w => BitVec.getLsbD w i)]
  interval_cases i <;> simp

theorem and_0x888 (v : XWord x) :
    v &&& 0x888#x.bits = bitWord x.bits 3 (v.getLsbD 3) ||| bitWord x.bits 7 (v.getLsbD 7) |||
      bitWord x.bits 11 (v.getLsbD 11) := by
  cases x
  · exact and_0x888_32 v
  · exact and_0x888_64 v

theorem mppField (v : XWord x) :
    v.extractLsb' 11 2 = BitVec.ofBool (v.getLsbD 12) ++ BitVec.ofBool (v.getLsbD 11) := by
  apply BitVec.eq_of_getLsbD_eq
  intro i hi
  simp only [BitVec.getLsbD_extractLsb', BitVec.getLsbD_append]
  interval_cases i <;> simp

/-! ### Write rules as read back -/

theorem MStatus.read_fields_32 (c : Priv) : ∀ a b b3 b7 b11 b12 : Bool,
    (MStatus.read .rv32 ⟨b3, b7, (privOfCode (BitVec.ofBool b12 ++ BitVec.ofBool b11)).getD c⟩ : BitVec 32) =
      if BitVec.ofBool b12 ++ BitVec.ofBool b11 = 0b10#2 then
        ((MStatus.read .rv32 ⟨a, b, c⟩ : BitVec 32) &&& ~~~0x88#32) ||| (bitWord 32 3 b3 ||| bitWord 32 7 b7)
      else
        ((MStatus.read .rv32 ⟨a, b, c⟩ : BitVec 32) &&& ~~~0x1888#32) |||
          (bitWord 32 3 b3 ||| bitWord 32 7 b7 ||| bitWord 32 11 b11 ||| bitWord 32 12 b12) := by
  cases c <;> decide +kernel

theorem MStatus.read_fields_64 (c : Priv) : ∀ a b b3 b7 b11 b12 : Bool,
    (MStatus.read .rv64 ⟨b3, b7, (privOfCode (BitVec.ofBool b12 ++ BitVec.ofBool b11)).getD c⟩ : BitVec 64) =
      if BitVec.ofBool b12 ++ BitVec.ofBool b11 = 0b10#2 then
        ((MStatus.read .rv64 ⟨a, b, c⟩ : BitVec 64) &&& ~~~0x88#64) ||| (bitWord 64 3 b3 ||| bitWord 64 7 b7)
      else
        ((MStatus.read .rv64 ⟨a, b, c⟩ : BitVec 64) &&& ~~~0x1888#64) |||
          (bitWord 64 3 b3 ||| bitWord 64 7 b7 ||| bitWord 64 11 b11 ||| bitWord 64 12 b12) := by
  cases c <;> decide +kernel

/-- A write of `mstatus`, read back, is the rule of 10_state.md R39. -/
theorem MStatus.read_write (m : MStatus) (v : XWord x) :
    (m.write v).read x = csrWritten .mstatus (m.read x) v := by
  unfold csrWritten MStatus.write
  simp only
  rw [and_0x1888, and_0x88, mppField]
  cases x
  · exact MStatus.read_fields_32 m.mpp m.mie m.mpie _ _ _ _
  · exact MStatus.read_fields_64 m.mpp m.mie m.mpie _ _ _ _

theorem IrqBits.read_bits_32 : ∀ b3 b7 b11 : Bool,
    IrqBits.read 32 ⟨b3, b7, b11⟩ = bitWord 32 3 b3 ||| bitWord 32 7 b7 ||| bitWord 32 11 b11 := by decide

theorem IrqBits.read_bits_64 : ∀ b3 b7 b11 : Bool,
    IrqBits.read 64 ⟨b3, b7, b11⟩ = bitWord 64 3 b3 ||| bitWord 64 7 b7 ||| bitWord 64 11 b11 := by decide

/-- A write of `mie`, read back, is the rule of 10_state.md R42. -/
theorem IrqBits.read_ofWord (v : XWord x) : (IrqBits.ofWord v).read x.bits = v &&& 0x888#x.bits := by
  rw [and_0x888]
  cases x
  · exact IrqBits.read_bits_32 _ _ _
  · exact IrqBits.read_bits_64 _ _ _

namespace Hart

/-- A CSR that is written reads its write rule's value. -/
theorem csrValue_csrWrite (h : Hart x) (c : Csr) (v : XWord x) (hc : c.counts = false) :
    (h.csrWrite c v).csrValue c = csrWritten c (h.csrValue c) v := by
  cases c <;> first | (simp [Csr.counts] at hc; done) | rfl | skip
  · exact MStatus.read_write h.mstatus v
  · exact IrqBits.read_ofWord v

/-- Every other CSR reads as before. -/
theorem csrValue_csrWrite_ne (h : Hart x) (c d : Csr) (v : XWord x) (hd : d ≠ c) :
    (h.csrWrite c v).csrValue d = h.csrValue d := by
  cases c <;> first
    | rfl
    | (cases d <;> first | rfl | exact absurd rfl hd)

/-- Everything a CSR write leaves alone. -/
theorem csrWrite_frame (h : Hart x) (c : Csr) (v : XWord x) :
    (h.csrWrite c v).params = h.params ∧ (h.csrWrite c v).regs = h.regs ∧ (h.csrWrite c v).pc = h.pc ∧
      (h.csrWrite c v).priv = h.priv ∧ (h.csrWrite c v).irq = h.irq ∧ (h.csrWrite c v).cycleCtr = h.cycleCtr ∧
      (h.csrWrite c v).instretCtr = h.instretCtr ∧ (h.csrWrite c v).halted = h.halted ∧
      (h.csrWrite c v).memory = h.memory ∧ (h.csrWrite c v).deviceLog = h.deviceLog ∧
      (h.csrWrite c v).deviceDraws = h.deviceDraws ∧ (h.csrWrite c v).timeNow = h.timeNow ∧
      (h.csrWrite c v).timeDraws = h.timeDraws := by
  cases c <;> exact ⟨rfl, rfl, rfl, rfl, rfl, rfl, rfl, rfl, rfl, rfl, rfl, rfl, rfl⟩

/-- A CSR that does not change by itself does not depend on the clock, the counters, a register or the pc. -/
theorem csrValue_retire (h : Hart x) (d : Csr) (rd : Reg) (v : XWord x) (hd : d.counts = false) :
    (h.retire rd v).csrValue d = h.csrValue d := by
  cases d <;> first | rfl | (simp [Csr.counts] at hd)

theorem csrValue_sampled (h : Hart x) (c d : Csr) (hd : d.counts = false) :
    (h.csrSampled c).csrValue d = h.csrValue d := by
  rcases csrSampled_cases c h with ⟨_, _, e⟩ | ⟨_, e⟩
  · rw [e]
  · rw [e]; cases d <;> first | rfl | (simp [Csr.counts] at hd)

/-- Everything a CSR instruction that passes its checks does. -/
theorem csrDone (h : Hart x) (c : Csr) (rd : Reg) (writes : Bool) (v : XWord x)
    (hc : c.counts = true → writes = false) :
    h.CsrDone ((if writes then (h.csrSampled c).csrWrite c v else h.csrSampled c).retire rd (h.csrValue c)) c rd
      (if writes then some v else none) := by
  have hf : ∀ h1 : Hart x, h1 = (if writes then (h.csrSampled c).csrWrite c v else h.csrSampled c) →
      h1.params = h.params ∧ h1.regs = h.regs ∧ h1.pc = h.pc ∧ h1.priv = h.priv ∧ h1.irq = h.irq ∧
        h1.cycleCtr = h.cycleCtr ∧ h1.instretCtr = h.instretCtr ∧ h1.halted = h.halted ∧ h1.memory = h.memory ∧
        h1.deviceLog = h.deviceLog ∧ h1.deviceDraws = h.deviceDraws ∧
        h1.timeNow = (h.csrSampled c).timeNow ∧ h1.timeDraws = (h.csrSampled c).timeDraws := by
    rintro h1 rfl
    have hs : (h.csrSampled c).params = h.params ∧ (h.csrSampled c).regs = h.regs ∧ (h.csrSampled c).pc = h.pc ∧
        (h.csrSampled c).priv = h.priv ∧ (h.csrSampled c).irq = h.irq ∧ (h.csrSampled c).cycleCtr = h.cycleCtr ∧
        (h.csrSampled c).instretCtr = h.instretCtr ∧ (h.csrSampled c).halted = h.halted ∧
        (h.csrSampled c).memory = h.memory ∧ (h.csrSampled c).deviceLog = h.deviceLog ∧
        (h.csrSampled c).deviceDraws = h.deviceDraws := by
      cases c <;> exact ⟨rfl, rfl, rfl, rfl, rfl, rfl, rfl, rfl, rfl, rfl, rfl⟩
    cases writes with
    | false => simp [hs]
    | true => have := csrWrite_frame (h.csrSampled c) c v; simp [this, hs]
  obtain ⟨h1, e1⟩ : ∃ h1, h1 = (if writes then (h.csrSampled c).csrWrite c v else h.csrSampled c) := ⟨_, rfl⟩
  obtain ⟨f1, f2, f3, f4, f5, f6, f7, f8, f9, f10, f11, f12, f13⟩ := hf h1 e1
  rw [← e1]
  have hr := h1.retires_write (P := fun w => w = h.csrValue c) rd (h.csrValue c) (h1.pc + 4) rfl
  have hother : ∀ d, d.counts = false → (writes = true → d ≠ c) → h1.csrValue d = h.csrValue d := by
    intro d hd hne
    rw [e1]
    cases writes with
    | false => exact csrValue_sampled h c d hd
    | true => rw [if_pos rfl, csrValue_csrWrite_ne _ _ _ _ (hne rfl), csrValue_sampled h c d hd]
  exact
    { result := hr.result
      regs := fun r hne => (hr.regs r hne).trans (reg_congr f2 r)
      zero := hr.zero
      pc := by rw [← f3]; rfl
      instret := by rw [← f7]; rfl
      csrs := fun d hd hne => by rw [csrValue_retire _ _ _ _ hd, hother d hd fun _ => hne]
      kept := fun hp hd => by
        rw [csrValue_retire _ _ _ _ hd, hother c hd]
        intro hw; rw [hw] at hp; simp at hp
      written := fun u hu => by
        cases writes with
        | false => simp at hu
        | true =>
          simp only [if_true, Option.some.injEq] at hu
          have hd : c.counts = false := by
            cases hcc : c.counts with
            | false => rfl
            | true => exact absurd (hc hcc) (by simp)
          rw [csrValue_retire _ _ _ _ hd, e1, if_pos rfl, csrValue_csrWrite _ _ _ hd, csrValue_sampled h c c hd, hu]
      params := f1
      priv := f4
      irq := f5
      cycleCtr := f6
      halted := f8
      bytes := fun a => byteAt_congr f9 a
      devices := ⟨f10, f11⟩
      clock := fun h2 h3 => by
        rcases csrSampled_cases c h with ⟨_, _, e⟩ | ⟨hcc, _⟩
        · rw [e] at f12 f13; exact ⟨f12, f13⟩
        · rcases hcc with hcc | hcc
          · exact absurd hcc h2
          · exact absurd hcc h3
      sample := fun hcc => by
        rcases csrSampled_cases c h with ⟨h2, h3, _⟩ | ⟨_, e⟩
        · rcases hcc with hcc | hcc
          · exact absurd hcc h2
          · exact absurd hcc h3
        · rw [e] at f12
          have : (h1.retire rd (h.csrValue c)).timeNow = h.timeNext := f12
          rw [this]
          exact ⟨Nat.le_add_right _ _, rfl⟩ }

/-- An access that writes never names a counter: their addresses are read-only (10_state.md R31, R32). -/
theorem counts_of_csrAccess {p : Priv} {a : BitVec 12} {c : Csr} {writes : Bool}
    (h : csrAccess x p a writes = some c) (hc : c.counts = true) : writes = false := by
  have ha := csrAt_of_csrAccess h
  have hp := (csrAccess_isSome x p a writes).mp (by rw [h]; rfl)
  obtain ⟨hm, _, hw⟩ := hp
  cases writes with
  | false => rfl
  | true =>
    exfalso
    cases x <;> simp only [csrAddresses, List.mem_append, List.mem_cons, List.not_mem_nil, or_false] at hm
    · rcases hm with (rfl | rfl | rfl | rfl | rfl | rfl | rfl | rfl | rfl | rfl | rfl) | rfl | rfl | rfl <;>
      first
        | (refine hw ⟨rfl, ?_⟩; decide)
        | (simp [csrAt] at ha; subst ha; simp [Csr.counts] at hc)
    · rcases hm with rfl | rfl | rfl | rfl | rfl | rfl | rfl | rfl | rfl | rfl | rfl <;>
      first
        | (refine hw ⟨rfl, ?_⟩; decide)
        | (simp [csrAt] at ha; subst ha; simp [Csr.counts] at hc)

/-- One CSR instruction: an illegal instruction, or all of `CsrDone`. -/
theorem csrInstr_cases (h : Hart x) (i : Instr) (rd : Reg) (a : BitVec 12) (writes : Bool) (f : XWord x → XWord x) :
    (¬ CsrPermitted x h.priv a writes ∧ h.csrInstr i rd a writes f = h.illegal i) ∨
      ∃ c, csrAt x a = some c ∧ CsrPermitted x h.priv a writes ∧
        h.CsrDone (h.csrInstr i rd a writes f) c rd (if writes then some (f (h.csrValue c)) else none) := by
  unfold csrInstr
  cases e : csrAccess x h.priv a writes with
  | none => exact .inl ⟨(csrAccess_eq_none _ _ _ _).mp e, rfl⟩
  | some c =>
    exact .inr ⟨c, csrAt_of_csrAccess e, (csrAccess_isSome _ _ _ _).mp (by rw [e]; rfl),
      h.csrDone c rd writes _ (counts_of_csrAccess e)⟩

end Hart

end Sys2Proof.Machine
end

