-- ==== Sys2Proof/Laws/Words.lean ====
section
/-! SUPPORT. The numbers that immediates, shift amounts, word operands, masks and assembled bytes stand for. -/

namespace Sys2Proof.Machine

variable {x : Xlen}

/-- Sign extension keeps the signed value. -/
theorem signExtend_eq_ofInt {m n : Nat} (v : BitVec m) : v.signExtend n = BitVec.ofInt n v.toInt := by
  rfl

/-- Zeros appended below multiply the signed value by a power of 2. -/
theorem toInt_append_zeros {m : Nat} (v : BitVec m) (k : Nat) : (v ++ 0#k).toInt = 2 ^ k * v.toInt := by
  have h : (v ++ 0#k).toNat = 2 ^ k * v.toNat := by
    rw [BitVec.toNat_append]; simp [Nat.shiftLeft_eq, Nat.mul_comm]
  rw [BitVec.toInt_eq_toNat_cond, BitVec.toInt_eq_toNat_cond, h]
  have e : 2 ^ (m + k) = 2 ^ k * 2 ^ m := by rw [Nat.pow_add, Nat.mul_comm]
  have hk : 0 < 2 ^ k := Nat.two_pow_pos k
  by_cases c : 2 * v.toNat < 2 ^ m
  · have : 2 * (2 ^ k * v.toNat) < 2 ^ (m + k) := by rw [e]; nlinarith
    rw [if_pos c, if_pos this]; push_cast; ring
  · have : ¬ 2 * (2 ^ k * v.toNat) < 2 ^ (m + k) := by rw [e]; push Not at *; nlinarith
    rw [if_neg c, if_neg this]; push_cast; ring

/-- Adding an integer to a word's value, modulo 2^n. -/
theorem ofInt_toNat_add {n : Nat}
    (v : BitVec n) (d : Int) : BitVec.ofInt n ((v.toNat : Int) + d) = v + BitVec.ofInt n d := by
  apply BitVec.eq_of_toInt_eq
  rw [BitVec.toInt_add, BitVec.toInt_ofInt, BitVec.toInt_ofInt, BitVec.toInt_eq_toNat_bmod]
  simp [Int.bmod_add_bmod]

/-- The successor address, as `pcPlus` gives it. -/
theorem pcPlus_four (h : Hart x) : h.pcPlus 4 = h.pc + 4 := by
  unfold Hart.pcPlus; rw [ofInt_toNat_add]; congr 1

/-- A branch offset as a number. -/
theorem immB_eq (off : BitVec 12) : immB x off = BitVec.ofInt x.bits (2 * off.toInt) := by
  unfold immB; rw [signExtend_eq_ofInt, toInt_append_zeros]; rfl

/-- A jump offset as a number. -/
theorem immJ_eq (off : BitVec 20) : immJ x off = BitVec.ofInt x.bits (2 * off.toInt) := by
  unfold immJ; rw [signExtend_eq_ofInt, toInt_append_zeros]; rfl

/-- An upper immediate as a number. -/
theorem immU_eq (off : BitVec 20) : immU x off = BitVec.ofInt x.bits (4096 * off.toInt) := by
  unfold immU; rw [signExtend_eq_ofInt, toInt_append_zeros]; rfl

/-- A bit of an I or S immediate. -/
theorem imm12_getLsbD (imm : BitVec 12) (k : Nat)
    (hk : k < x.bits) : (imm12 x imm).getLsbD k = imm.getLsbD (min k 11) := by
  unfold imm12
  rw [BitVec.getLsbD_signExtend]
  simp only [hk, decide_true, Bool.true_and]
  split
  · rw [show min k 11 = k by omega]
  · rw [BitVec.msb_eq_getLsbD_last, show min k 11 = 11 by omega]

/-- Clearing bit 0 rounds down to an even number. -/
theorem clearBit0_toNat (v : XWord x) : (clearBit0 v).toNat = v.toNat / 2 * 2 := by
  have hn : 1 ≤ x.bits := by cases x <;> decide
  have key : clearBit0 v = (v >>> 1) <<< 1 := by
    apply BitVec.eq_of_getLsbD_eq
    intro i hi
    have h3 : (1#x.bits).getLsbD i = decide (i < 1) := by
      cases x <;> simp only [Xlen.bits] at hi ⊢ <;> interval_cases i <;> rfl
    simp only [clearBit0, BitVec.getLsbD_and, BitVec.getLsbD_not, h3, BitVec.getLsbD_shiftLeft,
    BitVec.getLsbD_ushiftRight, hi]
    by_cases h2 : i < 1
    · simp [h2]
    · simp [h2, show 1 + (i - 1) = i by omega]
  rw [key]
  have := v.isLt
  simp only [BitVec.toNat_shiftLeft, BitVec.toNat_ushiftRight, Nat.shiftLeft_eq, Nat.shiftRight_eq_div_pow]
  rw [Nat.mod_eq_of_lt (by omega)]

/-- Clearing bits 1 and 0 rounds down to a multiple of 4. -/
theorem and_not3_toNat (v : XWord x) : (v &&& ~~~3#x.bits).toNat = v.toNat / 4 * 4 := by
  have hn : 2 ≤ x.bits := by cases x <;> decide
  have key : (v &&& ~~~3#x.bits) = (v >>> 2) <<< 2 := by
    apply BitVec.eq_of_getLsbD_eq
    intro i hi
    have h3 : (3#x.bits).getLsbD i = decide (i < 2) := by
      cases x <;> simp only [Xlen.bits] at hi ⊢ <;> interval_cases i <;> rfl
    simp only [BitVec.getLsbD_and, BitVec.getLsbD_not, h3, BitVec.getLsbD_shiftLeft, BitVec.getLsbD_ushiftRight, hi]
    by_cases h2 : i < 2
    · simp [h2]
    · simp [h2, show 2 + (i - 2) = i by omega]
  rw [key]
  have := v.isLt
  simp only [BitVec.toNat_shiftLeft, BitVec.toNat_ushiftRight, Nat.shiftLeft_eq, Nat.shiftRight_eq_div_pow]
  rw [Nat.mod_eq_of_lt (by omega)]

/-- The result of a comparison as a number. -/
theorem boolWord_toNat (b : Bool) : (boolWord x b).toNat = if b then 1 else 0 := by
  cases b <;> cases x <;> rfl

/-- A register shift amount counts modulo XLEN. -/
theorem shiftAmount_eq (v : XWord x) : shiftAmount v = v.toNat % x.bits := by
  unfold shiftAmount; rw [BitVec.extractLsb'_toNat]; cases x <;> rfl

/-- A register word-shift amount counts modulo 32. -/
theorem shiftAmountW_eq (v : XWord .rv64) :
    shiftAmountW v = v.toNat % 32 := by unfold shiftAmountW; rw [BitVec.extractLsb'_toNat]; rfl

/-- An arithmetic right shift divides the signed value, rounding down. -/
theorem toInt_sshiftRight_eq_div {n : Nat} (v : BitVec n) (k : Nat) : (v.sshiftRight k).toInt = v.toInt / 2 ^ k := by
  rw [BitVec.toInt_sshiftRight, Int.shiftRight_eq_div_pow]
  norm_cast

/-- The low half of an operand as a number. -/
theorem low32_toNat (v : XWord .rv64) : (low32 v).toNat = v.toNat % 2 ^ 32 := by simp [low32]

/-- The low half of an integer modulo 2^64. -/
theorem low32_ofInt (d : Int) : low32 (x := .rv64) (BitVec.ofInt 64 d) = BitVec.ofInt 32 d := by
  apply BitVec.eq_of_toNat_eq
  rw [low32_toNat]
  simp only [BitVec.toNat_ofInt]
  have h1 : 0 ≤ d % 2 ^ 64 := Int.emod_nonneg _ (by decide)
  have h2 : 0 ≤ d % 2 ^ 32 := Int.emod_nonneg _ (by decide)
  show (d % ((2^64:Nat):Int)).toNat % 2^32 = (d % ((2^32:Nat):Int)).toNat
  norm_num
  omega

/-- The low half of an operand as a signed number. -/
theorem low32_toInt (v : XWord .rv64) : (low32 v).toInt = Int.bmod (v.toNat % 2 ^ 32 : Nat) (2 ^ 32) := by
  rw [BitVec.toInt_eq_toNat_bmod, low32_toNat]

/-- A sign-extended word result keeps its signed value. -/
theorem sext32_toInt (v : BitVec 32) : (sext32 .rv64 v).toInt = v.toInt := BitVec.toInt_signExtend_of_le (by decide)

/-- The high half of an exact product. -/
theorem ofInt_div_eq_high_half (n : Nat) (p : Int) : BitVec.ofInt n (p / 2 ^ n) = (BitVec.ofInt
    (2 * n) p).extractLsb' n n := by
  apply BitVec.eq_of_toNat_eq
  rw [BitVec.extractLsb'_toNat, BitVec.toNat_ofInt, BitVec.toNat_ofInt, Nat.shiftRight_eq_div_pow]
  have hp : (0:Int) < 2 ^ n := by positivity
  have e : ((2 ^ (2 * n) : Nat) : Int) = 2 ^ n * 2 ^ n := by push_cast; rw [← pow_add]; congr 1; omega
  have h1 : 0 ≤ p % ((2 ^ (2 * n) : Nat) : Int) := Int.emod_nonneg _ (by positivity)
  have h2 : 0 ≤ p / 2 ^ n % ((2 ^ n : Nat) : Int) := Int.emod_nonneg _ (by positivity)
  obtain ⟨a, ha⟩ := Int.eq_ofNat_of_zero_le h1
  obtain ⟨b, hb⟩ := Int.eq_ofNat_of_zero_le h2
  rw [ha, hb, Int.toNat_natCast, Int.toNat_natCast]
  zify
  rw [← ha, ← hb, e]
  push_cast
  have d := Int.mul_ediv_add_emod p (2 ^ n * 2 ^ n)
  have r0 : 0 ≤ p % (2 ^ n * 2 ^ n) := Int.emod_nonneg _ (by positivity)
  generalize p % (2 ^ n * 2 ^ n) = r at *
  generalize p / (2 ^ n * 2 ^ n) = q at *
  rw [← d, show (2:Int) ^ n * 2 ^ n * q + r = r + 2 ^ n * (2 ^ n * q) by ring, Int.add_mul_ediv_left _ _ hp.ne']
  rw [Int.add_mul_emod_self_left]

/-- Four bytes as one word, the first the least significant. -/
theorem wordOfBytes_toNat (b0 b1 b2 b3 : Byte) :
    (wordOfBytes b0 b1 b2 b3).toNat = b0.toNat + 256 * b1.toNat + 65536 * b2.toNat + 16777216 * b3.toNat := by
  have h0 := b0.isLt; have h1 := b1.isLt; have h2 := b2.isLt; have h3 := b3.isLt
  simp only [wordOfBytes, BitVec.toNat_cast, BitVec.toNat_append]
  rw [← Nat.shiftLeft_add_eq_or_of_lt h0, ← Nat.shiftLeft_add_eq_or_of_lt h1, ← Nat.shiftLeft_add_eq_or_of_lt h2]
  simp only [Nat.shiftLeft_eq]; omega

/-- The three bits `mie` and `mip` read. -/
theorem irqBits_read_bits (b : IrqBits) : (b.read x.bits).getLsbD 3 = b.msi ∧ (b.read x.bits).getLsbD 7 = b.mti ∧
    (b.read x.bits).getLsbD 11 = b.mei := by
  obtain ⟨p, q, r⟩ := b
  cases x <;> cases p <;> cases q <;> cases r <;> decide

/-- A field that a mask covers is the match's. -/
theorem field_of_mask {w m p : BitVec 32} (h : w &&& m = p) (s n : Nat) (hm : m.extractLsb' s n = BitVec.allOnes n) :
    w.extractLsb' s n = p.extractLsb' s n := by
  rw [← h]
  apply BitVec.eq_of_getLsbD_eq
  intro i hi
  have := congrArg (fun v => BitVec.getLsbD v i) hm
  simp [hi] at this
  simp [hi, this]

end Sys2Proof.Machine
end

