-- ==== Sys2Proof/Laws/Runs.lean ====
section
/-! SUPPORT. What a step is in each case, and what the loads, stores and CSR instructions are,
    said once for all of each shape. -/

namespace Sys2Proof.Machine

variable {x : Xlen}

/-- A word other than HALT_WORD decodes by the map. -/
theorem decodeWord_of_ne {x : Xlen} {hw w : BitVec 32} (hne : w ≠ hw) :
    decodeWord x hw w = match decodeMap x w with | some i => .ok i | none => .error (.illegalInstruction w) := by
  cases e : decodeMap x w <;> simp [decodeWord, hne, e]

/-- A word read from storage, byte by byte. -/
theorem storageRead_word_eq (h : Hart x) (a : Nat) :
    h.storageRead a .word = wordOfBytes (h.byteAt a) (h.byteAt (a+1)) (h.byteAt (a+2)) (h.byteAt (a+3)) := by
  apply BitVec.eq_of_toNat_eq
  have := wordOfBytes_toNat (h.byteAt a) (h.byteAt (a+1)) (h.byteAt (a+2)) (h.byteAt (a+3))
  refine Eq.trans ?_ this.symm
  rw [Hart.storageRead_toNat]
  simp [Finset.sum_range_succ, Width.bytes]; ring

/-- A fetch from executable storage gets the word there and changes nothing. -/
theorem fetch_of_storage {h : Hart x} (ha : h.pc.toNat % 4 = 0) (hr : h.ReachesStorage .fetch h.pc.toNat 4) :
    h.fetch = (.ok (h.storageRead h.pc.toNat .word), h) := by
  unfold Hart.fetch
  rw [if_pos ha, Hart.busRead_storage (w := .word) hr]

/-- A step whose fetch fails is the instruction access fault. -/
theorem step_of_fetch_error {h h' : Hart x} (hh : h.halted = false)
    (hf : h.fetch = (.error h.pc, h')) : StepTraps h 1 h.pc := by
  have hs := Hart.fetch_same h
  rw [hf] at hs
  refine stepTraps_of (.instrAccessFault h.pc) hs ?_
  unfold step State.cycle
  simp only [hh, hf, State.next, Hart.boundary_raise]
  rfl

/-- A step whose word does not decode is the illegal instruction. -/
theorem step_of_decode_error {x : Xlen} {h h' : Hart x} {w : BitVec 32} {d : DecodeError} (hh : h.halted = false)
    (hf : h.fetch = (.ok w, h'))
    (hd : decodeWord x h.params.haltWord w = .error d) : StepTraps h 2 (w.setWidth x.bits) := by
  have hs := Hart.fetch_same h
  rw [hf] at hs
  refine stepTraps_of (.illegalInstruction w) hs ?_
  unfold step State.cycle
  simp only [hh, hf]
  have hp : h'.params = h.params := hs.params
  simp only [hp, hd, State.next, Hart.boundary_raise]
  rfl

/-- A step whose word decodes is `exec`, then the end of the step. -/
theorem step_of_exec {h h' h1 : Hart x} {w : BitVec 32} {i : Instr} (hh : h.halted = false)
    (hf : h.fetch = (.ok w, h'))
    (hd : decodeWord x h.params.haltWord w = .ok i) (he : exec i ⟨x, h'⟩ = .next ⟨x, h1⟩) :
    step ⟨x, h⟩ = .next (State.endStep ⟨x, h1⟩) := by
  have hs := Hart.fetch_same h
  rw [hf] at hs
  have hp : h'.params = h.params := hs.params
  unfold step State.cycle
  simp only [hh, hf, hp, hd, he]
  simp

/-- Equal next states have equal harts. -/
theorem outcome_next_inj {h h1 : Hart x} (e : (Host.Outcome.next (⟨x, h⟩ : State) :
    Host.Outcome State Fault Refusal) = .next ⟨x, h1⟩) : h = h1 := by
  simpa using e

/-- What an instruction of XLEN 64 only can answer. -/
theorem only64_cases {i : Instr} {h h1 h2 : Hart x} (e : State.only64 ⟨x, h⟩ i h1 = .next ⟨x, h2⟩) :
    h2 = h1 ∨ h2 = h.illegal i := by
  unfold State.only64 State.next at e
  split at e
  · exact .inl (outcome_next_inj e).symm
  · exact .inr (outcome_next_inj e).symm

/-- What an instruction with an XLEN-wide shift amount can answer. -/
theorem ifShamt_cases {i : Instr} {s} {h h1 h2 : Hart x} (e : State.ifShamt ⟨x, h⟩ i s h1 = .next ⟨x, h2⟩) :
    h2 = h1 ∨ h2 = h.illegal i := by
  unfold State.ifShamt State.next at e
  split at e
  · exact .inl (outcome_next_inj e).symm
  · exact .inr (outcome_next_inj e).symm

/-- Every CSR instruction is `csrInstr` with the value it presents. -/
theorem exec_csr {i : Instr} {rd : Reg} {a : BitVec 12} {writes : Bool}
    (h : Hart x) (form : i.csrForm = some (rd, a, writes)) :
    ∃ f, exec i ⟨x, h⟩ = .next ⟨x, h.csrInstr i rd a writes f⟩ ∧
    (writes = true → ∀ old, f old = h.csrOperand i old) := by
  cases i <;> simp only [Instr.csrForm, Option.some.injEq, Prod.mk.injEq, reduceCtorEq] at form
  all_goals (obtain ⟨rfl, rfl, rfl⟩ := form; exact ⟨_, rfl, fun _ _ => rfl⟩)

/-- Every load that exists for the XLEN is `load`, with an extension that keeps the low bits. -/
theorem exec_load {i : Instr} {rd rs1 : Reg} {imm : BitVec 12} {w : Width}
    (h : Hart x) (form : i.loadForm = some (rd, rs1, imm, w)) (wf : i.wellFormed x = true) :
    ∃ f : BitVec w.bits → XWord x, (∀ v, (f v).toNat % 2 ^ w.bits = v.toNat) ∧ exec i ⟨x, h⟩ = .next ⟨x,
    h.load rd (h.eaOf rs1 imm) w f⟩ := by
  rw [← h.ea_eq_eaOf]
  have sx : ∀ (w : Width), w.bits ≤ x.bits → ∀ v : BitVec w.bits,
      ((v.signExtend x.bits).toNat) % 2 ^ w.bits = v.toNat := by
    intro w hw v
    have : (v.signExtend x.bits).setWidth w.bits = v := by
      apply BitVec.eq_of_getLsbD_eq
      intro j hj
      simp only [BitVec.getLsbD_setWidth, BitVec.getLsbD_signExtend]
      simp [hj, show j < x.bits by omega]
    have := congrArg BitVec.toNat this
    simpa using this
  have zx : ∀ (w : Width), w.bits ≤ x.bits → ∀ v : BitVec w.bits,
      ((v.setWidth x.bits).toNat) % 2 ^ w.bits = v.toNat := by
    intro w hw v
    rw [BitVec.toNat_setWidth, Nat.mod_mod_of_dvd _ (Nat.pow_dvd_pow 2 hw), Nat.mod_eq_of_lt v.isLt]
  have hb : Width.byte.bits ≤ x.bits ∧ Width.half.bits ≤ x.bits ∧ Width.word.bits ≤ x.bits := by cases x <;> decide
  cases i <;> simp only [Instr.loadForm, Option.some.injEq, Prod.mk.injEq, reduceCtorEq] at form
  all_goals obtain ⟨rfl, rfl, rfl, rfl⟩ := form
  case lb => exact ⟨_, sx _ hb.1, rfl⟩
  case lh => exact ⟨_, sx _ hb.2.1, rfl⟩
  case lw => exact ⟨_, sx _ hb.2.2, rfl⟩
  case lbu => exact ⟨_, zx _ hb.1, rfl⟩
  case lhu => exact ⟨_, zx _ hb.2.1, rfl⟩
  case lwu =>
    simp [Instr.wellFormed, Instr.rv64Only, Instr.xlenShamt] at wf
    subst wf
    exact ⟨_, zx _ hb.2.2, rfl⟩
  case ld =>
    simp [Instr.wellFormed, Instr.rv64Only, Instr.xlenShamt] at wf
    subst wf
    exact ⟨_, zx _ (by decide), rfl⟩

/-- Every store that exists for the XLEN is `store`. -/
theorem exec_store {i : Instr} {rs2 rs1 : Reg} {imm : BitVec 12} {w : Width}
    (h : Hart x) (form : i.storeForm = some (rs2, rs1, imm, w)) (wf : i.wellFormed x = true) :
    exec i ⟨x, h⟩ = .next ⟨x, h.store (h.eaOf rs1 imm) w (h.reg rs2)⟩ := by
  rw [← h.ea_eq_eaOf]
  cases i <;> simp only [Instr.storeForm, Option.some.injEq, Prod.mk.injEq, reduceCtorEq] at form
  all_goals obtain ⟨rfl, rfl, rfl, rfl⟩ := form
  case sd =>
    simp [Instr.wellFormed, Instr.rv64Only, Instr.xlenShamt] at wf
    subst wf
    rfl
  all_goals rfl

/-- A machine CSR is accessed in M mode only. -/
theorem priv_of_machine_csr {p : Priv} {a : BitVec 12} {w : Bool} {c : Csr} (h : csrAccess x p a w = some c)
    (ha : (a.extractLsb' 8 2).toNat = 3) : p = .machine := by
  unfold csrAccess at h
  split at h
  · simp at h
  · rename_i d hd
    split at h
    · simp at h
    · rename_i hl
      cases p <;> simp [Priv.code, ha] at hl ⊢

/-- A bus write leaves every byte outside it. -/
theorem byteAt_busWriteDo_same (h : Hart x) (a : Nat) (w : Width) (v : BitVec w.bits) (ok : Bool) (k : Nat)
    (hk : ¬ (a ≤ k ∧ k < a + w.bytes)) :
    (h.busWriteDo a w v ok).byteAt k = h.byteAt k := by
  rcases Hart.busWriteDo_cases h a w v ok with s | e
  · exact s.byteAt k
  · rw [e, Hart.byteAt_storageWrite, if_neg hk]

/-- The perform pass of a split store leaves every byte it does not name. -/
theorem byteAt_splitWrite_same (ea : XWord x) {m : Nat} (v : BitVec m) (n i : Nat) (h : Hart x) (k : Nat)
    (hk : ∀ j < n, k ≠ byteAddr ea (i + j)) : (Hart.splitWrite ea v n i h).byteAt k = h.byteAt k := by
  induction n generalizing i h with
  | zero => rfl
  | succ n ih =>
    unfold Hart.splitWrite
    rw [ih]
    · apply byteAt_busWriteDo_same
      have := hk 0 (by omega)
      rw [byteAddr_eq, show Width.byte.bytes = 1 from rfl]
      simp at this; omega
    · intro j hj
      have := hk (j + 1) (by omega)
      rwa [show i + 1 + j = i + (j + 1) by omega]

/-- `MemWrite` leaves every byte outside the access. -/
theorem byteAt_memWrite_same (ea : XWord x) (w : Width) (v : BitVec w.bits) (h : Hart x) (k : Nat)
    (hk : ¬ InAccess ea w k) :
    (h.memWrite ea w v).2.byteAt k = h.byteAt k := by
  unfold Hart.memWrite
  split
  · rename_i ha
    have s := Hart.busWriteOk_same h ea.toNat w v
    have hk' : ¬ (ea.toNat ≤ k ∧ k < ea.toNat + w.bytes) := by
      rintro ⟨a, b⟩
      exact hk ⟨k - ea.toNat, by omega, by rw [byteAddr_aligned ha (by omega)]; omega⟩
    split <;> rename_i e <;> rw [e] at s <;> simp only <;> rw [byteAt_busWriteDo_same _ _ _ _ _ _ hk'] <;> exact s.byteAt k
  · split
    · rfl
    · have s := Hart.splitCheck_same ea v w.bytes 0 h
      split <;> rename_i e <;> rw [e] at s
      · exact s.byteAt k
      · simp only
        rw [byteAt_splitWrite_same]
        · exact s.byteAt k
        · intro j hj e
          exact hk ⟨j, hj, by simpa using e⟩

/-- A store leaves every byte outside its access, also when it faults. -/
theorem byteAt_store_same (ea : XWord x) (w : Width) (v : XWord x) (h : Hart x) (k : Nat) (hk : ¬ InAccess ea w k) :
    (h.store ea w v).byteAt k = h.byteAt k := by
  have := byteAt_memWrite_same ea w (v.setWidth w.bits) h k hk
  unfold Hart.store
  split <;> (rename_i e; rw [e] at this; exact this)

/-- A load whose access gives a value retires. -/
theorem Hart.load_ok {h : Hart x} {rd : Reg} {ea : XWord x} {w : Width} {f : BitVec w.bits → XWord x}
    {v : BitVec w.bits} {h1 : Hart x} (e : h.memRead ea w = (.ok v, h1)) : h.load rd ea w f = h1.retire rd (f v) := by
  simp [Hart.load, e]

/-- A load whose access faults raises the load access fault. -/
theorem Hart.load_error {h : Hart x} {rd : Reg} {ea : XWord x} {w : Width} {f : BitVec w.bits → XWord x}
    {a : XWord x} {h1 : Hart x} (e : h.memRead ea w = (.error a, h1)) :
    h.load rd ea w f = h1.raise (.loadAccessFault a) := by
  simp [Hart.load, e]

/-- A store whose access succeeds advances. -/
theorem Hart.store_ok {h : Hart x} {ea v : XWord x} {w : Width} {h1 : Hart x}
    (e : h.memWrite ea w (v.setWidth w.bits) = (none, h1)) : h.store ea w v = h1.advance := by
  simp [Hart.store, e]

/-- A store whose access faults raises the store access fault. -/
theorem Hart.store_error {h : Hart x} {ea v : XWord x} {w : Width} {a : XWord x} {h1 : Hart x}
    (e : h.memWrite ea w (v.setWidth w.bits) = (some a, h1)) : h.store ea w v = h1.raise (.storeAccessFault a) := by
  simp [Hart.store, e]

/-- An instruction that raises nothing by 60_exceptions.md R362 retires, or is HALT. -/
theorem exec_of_not_raises {i : Instr} {h h1 : Hart x} (e : exec i ⟨x, h⟩ = .next ⟨x, h1⟩) (hr : ¬ h.Raises i) :
    i = .halt ∨ h1.instretCtr = h.instretCtr + 1 := by
  simp only [Hart.Raises, not_or] at hr
  obtain ⟨wf, call, brk, ret, csr, ld, st⟩ := hr
  have wf : i.wellFormed x = true := by simpa using wf
  by_cases hl : i.loadForm = none
  swap
  · obtain ⟨⟨rd, rs1, imm, w⟩, form⟩ := Option.ne_none_iff_exists'.mp hl
    obtain ⟨f, _, e2⟩ := exec_load h form wf
    obtain rfl := outcome_next_inj (e2.symm.trans e)
    have hs := Hart.memRead_same (h.eaOf rs1 imm) w h
    rcases hm : h.memRead (h.eaOf rs1 imm) w with ⟨a | v, g⟩
    · exact absurd ⟨rd, rs1, imm, w, a, form, by rw [hm]⟩ ld
    · rw [hm] at hs
      rw [Hart.load_ok hm]
      exact .inr (by show g.instretCtr + 1 = _; rw [hs.instretCtr])
  by_cases hst : i.storeForm = none
  swap
  · obtain ⟨⟨rs2, rs1, imm, w⟩, form⟩ := Option.ne_none_iff_exists'.mp hst
    obtain rfl := outcome_next_inj ((exec_store h form wf).symm.trans e)
    have hs := Hart.memWrite_frame (h.eaOf rs1 imm) w ((h.reg rs2).setWidth w.bits) h
    rcases hm : h.memWrite (h.eaOf rs1 imm) w ((h.reg rs2).setWidth w.bits) with ⟨_ | a, g⟩
    · rw [hm] at hs
      rw [Hart.store_ok hm]
      exact .inr (by show g.instretCtr + 1 = _; rw [hs.instretCtr])
    · exact absurd ⟨rs2, rs1, imm, w, a, form, by rw [hm]⟩ st
  cases effect_of_exec e with
  | write => exact .inr rfl
  | load _ _ _ _ form => exact absurd hl form
  | store _ _ _ _ form => exact absurd hst form
  | csr c rd a writes v => right; cases writes <;> cases c <;> rfl
  | mret => exact .inr rfl
  | halt is => exact .inl is
  | trap h' exc same may =>
    exfalso
    cases exc with
    | instrAccessFault => exact may
    | illegalInstruction w =>
      rcases may.2 with h2 | h2 | h2
      · simp [wf] at h2
      · exact ret h2
      · exact csr h2
    | breakpoint => exact brk may.1
    | envCallFromU | envCallFromS | envCallFromM => exact call may.1
    | loadAccessFault => exact may hl
    | storeAccessFault => exact may hst

/-- An instruction that raises by 60_exceptions.md R362 takes the trap of one of its exceptions. -/
theorem exec_of_raises {i : Instr} {h : Hart x} (hr : h.Raises i) :
    ∃ (h' : Hart x) (e : Exc x), h.SameButDevices h' ∧ exec i ⟨x, h⟩ = .next ⟨x, h'.raise e⟩ := by
  by_cases wf : i.wellFormed x = false
  · refine ⟨h, .illegalInstruction (h.wordOf i), .refl h, ?_⟩
    have no64 : i.rv64Only = true → x ≠ .rv64 → exec i ⟨x, h⟩ = .next ⟨x, h.illegal i⟩ := by
      intro hi hx
      cases i <;> simp only [Instr.rv64Only, Bool.false_eq_true] at hi <;>
        exact if_neg (c := x = .rv64) hx
    have noSh : ∀ s, i.xlenShamt = some s → ¬ s.toNat < x.bits → exec i ⟨x, h⟩ = .next ⟨x, h.illegal i⟩ := by
      intro s hi hx
      cases i <;> simp only [Instr.xlenShamt, reduceCtorEq, Option.some.injEq] at hi <;> subst hi <;>
        exact if_neg (c := _ < x.bits) hx
    rw [Instr.wellFormed, Bool.and_eq_false_iff] at wf
    rcases wf with wf | wf
    · simp only [Bool.or_eq_false_iff, Bool.not_eq_false', decide_eq_false_iff_not] at wf
      exact no64 wf.1 wf.2
    · split at wf
      · rename_i s hs; exact noSh s hs (by simpa using wf)
      · simp at wf
  · rcases hr with h1 | rfl | rfl | ⟨rfl, hp⟩ | ⟨rd, a, writes, form, hn⟩ | ⟨rd, rs1, imm, w, a, form, hm⟩ |
      ⟨rs2, rs1, imm, w, a, form, hm⟩
    · exact absurd h1 wf
    · exact ⟨h, envCall x h.priv, .refl h, rfl⟩
    · exact ⟨h, .breakpoint h.pc, .refl h, rfl⟩
    · exact ⟨h, .illegalInstruction (h.wordOf .mret), .refl h, by simp [exec, execMret, hp, State.next]; rfl⟩
    · obtain ⟨f, e, _⟩ := exec_csr h form
      refine ⟨h, .illegalInstruction (h.wordOf i), .refl h, ?_⟩
      rw [e, Hart.csrInstr, (csrAccess_eq_none _ _ _ _).mpr hn]; rfl
    · obtain ⟨f, _, e⟩ := exec_load h form (by simpa using wf)
      have hs := Hart.memRead_same (h.eaOf rs1 imm) w h
      exact ⟨_, _, hs, by rw [e, Hart.load_error (Prod.ext hm rfl)]⟩
    · have e := exec_store h form (by simpa using wf)
      exact ⟨_, _, Hart.memWrite_refused (Prod.ext hm rfl), by rw [e, Hart.store_error (Prod.ext hm rfl)]⟩

end Sys2Proof.Machine
end

