-- ==== Sys2Proof/Laws/Devices.lean ====
section
/-! SUPPORT. Accesses that reach a device: an aligned one, and a split one some of whose bytes are a device's
(20_memory.md R84, R92 to R94; logs 5, 6, 7). -/

namespace Sys2Proof.Machine

variable {x : Xlen}

/-! ### What a load leaves of the value read -/

/-- Every load that exists for the XLEN is `load`, with the extension its instruction names. -/
theorem exec_load_as {i : Instr} {rd rs1 : Reg} {imm : BitVec 12} {w : Width}
    (h : Hart x) (form : i.loadForm = some (rd, rs1, imm, w))
    (wf : i.wellFormed x = true) :
    ∃ f : BitVec w.bits → XWord x, (∀ v : BitVec w.bits, LoadedAs i v (f v)) ∧
      exec i ⟨x, h⟩ = .next ⟨x, h.load rd (h.eaOf rs1 imm) w f⟩ := by
  rw [← h.ea_eq_eaOf]
  have zx : ∀ (w : Width), w.bits ≤ x.bits → ∀ v : BitVec w.bits, (v.setWidth x.bits).toNat = v.toNat := by
    intro w hw v
    rw [BitVec.toNat_setWidth, Nat.mod_eq_of_lt (Nat.lt_of_lt_of_le v.isLt (Nat.pow_le_pow_right (by decide) hw))]
  have sx : ∀ (w : Width), w.bits ≤ x.bits → ∀ v : BitVec w.bits, (v.signExtend x.bits).toInt = v.toInt :=
    fun w hw v => BitVec.toInt_signExtend_of_le hw
  have hb : Width.byte.bits ≤ x.bits ∧ Width.half.bits ≤ x.bits ∧ Width.word.bits ≤ x.bits := by cases x <;> decide
  cases i <;> simp only [Instr.loadForm, Option.some.injEq, Prod.mk.injEq, reduceCtorEq] at form
  all_goals obtain ⟨rfl, rfl, rfl, rfl⟩ := form
  case lb => exact ⟨_, sx _ hb.1, rfl⟩
  case lh => exact ⟨_, sx _ hb.2.1, rfl⟩
  case lw => exact ⟨_, sx _ hb.2.2, rfl⟩
  case lbu => exact ⟨_, zx _ hb.1, rfl⟩
  case lhu => exact ⟨_, zx _ hb.2.1, rfl⟩
  case lwu =>
    simp [Instr.wellFormed, Instr.rv64Only, Instr.xlenShamt] at wf
    subst wf
    exact ⟨_, zx _ hb.2.2, rfl⟩
  case ld =>
    simp [Instr.wellFormed, Instr.rv64Only, Instr.xlenShamt] at wf
    subst wf
    exact ⟨fun v => v.setWidth _, fun v => by simp only [LoadedAs, Instr.zeroExtends]; rfl, rfl⟩

/-! ### Retiring and trapping after device accesses -/

/-- What retiring a load leaves, its accesses having changed only the devices. -/
theorem Hart.deviceRetires_retire {h h' : Hart x} {rd : Reg} {v : XWord x} {P : XWord x → Prop}
    {events : List DeviceEvent} {draws : Nat} (s : h.SameButMemory h') (hp : P v)
    (log : h'.deviceLog = h.deviceLog ++ events) (dr : h'.deviceDraws = h.deviceDraws + draws) :
    h.DeviceRetires (h'.retire rd v) rd P events draws where
  control := ⟨s.params, s.priv, s.mstatus, s.mie, s.irq, s.mtvec, s.mepc, s.mcause, s.mtval, s.cycleCtr, s.halted,
    s.timeNow, s.timeDraws⟩
  regs r hr := by
    rw [show (h'.retire rd v).reg r = (h'.setReg rd v).reg r from rfl, Hart.reg_setReg, if_neg fun e => hr e.1, s.reg]
  zero := Hart.reg_zero _
  pc := by show h'.pc + 4 = _; rw [s.pc]
  instret := by show h'.instretCtr + 1 = _; rw [s.instretCtr]
  result hr := by
    rwa [show (h'.retire rd v).reg rd = (h'.setReg rd v).reg rd from rfl, Hart.reg_setReg, if_pos ⟨rfl, hr⟩]
  log := log
  draws := dr

/-- What retiring a store leaves, its accesses having changed only the memory and the devices. -/
theorem Hart.deviceRetires_advance {h h' : Hart x} {events : List DeviceEvent} {draws : Nat} (s : h.SameButMemory h')
    (log : h'.deviceLog = h.deviceLog ++ events) (dr : h'.deviceDraws = h.deviceDraws + draws) :
    h.DeviceRetires h'.advance 0 (fun _ => True) events draws where
  control := ⟨s.params, s.priv, s.mstatus, s.mie, s.irq, s.mtvec, s.mepc, s.mcause, s.mtval, s.cycleCtr, s.halted,
    s.timeNow, s.timeDraws⟩
  regs r _ := s.reg r
  zero := Hart.reg_zero _
  pc := by show h'.pc + 4 = _; rw [s.pc]
  instret := by show h'.instretCtr + 1 = _; rw [s.instretCtr]
  result _ := trivial
  log := log
  draws := dr

/-- A trap after accesses that changed only the devices. -/
theorem Hart.deviceTraps_raise {h h' : Hart x} {e : Exc x} {events : List DeviceEvent} {draws : Nat}
    (s : h.SameButDevices h') (log : h'.deviceLog = h.deviceLog ++ events)
    (dr : h'.deviceDraws = h.deviceDraws + draws) : h.DeviceTraps (h'.raise e) e.code e.value events draws where
  trapped := .of_same s (h'.trapped_raise e)
  log := log
  draws := dr

/-! ### One byte of a split access -/

namespace Hart

/-- The hart after the first `i` byte reads of a split load. -/
def afterReads (h : Hart x) (ea : XWord x) (i : Nat) : Hart x :=
  { h with
    deviceLog := h.deviceLog ++ h.splitReadEvents ea i
    deviceDraws := h.deviceDraws + h.deviceCount .read ea i }

/-- The hart after the first `i` byte checks of a split store. -/
def afterChecks (h : Hart x) (ea : XWord x) (i : Nat) : Hart x :=
  { h with deviceDraws := h.deviceDraws + h.deviceCount .write ea i }

theorem splitReadEvents_succ (h : Hart x) (ea : XWord x) (i : Nat) :
    h.splitReadEvents ea (i + 1) = h.splitReadEvents ea i ++
      match h.deviceAt .read (byteAddr ea i) with
      | some r => [.read r (byteAddr ea i - r.base) .byte (h.splitAnswer ea i).isSome]
      | none => [] := by
  rw [splitReadEvents, List.range_succ, List.flatMap_append, List.flatMap_singleton]; rfl

/-- The write the device of byte `i` of a split store sees, if the byte is a device's. -/
def writeEvent (h : Hart x) (ea v : XWord x) (i : Nat) : List DeviceEvent :=
  match h.deviceAt .write (byteAddr ea i) with
  | some r => [.write r (byteAddr ea i - r.base) .byte ((byteOf v i).setWidth 64) true]
  | none => []

theorem writeEvent_congr {h h1 : Hart x} (e : h1.params = h.params) (ea v : XWord x) (i : Nat) :
    h1.writeEvent ea v i = h.writeEvent ea v i := by simp [writeEvent, deviceAt, e]

theorem afterReads_zero (h : Hart x) (ea : XWord x) : h.afterReads ea 0 = h := by
  simp [afterReads, splitReadEvents, deviceCount]

theorem afterChecks_zero (h : Hart x) (ea : XWord x) : h.afterChecks ea 0 = h := rfl

theorem afterReads_same (h : Hart x) (ea : XWord x) (i : Nat) : h.SameButDevices (h.afterReads ea i) := rfl

theorem afterChecks_same (h : Hart x) (ea : XWord x) (i : Nat) : h.SameButDevices (h.afterChecks ea i) := rfl

/-- The read of byte `i` of a split load. -/
theorem busRead_afterReads (h : Hart x) (ea : XWord x) (i : Nat) :
    (h.afterReads ea i).busRead .read (byteAddr ea i) .byte = (h.splitAnswer ea i, h.afterReads ea (i + 1)) := by
  have hs := h.splitReadEvents_succ ea i
  unfold busRead splitAnswer
  rw [show (h.afterReads ea i).params.regions = h.params.regions from rfl, show Width.byte.bytes = 1 from rfl]
  cases hr : regionFor h.params.regions .read (byteAddr ea i) 1 with
  | none =>
    have hd : h.deviceAt .read (byteAddr ea i) = none := by simp [deviceAt, hr]
    rw [hd] at hs
    simp [afterReads, hs, deviceCount, hd]
  | some r =>
    by_cases hk : r.kind = .device
    · have hd : h.deviceAt .read (byteAddr ea i) = some r := by simp [deviceAt, hr, hk]
      have ha : h.splitAnswer ea i = Config.deviceRead (h.deviceDraws + h.deviceCount .read ea i) r
          (byteAddr ea i - r.base) .byte := by simp only [splitAnswer, hr, hk, if_true]
      rw [hd, ha] at hs
      simp [afterReads, hs, deviceCount, hd, hk, deviceRead, drawDevice, logDevice, Nat.add_assoc]
    · have hd : h.deviceAt .read (byteAddr ea i) = none := by simp [deviceAt, hr, hk]
      rw [hd] at hs
      have hb : (h.afterReads ea i).storageRead (byteAddr ea i) .byte = h.byteAt (byteAddr ea i) := by
        apply BitVec.eq_of_toNat_eq
        rw [storageRead_toNat]
        simp [Width.bytes, byteAt_congr (show (h.afterReads ea i).memory = h.memory from rfl)]
      simp only [hk, if_false, hb]
      simp [afterReads, hs, deviceCount, hd]

/-- The check of byte `i` of a split store. -/
theorem busWriteOk_afterChecks (h : Hart x) (ea v : XWord x) (i : Nat) :
    (h.afterChecks ea i).busWriteOk (byteAddr ea i) .byte (byteOf v i) =
      (h.splitTakes ea v i, h.afterChecks ea (i + 1)) := by
  unfold busWriteOk splitTakes
  rw [show (h.afterChecks ea i).params.regions = h.params.regions from rfl, show Width.byte.bytes = 1 from rfl]
  cases hr : regionFor h.params.regions .write (byteAddr ea i) 1 with
  | none =>
    have hd : h.deviceAt .write (byteAddr ea i) = none := by simp [deviceAt, hr]
    simp [afterChecks, deviceCount, hd]
  | some r =>
    by_cases hk : r.kind = .device
    · have hd : h.deviceAt .write (byteAddr ea i) = some r := by simp [deviceAt, hr, hk]
      simp [afterChecks, deviceCount, hd, hk, drawDevice, Nat.add_assoc]
    · have hd : h.deviceAt .write (byteAddr ea i) = none := by simp [deviceAt, hr, hk]
      simp [afterChecks, deviceCount, hd, hk]

theorem splitAnswer_storage {h : Hart x} {ea : XWord x} {i : Nat} (hs : h.ReachesStorage .read (byteAddr ea i) 1) :
    h.splitAnswer ea i = some (h.byteAt (byteAddr ea i)) := by
  obtain ⟨r, hr, hk⟩ := hs
  simp [splitAnswer, hr, hk]

theorem splitAnswer_unmapped {h : Hart x} {ea : XWord x} {i : Nat} (hu : h.Unmapped .read (byteAddr ea i) 1) :
    h.splitAnswer ea i = none := by
  simp only [Unmapped] at hu; simp [splitAnswer, hu]

theorem splitTakes_storage {h : Hart x} {ea v : XWord x} {i : Nat} (hs : h.ReachesStorage .write (byteAddr ea i) 1) :
    h.splitTakes ea v i = true := by
  obtain ⟨r, hr, hk⟩ := hs
  simp [splitTakes, hr, hk]

theorem splitTakes_unmapped {h : Hart x} {ea v : XWord x} {i : Nat} (hu : h.Unmapped .write (byteAddr ea i) 1) :
    h.splitTakes ea v i = false := by
  simp only [Unmapped] at hu; simp [splitTakes, hu]

/-! ### Split loads -/

/-- A split load whose bytes are all answered. -/
theorem splitRead_answered {h : Hart x} {ea : XWord x} {b : Nat → Byte} {n i : Nat}
    (hb : ∀ j < n, h.splitAnswer ea (i + j) = some (b (i + j))) :
    splitRead ea n i (h.afterReads ea i) =
      (.ok ((List.range n).map fun j => b (i + j)), h.afterReads ea (i + n)) := by
  induction n generalizing i with
  | zero => rfl
  | succ n ih =>
    have h0 := hb 0 (by omega)
    rw [Nat.add_zero] at h0
    unfold splitRead
    rw [byteAddr_eq, busRead_afterReads, h0]
    simp only
    rw [ih (i := i + 1) (fun j hj => by
      have := hb (j + 1) (by omega); rwa [show i + (j + 1) = i + 1 + j by omega] at this)]
    simp only [List.range_succ_eq_map, List.map_cons, List.map_map, Nat.add_zero]
    rw [show i + 1 + n = i + (n + 1) by omega]
    congr 3
    refine List.map_congr_left fun j _ => ?_
    simp only [Function.comp, Nat.succ_eq_add_one]
    rw [show i + 1 + j = i + (j + 1) by omega]

/-- A split load whose byte `k` is the first to fault. -/
theorem splitRead_unanswered {h : Hart x} {ea : XWord x} {n i k : Nat} (hk : k < n)
    (hn : h.splitAnswer ea (i + k) = none) (hb : ∀ j < k, h.splitAnswer ea (i + j) ≠ none) :
    splitRead ea n i (h.afterReads ea i) =
      (.error (ea + BitVec.ofNat x.bits (i + k)), h.afterReads ea (i + k + 1)) := by
  induction n generalizing i k with
  | zero => omega
  | succ n ih =>
    unfold splitRead
    rw [byteAddr_eq, busRead_afterReads]
    cases k with
    | zero => rw [Nat.add_zero] at hn; rw [hn]; rfl
    | succ k =>
      obtain ⟨b, h0⟩ := Option.ne_none_iff_exists'.mp (hb 0 (by omega))
      rw [Nat.add_zero] at h0
      rw [h0]
      simp only
      rw [ih (i := i + 1) (k := k) (by omega) (by rwa [show i + 1 + k = i + (k + 1) by omega])
        (fun j hj => by have := hb (j + 1) (by omega); rwa [show i + (j + 1) = i + 1 + j by omega] at this)]
      simp only [show i + 1 + k = i + (k + 1) by omega]

/-- A misaligned load under `Split` whose bytes are all answered. -/
theorem memRead_split {h : Hart x} {ea : XWord x} {w : Width} {b : Nat → Byte} (ha : ea.toNat % w.bytes ≠ 0)
    (hp : h.params.misaligned = .split) (hb : ∀ j < w.bytes, h.splitAnswer ea j = some (b j)) :
    h.memRead ea w =
      (.ok (BitVec.ofNat w.bits (∑ j ∈ Finset.range w.bytes, (b j).toNat * 256 ^ j)), h.afterReads ea w.bytes) := by
  have hr := splitRead_answered (h := h) (ea := ea) (b := b) (n := w.bytes) (i := 0)
    (fun j hj => by simpa using hb j hj)
  rw [afterReads_zero] at hr
  unfold memRead
  rw [if_neg ha, hp]
  simp only [hr, Nat.zero_add]
  rw [littleEndian_eq_sum]

/-- A misaligned load under `Split` whose byte `k` is the first to fault. -/
theorem memRead_splitFault {h : Hart x} {ea a : XWord x} {w : Width} {k : Nat} (ha : ea.toNat % w.bytes ≠ 0)
    (hp : h.params.misaligned = .split) (hk : k < w.bytes) (hak : a.toNat = byteAddr ea k)
    (hn : h.splitAnswer ea k = none) (hb : ∀ j < k, h.splitAnswer ea j ≠ none) :
    h.memRead ea w = (.error a, h.afterReads ea (k + 1)) := by
  have hr := splitRead_unanswered (h := h) (ea := ea) (i := 0) hk (by simpa using hn)
    (fun j hj => by simpa using hb j hj)
  rw [afterReads_zero] at hr
  unfold memRead
  rw [if_neg ha, hp]
  simp only [hr, Nat.zero_add]
  congr 2
  exact BitVec.eq_of_toNat_eq (by rw [byteAddr_eq, hak])

/-! ### Split stores -/

/-- The check pass of a split store whose bytes can all be written. -/
theorem splitCheck_taken {h : Hart x} {ea v : XWord x} {n i : Nat}
    (hb : ∀ j < n, h.splitTakes ea v (i + j) = true) :
    splitCheck ea v n i (h.afterChecks ea i) = (none, h.afterChecks ea (i + n)) := by
  induction n generalizing i with
  | zero => rfl
  | succ n ih =>
    have h0 := hb 0 (by omega)
    rw [Nat.add_zero] at h0
    unfold splitCheck
    rw [byteAddr_eq, busWriteOk_afterChecks, h0]
    simp only
    rw [ih (i := i + 1) (fun j hj => by
      have := hb (j + 1) (by omega); rwa [show i + (j + 1) = i + 1 + j by omega] at this),
      show i + 1 + n = i + (n + 1) by omega]

/-- The check pass of a split store whose byte `k` is the first that cannot be written. -/
theorem splitCheck_refused {h : Hart x} {ea v : XWord x} {n i k : Nat} (hk : k < n)
    (hn : h.splitTakes ea v (i + k) = false) (hb : ∀ j < k, h.splitTakes ea v (i + j) = true) :
    splitCheck ea v n i (h.afterChecks ea i) =
      (some (ea + BitVec.ofNat x.bits (i + k)), h.afterChecks ea (i + k + 1)) := by
  induction n generalizing i k with
  | zero => omega
  | succ n ih =>
    unfold splitCheck
    rw [byteAddr_eq, busWriteOk_afterChecks]
    cases k with
    | zero => rw [Nat.add_zero] at hn; rw [hn]; rfl
    | succ k =>
      have h0 := hb 0 (by omega)
      rw [Nat.add_zero] at h0
      rw [h0]
      simp only
      rw [ih (i := i + 1) (k := k) (by omega) (by rwa [show i + 1 + k = i + (k + 1) by omega])
        (fun j hj => by have := hb (j + 1) (by omega); rwa [show i + (j + 1) = i + 1 + j by omega] at this)]
      simp only [show i + 1 + k = i + (k + 1) by omega]

/-- A check or a write of the low bytes of a value does not see its other bytes. -/
theorem byteOf_setWidth {n m : Nat} (v : BitVec n) {i : Nat} (hi : 8 * i + 8 ≤ m) :
    byteOf (v.setWidth m) i = byteOf v i := by
  apply BitVec.eq_of_getLsbD_eq
  intro k hk
  simp only [byteOf, BitVec.getLsbD_extractLsb', BitVec.getLsbD_setWidth]
  simp only [hk, decide_true, Bool.true_and, Bool.and_eq_right_iff_imp, decide_eq_true_eq]
  intro _; omega

theorem splitCheck_setWidth (ea : XWord x) {m l : Nat} (v : BitVec m) (n i : Nat) (h : Hart x)
    (hi : 8 * (i + n) ≤ l) :
    splitCheck ea (v.setWidth l) n i h = splitCheck ea v n i h := by
  induction n generalizing i h with
  | zero => rfl
  | succ n ih =>
    unfold splitCheck
    rw [byteOf_setWidth v (by omega)]
    split
    · rfl
    · exact ih _ _ (by omega)

theorem splitWrite_setWidth (ea : XWord x) {m l : Nat} (v : BitVec m) (n i : Nat) (h : Hart x)
    (hi : 8 * (i + n) ≤ l) :
    splitWrite ea (v.setWidth l) n i h = splitWrite ea v n i h := by
  induction n generalizing i h with
  | zero => rfl
  | succ n ih =>
    unfold splitWrite
    rw [byteOf_setWidth v (by omega)]
    exact ih _ _ (by omega)

/-- The write of byte `i` of a split store, its region found: a device's event, or the byte in storage. -/
theorem busWriteDo_byte {h g : Hart x} {ea v : XWord x} {i : Nat}
    (hb : regionFor h.params.regions .write (byteAddr ea i) 1 ≠ none)
    (hg : h.busWriteDo (byteAddr ea i) .byte (byteOf v i) true = g) :
    g.params = h.params ∧ g.deviceDraws = h.deviceDraws ∧ g.deviceLog = h.deviceLog ++ h.writeEvent ea v i ∧
      ∀ a, g.byteAt a = if a = byteAddr ea i ∧ h.deviceAt .write a = none then byteOf v i else h.byteAt a := by
  obtain ⟨r, hr⟩ := Option.ne_none_iff_exists'.mp hb
  unfold busWriteDo at hg
  rw [show Width.byte.bytes = 1 from rfl, hr] at hg
  by_cases hk : r.kind = .device
  · have hd : h.deviceAt .write (byteAddr ea i) = some r := by simp [deviceAt, hr, hk]
    simp only [hk, if_true] at hg
    subst hg
    refine ⟨rfl, rfl, by simp [writeEvent, hd, logDevice], fun a => ?_⟩
    rw [if_neg]
    · rfl
    · rintro ⟨rfl, hn⟩; rw [hd] at hn; simp at hn
  · have hd : h.deviceAt .write (byteAddr ea i) = none := by simp [deviceAt, hr, hk]
    simp only [hk, if_false, if_true] at hg
    subst hg
    refine ⟨rfl, rfl, by simp [writeEvent, hd, storageWrite], fun a => ?_⟩
    rw [byteAt_storageWrite]
    by_cases ha : a = byteAddr ea i
    · subst ha
      rw [if_pos ⟨Nat.le_refl _, by simp [Width.bytes]⟩, if_pos ⟨rfl, hd⟩, Nat.sub_self]
      apply BitVec.eq_of_getLsbD_eq
      intro k hk; simp [byteOf, Width.bits, Width.bytes]
    · rw [if_neg (by simp only [Width.bytes]; omega), if_neg fun e => ha e.1]

/-- The perform pass of a split store: the devices' writes in order, the bytes in storage, and nothing else. -/
theorem splitWrite_mixed {h : Hart x} {ea v : XWord x} {n i : Nat}
    (hb : ∀ j < n, regionFor h.params.regions .write (byteAddr ea (i + j)) 1 ≠ none)
    (hi : ∀ j < n, ∀ k < n, byteAddr ea (i + j) = byteAddr ea (i + k) → j = k) :
    (splitWrite ea v n i h).deviceDraws = h.deviceDraws ∧
      (splitWrite ea v n i h).deviceLog = h.deviceLog ++ ((List.range n).flatMap fun j => h.writeEvent ea v (i + j)) ∧
      (∀ j < n, h.deviceAt .write (byteAddr ea (i + j)) = none →
        (splitWrite ea v n i h).byteAt (byteAddr ea (i + j)) = byteOf v (i + j)) ∧
      (∀ a, (∀ j < n, a ≠ byteAddr ea (i + j)) ∨ h.deviceAt .write a ≠ none →
        (splitWrite ea v n i h).byteAt a = h.byteAt a) := by
  induction n generalizing i h with
  | zero => exact ⟨rfl, by simp [splitWrite], fun _ hj => by omega, fun _ _ => rfl⟩
  | succ n ih =>
    have shift : ∀ j, i + (j + 1) = i + 1 + j := fun j => by omega
    unfold splitWrite
    rw [byteAddr_eq]
    generalize hg : h.busWriteDo (byteAddr ea i) .byte (byteOf v i) true = g
    obtain ⟨gp, gd, gl, gb⟩ := busWriteDo_byte (i := i) (hb 0 (by omega)) hg
    have at_eq : ∀ a, g.deviceAt .write a = h.deviceAt .write a := fun a => by simp [deviceAt, gp]
    obtain ⟨s1, s2, s3, s4⟩ := ih (h := g) (i := i + 1)
      (fun j hj => by have := hb (j + 1) (by omega); rwa [shift, ← gp] at this)
      (fun j hj k hk e => by
        have := hi (j + 1) (by omega) (k + 1) (by omega) (by rw [shift j, shift k]; exact e); omega)
    refine ⟨s1.trans gd, ?_, fun j hj hn => ?_, fun a ha => ?_⟩
    · rw [s2, gl, List.range_succ_eq_map, List.flatMap_cons, List.flatMap_map, List.append_assoc]
      congr 2
      exact congrArg (fun f => List.flatMap f (List.range n)) (funext fun j => by
        rw [writeEvent_congr gp, Nat.succ_eq_add_one, shift j])
    · cases j with
      | zero =>
        rw [Nat.add_zero] at hn ⊢
        rw [s4 _ (.inl fun j hj e => by
          have := hi 0 (by omega) (j + 1) (by omega) (by rw [shift j]; simpa using e)
          omega), gb, if_pos ⟨rfl, hn⟩, Nat.add_zero]
      | succ j =>
        have e := shift j
        rw [e] at hn ⊢
        exact s3 j (by omega) (by rw [at_eq]; exact hn)
    · rw [s4 a (ha.imp (fun h1 j hj => by have := h1 (j + 1) (by omega); rwa [shift] at this)
        (fun h1 => by rw [at_eq]; exact h1)), gb, if_neg]
      rintro ⟨rfl, hn⟩
      rcases ha with h1 | h1
      · exact h1 0 (by omega) rfl
      · exact h1 hn

/-- A byte that can be written has a region. -/
theorem regionFor_of_splitTakes {h : Hart x} {ea v : XWord x} {i : Nat} (e : h.splitTakes ea v i = true) :
    regionFor h.params.regions .write (byteAddr ea i) 1 ≠ none := by
  intro hn; simp [splitTakes, hn] at e

/-- A misaligned store under `Split` whose bytes can all be written. -/
theorem memWrite_split {h : Hart x} {ea v : XWord x} {w : Width} (ha : ea.toNat % w.bytes ≠ 0)
    (hp : h.params.misaligned = .split) (hb : ∀ j < w.bytes, h.splitTakes ea v j = true) :
    ∃ h1 : Hart x, h.memWrite ea w (v.setWidth w.bits) = (none, h1) ∧ h.SameButMemory h1 ∧
      h1.deviceLog = h.deviceLog ++ h.splitWriteEvents ea v w.bytes ∧
      h1.deviceDraws = h.deviceDraws + h.deviceCount .write ea w.bytes ∧
      (∀ j < w.bytes, h.deviceAt .write (byteAddr ea j) = none → h1.byteAt (byteAddr ea j) = byteOf v j) ∧
      (∀ a, ¬ InAccess ea w a ∨ h.deviceAt .write a ≠ none → h1.byteAt a = h.byteAt a) := by
  have hc := splitCheck_taken (h := h) (ea := ea) (v := v) (n := w.bytes) (i := 0)
    (fun j hj => by simpa using hb j hj)
  rw [afterChecks_zero, Nat.zero_add] at hc
  obtain ⟨m1, m2, m3, m4⟩ := splitWrite_mixed (h := h.afterChecks ea w.bytes) (ea := ea) (v := v) (i := 0)
    (n := w.bytes) (fun j hj => by rw [Nat.zero_add]; exact regionFor_of_splitTakes (h := h) (hb j hj))
    (fun j hj k hk e => byteAddr_inj ea hj hk (by simpa using e))
  refine ⟨splitWrite ea v w.bytes 0 (h.afterChecks ea w.bytes), ?_, ?_, ?_, m1, fun j hj hn => ?_, fun a hn => ?_⟩
  · unfold memWrite
    rw [if_neg ha, hp]
    simp only
    rw [splitCheck_setWidth _ _ _ _ _ (by simp [Width.bits]), hc]
    simp only
    rw [splitWrite_setWidth _ _ _ _ _ (by simp [Width.bits])]
  · exact ((afterChecks_same h ea w.bytes).sameButMemory).trans (splitWrite_frame ea v w.bytes 0 _)
  · rw [m2]; simp only [Nat.zero_add]; rfl
  · have := m3 j hj (by rw [Nat.zero_add]; exact hn)
    simpa using this
  · exact m4 a (hn.imp (fun h1 j hj e => h1 ⟨j, hj, by simpa using e⟩) id)

/-- A misaligned store under `Split` whose byte `k` is the first that cannot be written: nothing is written and nothing
handed over (20_memory.md R93; log 7). -/
theorem memWrite_splitFault {h : Hart x} {ea v a : XWord x} {w : Width} {k : Nat} (ha : ea.toNat % w.bytes ≠ 0)
    (hp : h.params.misaligned = .split) (hk : k < w.bytes) (hak : a.toNat = byteAddr ea k)
    (hn : h.splitTakes ea v k = false) (hb : ∀ j < k, h.splitTakes ea v j = true) :
    h.memWrite ea w (v.setWidth w.bits) = (some a, h.afterChecks ea (k + 1)) := by
  have hc := splitCheck_refused (h := h) (ea := ea) (v := v) (i := 0) hk (by simpa using hn)
    (fun j hj => by simpa using hb j hj)
  rw [afterChecks_zero, Nat.zero_add] at hc
  unfold memWrite
  rw [if_neg ha, hp]
  simp only
  rw [splitCheck_setWidth _ _ _ _ _ (by simp [Width.bits]), hc]
  simp only
  congr 2
  exact BitVec.eq_of_toNat_eq (by rw [byteAddr_eq, hak])

/-! ### Aligned accesses -/

/-- An aligned read of a device region: the device's answer, drawn and recorded (20_memory.md R84; logs 5, 6). -/
theorem memRead_device {h : Hart x} {ea : XWord x} {w : Width} {r : Region} (ha : ea.toNat % w.bytes = 0)
    (hr : regionFor h.params.regions .read ea.toNat w.bytes = some r) (hk : r.kind = .device) :
    h.memRead ea w =
      (match Config.deviceRead h.deviceDraws r (ea.toNat - r.base) w with
        | some v => .ok v
        | none => .error ea,
        h.drawDevice.logDevice (.read r (ea.toNat - r.base) w
          (Config.deviceRead h.deviceDraws r (ea.toNat - r.base) w).isSome)) := by
  unfold memRead
  rw [if_pos ha]
  simp only [busRead, hr, hk, if_true, deviceRead]
  cases Config.deviceRead h.deviceDraws r (ea.toNat - r.base) w <;> rfl

/-- An aligned write to a device region: the value handed over and recorded with the device's answer. -/
theorem memWrite_device {h : Hart x} {ea : XWord x} {w : Width} {v : BitVec w.bits} {r : Region}
    (ha : ea.toNat % w.bytes = 0) (hr : regionFor h.params.regions .write ea.toNat w.bytes = some r)
    (hk : r.kind = .device) :
    h.memWrite ea w v =
      (if Config.deviceTakes h.deviceDraws r (ea.toNat - r.base) w v then none else some ea,
        h.drawDevice.logDevice (.write r (ea.toNat - r.base) w (v.setWidth 64)
          (Config.deviceTakes h.deviceDraws r (ea.toNat - r.base) w v))) := by
  have hr' : regionFor h.drawDevice.params.regions .write ea.toNat w.bytes = some r := hr
  unfold memWrite
  rw [if_pos ha]
  simp only [busWriteOk, hr, hk, if_true]
  cases Config.deviceTakes h.deviceDraws r (ea.toNat - r.base) w v <;> simp [busWriteDo, hr, hk]

end Hart

end Sys2Proof.Machine
end

