-- ==== Sys2Proof/Laws/Encoding.lean ====
section
/-! SUPPORT. The formats: every field of an encoded word is the field it was encoded from, an encoded word's fixed bits
are its format's, and a word encoded from its own fields is itself. -/

namespace Sys2Proof

/-! ### The R format (30_encoding.md R124) -/

@[simp] theorem opcodeOf_encodeR (funct7 : BitVec 7) (rs2 rs1 : Reg) (funct3 : BitVec 3) (rd : Reg) (op : BitVec 7) :
    opcodeOf (encodeR funct7 rs2 rs1 funct3 rd op) = op := by
  apply BitVec.eq_of_getLsbD_eq
  intro i hi
  simp only [opcodeOf, encodeR, BitVec.getLsbD_extractLsb', BitVec.getLsbD_cast, BitVec.getLsbD_append]
  interval_cases i <;> simp

@[simp] theorem rdOf_encodeR (funct7 : BitVec 7) (rs2 rs1 : Reg) (funct3 : BitVec 3) (rd : Reg) (op : BitVec 7) :
    rdOf (encodeR funct7 rs2 rs1 funct3 rd op) = rd := by
  apply BitVec.eq_of_getLsbD_eq
  intro i hi
  simp only [rdOf, encodeR, BitVec.getLsbD_extractLsb', BitVec.getLsbD_cast, BitVec.getLsbD_append]
  interval_cases i <;> simp

@[simp] theorem funct3Of_encodeR (funct7 : BitVec 7) (rs2 rs1 : Reg) (funct3 : BitVec 3) (rd : Reg) (op : BitVec 7) :
    funct3Of (encodeR funct7 rs2 rs1 funct3 rd op) = funct3 := by
  apply BitVec.eq_of_getLsbD_eq
  intro i hi
  simp only [funct3Of, encodeR, BitVec.getLsbD_extractLsb', BitVec.getLsbD_cast, BitVec.getLsbD_append]
  interval_cases i <;> simp

@[simp] theorem rs1Of_encodeR (funct7 : BitVec 7) (rs2 rs1 : Reg) (funct3 : BitVec 3) (rd : Reg) (op : BitVec 7) :
    rs1Of (encodeR funct7 rs2 rs1 funct3 rd op) = rs1 := by
  apply BitVec.eq_of_getLsbD_eq
  intro i hi
  simp only [rs1Of, encodeR, BitVec.getLsbD_extractLsb', BitVec.getLsbD_cast, BitVec.getLsbD_append]
  interval_cases i <;> simp

@[simp] theorem rs2Of_encodeR (funct7 : BitVec 7) (rs2 rs1 : Reg) (funct3 : BitVec 3) (rd : Reg) (op : BitVec 7) :
    rs2Of (encodeR funct7 rs2 rs1 funct3 rd op) = rs2 := by
  apply BitVec.eq_of_getLsbD_eq
  intro i hi
  simp only [rs2Of, encodeR, BitVec.getLsbD_extractLsb', BitVec.getLsbD_cast, BitVec.getLsbD_append]
  interval_cases i <;> simp

@[simp] theorem funct7Of_encodeR (funct7 : BitVec 7) (rs2 rs1 : Reg) (funct3 : BitVec 3) (rd : Reg) (op : BitVec 7) :
    funct7Of (encodeR funct7 rs2 rs1 funct3 rd op) = funct7 := by
  apply BitVec.eq_of_getLsbD_eq
  intro i hi
  simp only [funct7Of, encodeR, BitVec.getLsbD_extractLsb', BitVec.getLsbD_cast, BitVec.getLsbD_append]
  interval_cases i <;> simp

theorem encodeR_mask (funct7 : BitVec 7) (rs2 rs1 : Reg) (funct3 : BitVec 3) (rd : Reg) (op : BitVec 7) :
    encodeR funct7 rs2 rs1 funct3 rd op &&& 0xFE00707F#32 = encodeR funct7 0 0 funct3 0 op := by
  apply BitVec.eq_of_getLsbD_eq
  intro i hi
  simp only [encodeR, BitVec.getLsbD_and, BitVec.getLsbD_cast, BitVec.getLsbD_append]
  interval_cases i <;> simp

theorem encodeR_fields (w : BitVec 32) :
    encodeR (funct7Of w) (rs2Of w) (rs1Of w) (funct3Of w) (rdOf w) (opcodeOf w) = w := by
  apply BitVec.eq_of_getLsbD_eq
  intro i hi
  simp only [encodeR, opcodeOf, rdOf, funct3Of, rs1Of, rs2Of, funct7Of, BitVec.getLsbD_extractLsb', BitVec.getLsbD_cast, BitVec.getLsbD_append]
  interval_cases i <;> simp

/-! ### The I format (R125) -/

@[simp] theorem opcodeOf_encodeI (imm : BitVec 12) (rs1 : Reg) (funct3 : BitVec 3) (rd : Reg) (op : BitVec 7) :
    opcodeOf (encodeI imm rs1 funct3 rd op) = op := by
  apply BitVec.eq_of_getLsbD_eq
  intro i hi
  simp only [opcodeOf, encodeI, BitVec.getLsbD_extractLsb', BitVec.getLsbD_cast, BitVec.getLsbD_append]
  interval_cases i <;> simp

@[simp] theorem rdOf_encodeI (imm : BitVec 12) (rs1 : Reg) (funct3 : BitVec 3) (rd : Reg) (op : BitVec 7) :
    rdOf (encodeI imm rs1 funct3 rd op) = rd := by
  apply BitVec.eq_of_getLsbD_eq
  intro i hi
  simp only [rdOf, encodeI, BitVec.getLsbD_extractLsb', BitVec.getLsbD_cast, BitVec.getLsbD_append]
  interval_cases i <;> simp

@[simp] theorem funct3Of_encodeI (imm : BitVec 12) (rs1 : Reg) (funct3 : BitVec 3) (rd : Reg) (op : BitVec 7) :
    funct3Of (encodeI imm rs1 funct3 rd op) = funct3 := by
  apply BitVec.eq_of_getLsbD_eq
  intro i hi
  simp only [funct3Of, encodeI, BitVec.getLsbD_extractLsb', BitVec.getLsbD_cast, BitVec.getLsbD_append]
  interval_cases i <;> simp

@[simp] theorem rs1Of_encodeI (imm : BitVec 12) (rs1 : Reg) (funct3 : BitVec 3) (rd : Reg) (op : BitVec 7) :
    rs1Of (encodeI imm rs1 funct3 rd op) = rs1 := by
  apply BitVec.eq_of_getLsbD_eq
  intro i hi
  simp only [rs1Of, encodeI, BitVec.getLsbD_extractLsb', BitVec.getLsbD_cast, BitVec.getLsbD_append]
  interval_cases i <;> simp

@[simp] theorem immIOf_encodeI (imm : BitVec 12) (rs1 : Reg) (funct3 : BitVec 3) (rd : Reg) (op : BitVec 7) :
    immIOf (encodeI imm rs1 funct3 rd op) = imm := by
  apply BitVec.eq_of_getLsbD_eq
  intro i hi
  simp only [immIOf, encodeI, BitVec.getLsbD_extractLsb', BitVec.getLsbD_cast, BitVec.getLsbD_append]
  interval_cases i <;> simp

theorem encodeI_mask (imm : BitVec 12) (rs1 : Reg) (funct3 : BitVec 3) (rd : Reg) (op : BitVec 7) :
    encodeI imm rs1 funct3 rd op &&& 0x0000707F#32 = encodeI 0 0 funct3 0 op := by
  apply BitVec.eq_of_getLsbD_eq
  intro i hi
  simp only [encodeI, BitVec.getLsbD_and, BitVec.getLsbD_cast, BitVec.getLsbD_append]
  interval_cases i <;> simp

theorem encodeI_fields (w : BitVec 32) :
    encodeI (immIOf w) (rs1Of w) (funct3Of w) (rdOf w) (opcodeOf w) = w := by
  apply BitVec.eq_of_getLsbD_eq
  intro i hi
  simp only [encodeI, opcodeOf, rdOf, funct3Of, rs1Of, immIOf, BitVec.getLsbD_extractLsb', BitVec.getLsbD_cast, BitVec.getLsbD_append]
  interval_cases i <;> simp

/-! ### The shift form of the I format (R135) -/

@[simp] theorem opcodeOf_encodeShift (upper shamt : BitVec 6) (rs1 : Reg) (funct3 : BitVec 3) (rd : Reg) (op : BitVec 7) :
    opcodeOf (encodeShift upper shamt rs1 funct3 rd op) = op := by
  apply BitVec.eq_of_getLsbD_eq
  intro i hi
  simp only [opcodeOf, encodeShift, BitVec.getLsbD_extractLsb', BitVec.getLsbD_cast, BitVec.getLsbD_append]
  interval_cases i <;> simp

@[simp] theorem rdOf_encodeShift (upper shamt : BitVec 6) (rs1 : Reg) (funct3 : BitVec 3) (rd : Reg) (op : BitVec 7) :
    rdOf (encodeShift upper shamt rs1 funct3 rd op) = rd := by
  apply BitVec.eq_of_getLsbD_eq
  intro i hi
  simp only [rdOf, encodeShift, BitVec.getLsbD_extractLsb', BitVec.getLsbD_cast, BitVec.getLsbD_append]
  interval_cases i <;> simp

@[simp] theorem funct3Of_encodeShift (upper shamt : BitVec 6) (rs1 : Reg) (funct3 : BitVec 3) (rd : Reg) (op : BitVec 7) :
    funct3Of (encodeShift upper shamt rs1 funct3 rd op) = funct3 := by
  apply BitVec.eq_of_getLsbD_eq
  intro i hi
  simp only [funct3Of, encodeShift, BitVec.getLsbD_extractLsb', BitVec.getLsbD_cast, BitVec.getLsbD_append]
  interval_cases i <;> simp

@[simp] theorem rs1Of_encodeShift (upper shamt : BitVec 6) (rs1 : Reg) (funct3 : BitVec 3) (rd : Reg) (op : BitVec 7) :
    rs1Of (encodeShift upper shamt rs1 funct3 rd op) = rs1 := by
  apply BitVec.eq_of_getLsbD_eq
  intro i hi
  simp only [rs1Of, encodeShift, BitVec.getLsbD_extractLsb', BitVec.getLsbD_cast, BitVec.getLsbD_append]
  interval_cases i <;> simp

@[simp] theorem shamtOf_encodeShift (upper shamt : BitVec 6) (rs1 : Reg) (funct3 : BitVec 3) (rd : Reg) (op : BitVec 7) :
    shamtOf (encodeShift upper shamt rs1 funct3 rd op) = shamt := by
  apply BitVec.eq_of_getLsbD_eq
  intro i hi
  simp only [shamtOf, encodeShift, BitVec.getLsbD_extractLsb', BitVec.getLsbD_cast, BitVec.getLsbD_append]
  interval_cases i <;> simp

@[simp] theorem funct6Of_encodeShift (upper shamt : BitVec 6) (rs1 : Reg) (funct3 : BitVec 3) (rd : Reg) (op : BitVec 7) :
    funct6Of (encodeShift upper shamt rs1 funct3 rd op) = upper := by
  apply BitVec.eq_of_getLsbD_eq
  intro i hi
  simp only [funct6Of, encodeShift, BitVec.getLsbD_extractLsb', BitVec.getLsbD_cast, BitVec.getLsbD_append]
  interval_cases i <;> simp

theorem encodeShift_mask (upper shamt : BitVec 6) (rs1 : Reg) (funct3 : BitVec 3) (rd : Reg) (op : BitVec 7) :
    encodeShift upper shamt rs1 funct3 rd op &&& 0xFC00707F#32 = encodeShift upper 0 0 funct3 0 op := by
  apply BitVec.eq_of_getLsbD_eq
  intro i hi
  simp only [encodeShift, BitVec.getLsbD_and, BitVec.getLsbD_cast, BitVec.getLsbD_append]
  interval_cases i <;> simp

theorem encodeShift_fields (w : BitVec 32) :
    encodeShift (funct6Of w) (shamtOf w) (rs1Of w) (funct3Of w) (rdOf w) (opcodeOf w) = w := by
  apply BitVec.eq_of_getLsbD_eq
  intro i hi
  simp only [encodeShift, opcodeOf, rdOf, funct3Of, rs1Of, shamtOf, funct6Of, BitVec.getLsbD_extractLsb', BitVec.getLsbD_cast, BitVec.getLsbD_append]
  interval_cases i <;> simp

/-! ### The S format (R126, R131) -/

@[simp] theorem opcodeOf_encodeS (imm : BitVec 12) (rs2 rs1 : Reg) (funct3 : BitVec 3) (op : BitVec 7) :
    opcodeOf (encodeS imm rs2 rs1 funct3 op) = op := by
  apply BitVec.eq_of_getLsbD_eq
  intro i hi
  simp only [opcodeOf, encodeS, BitVec.getLsbD_extractLsb', BitVec.getLsbD_cast, BitVec.getLsbD_append]
  interval_cases i <;> simp

@[simp] theorem funct3Of_encodeS (imm : BitVec 12) (rs2 rs1 : Reg) (funct3 : BitVec 3) (op : BitVec 7) :
    funct3Of (encodeS imm rs2 rs1 funct3 op) = funct3 := by
  apply BitVec.eq_of_getLsbD_eq
  intro i hi
  simp only [funct3Of, encodeS, BitVec.getLsbD_extractLsb', BitVec.getLsbD_cast, BitVec.getLsbD_append]
  interval_cases i <;> simp

@[simp] theorem rs1Of_encodeS (imm : BitVec 12) (rs2 rs1 : Reg) (funct3 : BitVec 3) (op : BitVec 7) :
    rs1Of (encodeS imm rs2 rs1 funct3 op) = rs1 := by
  apply BitVec.eq_of_getLsbD_eq
  intro i hi
  simp only [rs1Of, encodeS, BitVec.getLsbD_extractLsb', BitVec.getLsbD_cast, BitVec.getLsbD_append]
  interval_cases i <;> simp

@[simp] theorem rs2Of_encodeS (imm : BitVec 12) (rs2 rs1 : Reg) (funct3 : BitVec 3) (op : BitVec 7) :
    rs2Of (encodeS imm rs2 rs1 funct3 op) = rs2 := by
  apply BitVec.eq_of_getLsbD_eq
  intro i hi
  simp only [rs2Of, encodeS, BitVec.getLsbD_extractLsb', BitVec.getLsbD_cast, BitVec.getLsbD_append]
  interval_cases i <;> simp

@[simp] theorem immSOf_encodeS (imm : BitVec 12) (rs2 rs1 : Reg) (funct3 : BitVec 3) (op : BitVec 7) :
    immSOf (encodeS imm rs2 rs1 funct3 op) = imm := by
  apply BitVec.eq_of_getLsbD_eq
  intro i hi
  simp only [immSOf, encodeS, BitVec.getLsbD_extractLsb', BitVec.getLsbD_cast, BitVec.getLsbD_append]
  interval_cases i <;> simp

theorem encodeS_mask (imm : BitVec 12) (rs2 rs1 : Reg) (funct3 : BitVec 3) (op : BitVec 7) :
    encodeS imm rs2 rs1 funct3 op &&& 0x0000707F#32 = encodeS 0 0 0 funct3 op := by
  apply BitVec.eq_of_getLsbD_eq
  intro i hi
  simp only [encodeS, BitVec.getLsbD_extractLsb', BitVec.getLsbD_and, BitVec.getLsbD_cast, BitVec.getLsbD_append]
  interval_cases i <;> simp

theorem encodeS_fields (w : BitVec 32) :
    encodeS (immSOf w) (rs2Of w) (rs1Of w) (funct3Of w) (opcodeOf w) = w := by
  apply BitVec.eq_of_getLsbD_eq
  intro i hi
  simp only [encodeS, opcodeOf, funct3Of, rs1Of, rs2Of, immSOf, BitVec.getLsbD_extractLsb', BitVec.getLsbD_cast, BitVec.getLsbD_append]
  interval_cases i <;> simp

/-! ### The B format (R127, R132) -/

@[simp] theorem opcodeOf_encodeB (off : BitVec 12) (rs2 rs1 : Reg) (funct3 : BitVec 3) (op : BitVec 7) :
    opcodeOf (encodeB off rs2 rs1 funct3 op) = op := by
  apply BitVec.eq_of_getLsbD_eq
  intro i hi
  simp only [opcodeOf, encodeB, BitVec.getLsbD_extractLsb', BitVec.getLsbD_cast, BitVec.getLsbD_append]
  interval_cases i <;> simp

@[simp] theorem funct3Of_encodeB (off : BitVec 12) (rs2 rs1 : Reg) (funct3 : BitVec 3) (op : BitVec 7) :
    funct3Of (encodeB off rs2 rs1 funct3 op) = funct3 := by
  apply BitVec.eq_of_getLsbD_eq
  intro i hi
  simp only [funct3Of, encodeB, BitVec.getLsbD_extractLsb', BitVec.getLsbD_cast, BitVec.getLsbD_append]
  interval_cases i <;> simp

@[simp] theorem rs1Of_encodeB (off : BitVec 12) (rs2 rs1 : Reg) (funct3 : BitVec 3) (op : BitVec 7) :
    rs1Of (encodeB off rs2 rs1 funct3 op) = rs1 := by
  apply BitVec.eq_of_getLsbD_eq
  intro i hi
  simp only [rs1Of, encodeB, BitVec.getLsbD_extractLsb', BitVec.getLsbD_cast, BitVec.getLsbD_append]
  interval_cases i <;> simp

@[simp] theorem rs2Of_encodeB (off : BitVec 12) (rs2 rs1 : Reg) (funct3 : BitVec 3) (op : BitVec 7) :
    rs2Of (encodeB off rs2 rs1 funct3 op) = rs2 := by
  apply BitVec.eq_of_getLsbD_eq
  intro i hi
  simp only [rs2Of, encodeB, BitVec.getLsbD_extractLsb', BitVec.getLsbD_cast, BitVec.getLsbD_append]
  interval_cases i <;> simp

@[simp] theorem offBOf_encodeB (off : BitVec 12) (rs2 rs1 : Reg) (funct3 : BitVec 3) (op : BitVec 7) :
    offBOf (encodeB off rs2 rs1 funct3 op) = off := by
  apply BitVec.eq_of_getLsbD_eq
  intro i hi
  simp only [offBOf, encodeB, BitVec.getLsbD_extractLsb', BitVec.getLsbD_cast, BitVec.getLsbD_append]
  interval_cases i <;> simp

theorem encodeB_mask (off : BitVec 12) (rs2 rs1 : Reg) (funct3 : BitVec 3) (op : BitVec 7) :
    encodeB off rs2 rs1 funct3 op &&& 0x0000707F#32 = encodeB 0 0 0 funct3 op := by
  apply BitVec.eq_of_getLsbD_eq
  intro i hi
  simp only [encodeB, BitVec.getLsbD_extractLsb', BitVec.getLsbD_and, BitVec.getLsbD_cast, BitVec.getLsbD_append]
  interval_cases i <;> simp

theorem encodeB_fields (w : BitVec 32) :
    encodeB (offBOf w) (rs2Of w) (rs1Of w) (funct3Of w) (opcodeOf w) = w := by
  apply BitVec.eq_of_getLsbD_eq
  intro i hi
  simp only [encodeB, opcodeOf, funct3Of, rs1Of, rs2Of, offBOf, BitVec.getLsbD_extractLsb', BitVec.getLsbD_cast, BitVec.getLsbD_append]
  interval_cases i <;> simp

/-! ### The U format (R128, R133) -/

@[simp] theorem opcodeOf_encodeU (imm : BitVec 20) (rd : Reg) (op : BitVec 7) :
    opcodeOf (encodeU imm rd op) = op := by
  apply BitVec.eq_of_getLsbD_eq
  intro i hi
  simp only [opcodeOf, encodeU, BitVec.getLsbD_extractLsb', BitVec.getLsbD_cast, BitVec.getLsbD_append]
  interval_cases i <;> simp

@[simp] theorem rdOf_encodeU (imm : BitVec 20) (rd : Reg) (op : BitVec 7) :
    rdOf (encodeU imm rd op) = rd := by
  apply BitVec.eq_of_getLsbD_eq
  intro i hi
  simp only [rdOf, encodeU, BitVec.getLsbD_extractLsb', BitVec.getLsbD_cast, BitVec.getLsbD_append]
  interval_cases i <;> simp

@[simp] theorem immUOf_encodeU (imm : BitVec 20) (rd : Reg) (op : BitVec 7) :
    immUOf (encodeU imm rd op) = imm := by
  apply BitVec.eq_of_getLsbD_eq
  intro i hi
  simp only [immUOf, encodeU, BitVec.getLsbD_extractLsb', BitVec.getLsbD_cast, BitVec.getLsbD_append]
  interval_cases i <;> simp

theorem encodeU_mask (imm : BitVec 20) (rd : Reg) (op : BitVec 7) :
    encodeU imm rd op &&& 0x0000007F#32 = encodeU 0 0 op := by
  apply BitVec.eq_of_getLsbD_eq
  intro i hi
  simp only [encodeU, BitVec.getLsbD_and, BitVec.getLsbD_cast, BitVec.getLsbD_append]
  interval_cases i <;> simp

theorem encodeU_fields (w : BitVec 32) :
    encodeU (immUOf w) (rdOf w) (opcodeOf w) = w := by
  apply BitVec.eq_of_getLsbD_eq
  intro i hi
  simp only [encodeU, opcodeOf, rdOf, immUOf, BitVec.getLsbD_extractLsb', BitVec.getLsbD_cast, BitVec.getLsbD_append]
  interval_cases i <;> simp

/-! ### The J format (R129, R134) -/

@[simp] theorem opcodeOf_encodeJ (off : BitVec 20) (rd : Reg) (op : BitVec 7) :
    opcodeOf (encodeJ off rd op) = op := by
  apply BitVec.eq_of_getLsbD_eq
  intro i hi
  simp only [opcodeOf, encodeJ, BitVec.getLsbD_extractLsb', BitVec.getLsbD_cast, BitVec.getLsbD_append]
  interval_cases i <;> simp

@[simp] theorem rdOf_encodeJ (off : BitVec 20) (rd : Reg) (op : BitVec 7) :
    rdOf (encodeJ off rd op) = rd := by
  apply BitVec.eq_of_getLsbD_eq
  intro i hi
  simp only [rdOf, encodeJ, BitVec.getLsbD_extractLsb', BitVec.getLsbD_cast, BitVec.getLsbD_append]
  interval_cases i <;> simp

@[simp] theorem offJOf_encodeJ (off : BitVec 20) (rd : Reg) (op : BitVec 7) :
    offJOf (encodeJ off rd op) = off := by
  apply BitVec.eq_of_getLsbD_eq
  intro i hi
  simp only [offJOf, encodeJ, BitVec.getLsbD_extractLsb', BitVec.getLsbD_cast, BitVec.getLsbD_append]
  interval_cases i <;> simp

theorem encodeJ_mask (off : BitVec 20) (rd : Reg) (op : BitVec 7) :
    encodeJ off rd op &&& 0x0000007F#32 = encodeJ 0 0 op := by
  apply BitVec.eq_of_getLsbD_eq
  intro i hi
  simp only [encodeJ, BitVec.getLsbD_extractLsb', BitVec.getLsbD_and, BitVec.getLsbD_cast, BitVec.getLsbD_append]
  interval_cases i <;> simp

theorem encodeJ_fields (w : BitVec 32) :
    encodeJ (offJOf w) (rdOf w) (opcodeOf w) = w := by
  apply BitVec.eq_of_getLsbD_eq
  intro i hi
  simp only [encodeJ, opcodeOf, rdOf, offJOf, BitVec.getLsbD_extractLsb', BitVec.getLsbD_cast, BitVec.getLsbD_append]
  interval_cases i <;> simp

/-! ### The FENCE's form (R156) -/

@[simp] theorem opcodeOf_encodeFence (fm pred succ : BitVec 4) (rs1 rd : Reg) :
    opcodeOf (encodeFence fm pred succ rs1 rd) = 0x0F#7 := by
  apply BitVec.eq_of_getLsbD_eq
  intro i hi
  simp only [opcodeOf, encodeFence, BitVec.getLsbD_extractLsb', BitVec.getLsbD_cast, BitVec.getLsbD_append]
  interval_cases i <;> simp

@[simp] theorem rdOf_encodeFence (fm pred succ : BitVec 4) (rs1 rd : Reg) :
    rdOf (encodeFence fm pred succ rs1 rd) = rd := by
  apply BitVec.eq_of_getLsbD_eq
  intro i hi
  simp only [rdOf, encodeFence, BitVec.getLsbD_extractLsb', BitVec.getLsbD_cast, BitVec.getLsbD_append]
  interval_cases i <;> simp

@[simp] theorem funct3Of_encodeFence (fm pred succ : BitVec 4) (rs1 rd : Reg) :
    funct3Of (encodeFence fm pred succ rs1 rd) = 0b000#3 := by
  apply BitVec.eq_of_getLsbD_eq
  intro i hi
  simp only [funct3Of, encodeFence, BitVec.getLsbD_extractLsb', BitVec.getLsbD_cast, BitVec.getLsbD_append]
  interval_cases i <;> simp

@[simp] theorem rs1Of_encodeFence (fm pred succ : BitVec 4) (rs1 rd : Reg) :
    rs1Of (encodeFence fm pred succ rs1 rd) = rs1 := by
  apply BitVec.eq_of_getLsbD_eq
  intro i hi
  simp only [rs1Of, encodeFence, BitVec.getLsbD_extractLsb', BitVec.getLsbD_cast, BitVec.getLsbD_append]
  interval_cases i <;> simp

@[simp] theorem fmOf_encodeFence (fm pred succ : BitVec 4) (rs1 rd : Reg) :
    fmOf (encodeFence fm pred succ rs1 rd) = fm := by
  apply BitVec.eq_of_getLsbD_eq
  intro i hi
  simp only [fmOf, encodeFence, BitVec.getLsbD_extractLsb', BitVec.getLsbD_cast, BitVec.getLsbD_append]
  interval_cases i <;> simp

@[simp] theorem predOf_encodeFence (fm pred succ : BitVec 4) (rs1 rd : Reg) :
    predOf (encodeFence fm pred succ rs1 rd) = pred := by
  apply BitVec.eq_of_getLsbD_eq
  intro i hi
  simp only [predOf, encodeFence, BitVec.getLsbD_extractLsb', BitVec.getLsbD_cast, BitVec.getLsbD_append]
  interval_cases i <;> simp

@[simp] theorem succOf_encodeFence (fm pred succ : BitVec 4) (rs1 rd : Reg) :
    succOf (encodeFence fm pred succ rs1 rd) = succ := by
  apply BitVec.eq_of_getLsbD_eq
  intro i hi
  simp only [succOf, encodeFence, BitVec.getLsbD_extractLsb', BitVec.getLsbD_cast, BitVec.getLsbD_append]
  interval_cases i <;> simp

theorem encodeFence_mask (fm pred succ : BitVec 4) (rs1 rd : Reg) :
    encodeFence fm pred succ rs1 rd &&& 0x0000707F#32 = encodeFence 0 0 0 0 0 := by
  apply BitVec.eq_of_getLsbD_eq
  intro i hi
  simp only [encodeFence, BitVec.getLsbD_and, BitVec.getLsbD_cast, BitVec.getLsbD_append]
  interval_cases i <;> simp

/-- With XLEN 32 a shift amount below 32 leaves bit 25 clear (R135). -/
theorem encodeShift_mask32 (upper shamt : BitVec 6) (rs1 : Reg) (funct3 : BitVec 3) (rd : Reg) (op : BitVec 7)
    (h : shamt.toNat < 32) :
    encodeShift upper shamt rs1 funct3 rd op &&& 0xFE00707F#32 = encodeShift upper 0 0 funct3 0 op := by
  have h5 : shamt[5] = false := by
    rw [BitVec.getElem_eq_testBit_toNat]
    exact Nat.testBit_lt_two_pow h
  apply BitVec.eq_of_getLsbD_eq
  intro i hi
  simp only [encodeShift, BitVec.getLsbD_and, BitVec.getLsbD_cast, BitVec.getLsbD_append]
  interval_cases i <;> simp [h5]

/-- A FENCE word encoded from its own fields is itself (R156). -/
theorem encodeFence_fields (w : BitVec 32) (ho : opcodeOf w = 0x0F#7) (h3 : funct3Of w = 0b000#3) :
    encodeFence (fmOf w) (predOf w) (succOf w) (rs1Of w) (rdOf w) = w := by
  rw [← encodeI_fields w, ho, h3]
  apply BitVec.eq_of_getLsbD_eq
  intro i hi
  simp only [encodeFence, encodeI, fmOf, predOf, succOf, immIOf, rs1Of, rdOf, BitVec.getLsbD_extractLsb',
    BitVec.getLsbD_cast, BitVec.getLsbD_append]
  interval_cases i <;> simp

/-! ### Words and bytes (R120) -/

/-- The bytes of a word, read back least significant first. -/
theorem wordOfBytes_bytesOfWord (w : BitVec 32) :
    wordOfBytes (w.extractLsb' 0 8) (w.extractLsb' 8 8) (w.extractLsb' 16 8) (w.extractLsb' 24 8) = w := by
  apply BitVec.eq_of_getLsbD_eq
  intro i hi
  simp only [wordOfBytes, BitVec.getLsbD_extractLsb', BitVec.getLsbD_cast, BitVec.getLsbD_append]
  interval_cases i <;> simp

end Sys2Proof
end

