-- ==== Sys2Proof/Laws/HostOps.lean ====
section
/-! SUPPORT. What the host's operations do: consistent configurations, images, step(n). -/

namespace Sys2Proof.Machine

variable {x : Xlen}

/-- Two ranges share no address. -/
theorem rangesApart_iff (a n b m : Nat) :
    rangesApart a n b m = true ↔ ∀ k, ¬ (a ≤ k ∧ k < a + n ∧ b ≤ k ∧ k < b + m) := by
  simp only [rangesApart, Bool.or_eq_true, decide_eq_true_eq]
  constructor
  · intro h k; omega
  · intro h; have := h (max a b); omega

/-- No two of the ranges overlap. -/
theorem pairwiseApart_iff (l : List (Nat × Nat)) : pairwiseApart l = true ↔ l.Pairwise
    (fun p q => ∀ k, ¬ (p.1 ≤ k ∧ k < p.1 + p.2 ∧ q.1 ≤ k ∧ k < q.1 + q.2)) := by
  induction l with
  | nil => simp [pairwiseApart]
  | cons p l ih =>
    obtain ⟨a, n⟩ := p
    simp only [pairwiseApart, ih, List.pairwise_cons, rangesApart_iff, Bool.and_eq_true, List.all_eq_true]

/-- The conditions of 70_reset_and_hazards.md R436 and R421, one by one. -/
theorem consistentFor_iff (bits : Nat) (c : Configuration) : consistentFor bits c = true ↔
      (∀ r ∈ c.regions, 1 ≤ r.length ∧ r.base + r.length ≤ 2 ^ bits) ∧
      c.regions.Pairwise (fun p q => ∀ a, ¬ (p.base ≤ a ∧ a < p.base + p.length ∧ q.base ≤ a ∧
        a < q.base + q.length)) ∧
      (∀ p ∈ c.image, ∀ k < p.2.length, ∃ r ∈ c.regions, r.kind ≠ .device ∧ r.base ≤ p.1 + k ∧
        p.1 + k < r.base + r.length) ∧
      c.image.Pairwise (fun p q => ∀ a, ¬ (p.1 ≤ a ∧ a < p.1 + p.2.length ∧ q.1 ≤ a ∧ a < q.1 + q.2.length)) ∧
      c.resetPc < 2 ^ bits ∧ c.resetPc % 2 = 0 ∧ c.haltWord < 2 ^ 32 := by
  unfold consistentFor
  simp only [Bool.and_eq_true, decide_eq_true_eq, List.all_eq_true, pairwiseApart_iff, List.pairwise_map,
      inStorage, List.any_eq_true, Region.claims, List.mem_range, bne_iff_ne, and_assoc]

/-- An image gives a canonical memory. -/
theorem imageMemory_wf : ∀ l, (imageMemory l).wf
  | [] => List.Pairwise.nil
  | (a, bs) :: l => Memory.wf_putBytes (imageMemory_wf l) a bs

/-- Every byte of an image's memory lies in one of its pairs. -/
theorem mem_imageMemory {c : Host.Cell} : ∀ {l}, c ∈ imageMemory l → ∃ p ∈ l, p.1 ≤ c.1 ∧ c.1 < p.1 + p.2.length
  | [], h => by cases h
  | (a, bs) :: l, h => by
    rcases Memory.mem_putBytes h with h | h
    · exact ⟨(a, bs), by simp, h⟩
    · obtain ⟨p, hp, q⟩ := mem_imageMemory h
      exact ⟨p, by simp [hp], q⟩

/-- An image whose pairs do not overlap gives every byte its address. -/
theorem imageMemory_written {l : List (Nat × List Byte)}
    (hp : l.Pairwise (fun p q => ∀ a, ¬ (p.1 ≤ a ∧ a < p.1 + p.2.length ∧ q.1 ≤ a ∧ a < q.1 + q.2.length)))
    {p : Nat × List Byte}
    (hm : p ∈ l) {k : Nat} {b : Byte}
    (hk : p.2[k]? = some b) : (imageMemory l).written (p.1 + k) = some b := by
  have hlt : k < p.2.length := by
    by_contra hc; rw [List.getElem?_eq_none (by omega)] at hk; simp at hk
  induction l with
  | nil => cases hm
  | cons q l ih =>
    obtain ⟨hq, hl⟩ := List.pairwise_cons.mp hp
    obtain ⟨a, bs⟩ := q
    show ((imageMemory l).putBytes a bs).written (p.1 + k) = _
    rw [Memory.written_putBytes]
    rcases List.mem_cons.mp hm with rfl | hm
    · rw [if_pos ⟨by simp, by simpa using hlt⟩]; simpa using hk
    · have := hq p hm (p.1 + k)
      simp only at this
      rw [if_neg (by omega)]
      exact ih hl hm

/-- Every step answers a next state. -/
theorem step_answers_next (s : State) : ∃ t, step s = .next t := by
  obtain ⟨h1, e, _⟩ := step_effect s.hart
  exact ⟨_, e⟩

/-- A halted core takes no step. -/
theorem stepN_halted {s : State}
    (h : s.hart.halted = true) (n : Nat) : stepN n s = (s, .explicitHaltInstruction) := by
  cases n <;> simp [stepN, h]

/-- `step(n + 1)` is a step and `step(n)`, unless the core is halted. -/
theorem stepN_succ_eq (n : Nat) (s : State) : ∃ t, step s = .next t ∧ stepN (n + 1) s = if s.hart.halted then (s,
    .explicitHaltInstruction) else stepN n t := by
  obtain ⟨t, e⟩ := step_answers_next s
  exact ⟨t, e, by simp only [stepN, e]⟩

end Sys2Proof.Machine
end

