-- ==== Sys2Proof/Laws/PerInstr.lean ====
section
/-! SUPPORT. For each instruction: the row of spec/opcode_table.json its word matches (30_encoding.md R159). -/

namespace Sys2Proof.Laws.TableRow

/-- For every XLEN the instruction exists for, a row of the table that admits the XLEN has the instruction's mnemonic, and
the instruction's word matches it. HALT's row is the parameter HALT_WORD, so for HALT the statement is that its word is
HALT_WORD. -/
def Statement (i : Instr) : Prop :=
  ∀ (x : Xlen) (hw : BitVec 32), i.wellFormed x = true →
    (i = .halt ∧ encode hw i = hw) ∨
      ∃ r ∈ opcodeTable, r.admits x = true ∧ r.mnemonic = i.mnemonic ∧ r.matches (encode hw i) = true

/-- A row at a known place of the table. -/
theorem of_row {i : Instr} {x : Xlen} {hw : BitVec 32} (k : Nat) (hk : k < opcodeTable.length)
    (ha : opcodeTable[k].admits x = true) (hm : opcodeTable[k].mnemonic = i.mnemonic)
    (he : encode hw i &&& opcodeTable[k].mask = opcodeTable[k].pattern) :
    (i = .halt ∧ encode hw i = hw) ∨
      ∃ r ∈ opcodeTable, r.admits x = true ∧ r.mnemonic = i.mnemonic ∧ r.matches (encode hw i) = true :=
  .inr ⟨opcodeTable[k], List.getElem_mem hk, ha, hm, by simpa [OpcodeRow.matches] using he⟩

theorem lui (rd : Reg) (imm : BitVec 20) : Statement (.lui rd imm) := by
  intro x hw _
  exact of_row 0 (by decide) (by cases x <;> rfl) rfl (encodeU_mask _ _ _)

theorem auipc (rd : Reg) (imm : BitVec 20) : Statement (.auipc rd imm) := by
  intro x hw _
  exact of_row 1 (by decide) (by cases x <;> rfl) rfl (encodeU_mask _ _ _)

theorem addi (rd rs1 : Reg) (imm : BitVec 12) : Statement (.addi rd rs1 imm) := by
  intro x hw _
  exact of_row 2 (by decide) (by cases x <;> rfl) rfl (encodeI_mask _ _ _ _ _)

theorem slti (rd rs1 : Reg) (imm : BitVec 12) : Statement (.slti rd rs1 imm) := by
  intro x hw _
  exact of_row 3 (by decide) (by cases x <;> rfl) rfl (encodeI_mask _ _ _ _ _)

theorem sltiu (rd rs1 : Reg) (imm : BitVec 12) : Statement (.sltiu rd rs1 imm) := by
  intro x hw _
  exact of_row 4 (by decide) (by cases x <;> rfl) rfl (encodeI_mask _ _ _ _ _)

theorem xori (rd rs1 : Reg) (imm : BitVec 12) : Statement (.xori rd rs1 imm) := by
  intro x hw _
  exact of_row 5 (by decide) (by cases x <;> rfl) rfl (encodeI_mask _ _ _ _ _)

theorem ori (rd rs1 : Reg) (imm : BitVec 12) : Statement (.ori rd rs1 imm) := by
  intro x hw _
  exact of_row 6 (by decide) (by cases x <;> rfl) rfl (encodeI_mask _ _ _ _ _)

theorem andi (rd rs1 : Reg) (imm : BitVec 12) : Statement (.andi rd rs1 imm) := by
  intro x hw _
  exact of_row 7 (by decide) (by cases x <;> rfl) rfl (encodeI_mask _ _ _ _ _)

theorem slli (rd rs1 : Reg) (shamt : BitVec 6) : Statement (.slli rd rs1 shamt) := by
  intro x hw h
  cases x
  · exact of_row 8 (by decide) rfl rfl (encodeShift_mask32 _ _ _ _ _ _ (by
      simpa [Instr.wellFormed, Instr.rv64Only, Instr.xlenShamt] using h))
  · exact of_row 9 (by decide) rfl rfl (encodeShift_mask _ _ _ _ _ _)

theorem srli (rd rs1 : Reg) (shamt : BitVec 6) : Statement (.srli rd rs1 shamt) := by
  intro x hw h
  cases x
  · exact of_row 10 (by decide) rfl rfl (encodeShift_mask32 _ _ _ _ _ _ (by
      simpa [Instr.wellFormed, Instr.rv64Only, Instr.xlenShamt] using h))
  · exact of_row 11 (by decide) rfl rfl (encodeShift_mask _ _ _ _ _ _)

theorem srai (rd rs1 : Reg) (shamt : BitVec 6) : Statement (.srai rd rs1 shamt) := by
  intro x hw h
  cases x
  · exact of_row 12 (by decide) rfl rfl (encodeShift_mask32 _ _ _ _ _ _ (by
      simpa [Instr.wellFormed, Instr.rv64Only, Instr.xlenShamt] using h))
  · exact of_row 13 (by decide) rfl rfl (encodeShift_mask _ _ _ _ _ _)

theorem add (rd rs1 rs2 : Reg) : Statement (.add rd rs1 rs2) := by
  intro x hw _
  exact of_row 14 (by decide) (by cases x <;> rfl) rfl (encodeR_mask _ _ _ _ _ _)

theorem sub (rd rs1 rs2 : Reg) : Statement (.sub rd rs1 rs2) := by
  intro x hw _
  exact of_row 15 (by decide) (by cases x <;> rfl) rfl (encodeR_mask _ _ _ _ _ _)

theorem sll (rd rs1 rs2 : Reg) : Statement (.sll rd rs1 rs2) := by
  intro x hw _
  exact of_row 16 (by decide) (by cases x <;> rfl) rfl (encodeR_mask _ _ _ _ _ _)

theorem slt (rd rs1 rs2 : Reg) : Statement (.slt rd rs1 rs2) := by
  intro x hw _
  exact of_row 17 (by decide) (by cases x <;> rfl) rfl (encodeR_mask _ _ _ _ _ _)

theorem sltu (rd rs1 rs2 : Reg) : Statement (.sltu rd rs1 rs2) := by
  intro x hw _
  exact of_row 18 (by decide) (by cases x <;> rfl) rfl (encodeR_mask _ _ _ _ _ _)

theorem xor (rd rs1 rs2 : Reg) : Statement (.xor rd rs1 rs2) := by
  intro x hw _
  exact of_row 19 (by decide) (by cases x <;> rfl) rfl (encodeR_mask _ _ _ _ _ _)

theorem srl (rd rs1 rs2 : Reg) : Statement (.srl rd rs1 rs2) := by
  intro x hw _
  exact of_row 20 (by decide) (by cases x <;> rfl) rfl (encodeR_mask _ _ _ _ _ _)

theorem sra (rd rs1 rs2 : Reg) : Statement (.sra rd rs1 rs2) := by
  intro x hw _
  exact of_row 21 (by decide) (by cases x <;> rfl) rfl (encodeR_mask _ _ _ _ _ _)

theorem or (rd rs1 rs2 : Reg) : Statement (.or rd rs1 rs2) := by
  intro x hw _
  exact of_row 22 (by decide) (by cases x <;> rfl) rfl (encodeR_mask _ _ _ _ _ _)

theorem and (rd rs1 rs2 : Reg) : Statement (.and rd rs1 rs2) := by
  intro x hw _
  exact of_row 23 (by decide) (by cases x <;> rfl) rfl (encodeR_mask _ _ _ _ _ _)

theorem addiw (rd rs1 : Reg) (imm : BitVec 12) : Statement (.addiw rd rs1 imm) := by
  intro x hw h
  cases x
  · exact absurd h (by simp [Instr.wellFormed, Instr.rv64Only])
  · exact of_row 24 (by decide) rfl rfl (encodeI_mask _ _ _ _ _)

theorem slliw (rd rs1 : Reg) (shamt : BitVec 5) : Statement (.slliw rd rs1 shamt) := by
  intro x hw h
  cases x
  · exact absurd h (by simp [Instr.wellFormed, Instr.rv64Only])
  · exact of_row 25 (by decide) rfl rfl (encodeR_mask _ _ _ _ _ _)

theorem srliw (rd rs1 : Reg) (shamt : BitVec 5) : Statement (.srliw rd rs1 shamt) := by
  intro x hw h
  cases x
  · exact absurd h (by simp [Instr.wellFormed, Instr.rv64Only])
  · exact of_row 26 (by decide) rfl rfl (encodeR_mask _ _ _ _ _ _)

theorem sraiw (rd rs1 : Reg) (shamt : BitVec 5) : Statement (.sraiw rd rs1 shamt) := by
  intro x hw h
  cases x
  · exact absurd h (by simp [Instr.wellFormed, Instr.rv64Only])
  · exact of_row 27 (by decide) rfl rfl (encodeR_mask _ _ _ _ _ _)

theorem addw (rd rs1 rs2 : Reg) : Statement (.addw rd rs1 rs2) := by
  intro x hw h
  cases x
  · exact absurd h (by simp [Instr.wellFormed, Instr.rv64Only])
  · exact of_row 28 (by decide) rfl rfl (encodeR_mask _ _ _ _ _ _)

theorem subw (rd rs1 rs2 : Reg) : Statement (.subw rd rs1 rs2) := by
  intro x hw h
  cases x
  · exact absurd h (by simp [Instr.wellFormed, Instr.rv64Only])
  · exact of_row 29 (by decide) rfl rfl (encodeR_mask _ _ _ _ _ _)

theorem sllw (rd rs1 rs2 : Reg) : Statement (.sllw rd rs1 rs2) := by
  intro x hw h
  cases x
  · exact absurd h (by simp [Instr.wellFormed, Instr.rv64Only])
  · exact of_row 30 (by decide) rfl rfl (encodeR_mask _ _ _ _ _ _)

theorem srlw (rd rs1 rs2 : Reg) : Statement (.srlw rd rs1 rs2) := by
  intro x hw h
  cases x
  · exact absurd h (by simp [Instr.wellFormed, Instr.rv64Only])
  · exact of_row 31 (by decide) rfl rfl (encodeR_mask _ _ _ _ _ _)

theorem sraw (rd rs1 rs2 : Reg) : Statement (.sraw rd rs1 rs2) := by
  intro x hw h
  cases x
  · exact absurd h (by simp [Instr.wellFormed, Instr.rv64Only])
  · exact of_row 32 (by decide) rfl rfl (encodeR_mask _ _ _ _ _ _)

theorem lb (rd rs1 : Reg) (imm : BitVec 12) : Statement (.lb rd rs1 imm) := by
  intro x hw _
  exact of_row 33 (by decide) (by cases x <;> rfl) rfl (encodeI_mask _ _ _ _ _)

theorem lh (rd rs1 : Reg) (imm : BitVec 12) : Statement (.lh rd rs1 imm) := by
  intro x hw _
  exact of_row 34 (by decide) (by cases x <;> rfl) rfl (encodeI_mask _ _ _ _ _)

theorem lw (rd rs1 : Reg) (imm : BitVec 12) : Statement (.lw rd rs1 imm) := by
  intro x hw _
  exact of_row 35 (by decide) (by cases x <;> rfl) rfl (encodeI_mask _ _ _ _ _)

theorem lbu (rd rs1 : Reg) (imm : BitVec 12) : Statement (.lbu rd rs1 imm) := by
  intro x hw _
  exact of_row 36 (by decide) (by cases x <;> rfl) rfl (encodeI_mask _ _ _ _ _)

theorem lhu (rd rs1 : Reg) (imm : BitVec 12) : Statement (.lhu rd rs1 imm) := by
  intro x hw _
  exact of_row 37 (by decide) (by cases x <;> rfl) rfl (encodeI_mask _ _ _ _ _)

theorem lwu (rd rs1 : Reg) (imm : BitVec 12) : Statement (.lwu rd rs1 imm) := by
  intro x hw h
  cases x
  · exact absurd h (by simp [Instr.wellFormed, Instr.rv64Only])
  · exact of_row 38 (by decide) rfl rfl (encodeI_mask _ _ _ _ _)

theorem ld (rd rs1 : Reg) (imm : BitVec 12) : Statement (.ld rd rs1 imm) := by
  intro x hw h
  cases x
  · exact absurd h (by simp [Instr.wellFormed, Instr.rv64Only])
  · exact of_row 39 (by decide) rfl rfl (encodeI_mask _ _ _ _ _)

theorem sb (rs2 rs1 : Reg) (imm : BitVec 12) : Statement (.sb rs2 rs1 imm) := by
  intro x hw _
  exact of_row 40 (by decide) (by cases x <;> rfl) rfl (encodeS_mask _ _ _ _ _)

theorem sh (rs2 rs1 : Reg) (imm : BitVec 12) : Statement (.sh rs2 rs1 imm) := by
  intro x hw _
  exact of_row 41 (by decide) (by cases x <;> rfl) rfl (encodeS_mask _ _ _ _ _)

theorem sw (rs2 rs1 : Reg) (imm : BitVec 12) : Statement (.sw rs2 rs1 imm) := by
  intro x hw _
  exact of_row 42 (by decide) (by cases x <;> rfl) rfl (encodeS_mask _ _ _ _ _)

theorem sd (rs2 rs1 : Reg) (imm : BitVec 12) : Statement (.sd rs2 rs1 imm) := by
  intro x hw h
  cases x
  · exact absurd h (by simp [Instr.wellFormed, Instr.rv64Only])
  · exact of_row 43 (by decide) rfl rfl (encodeS_mask _ _ _ _ _)

theorem beq (rs1 rs2 : Reg) (off : BitVec 12) : Statement (.beq rs1 rs2 off) := by
  intro x hw _
  exact of_row 44 (by decide) (by cases x <;> rfl) rfl (encodeB_mask _ _ _ _ _)

theorem bne (rs1 rs2 : Reg) (off : BitVec 12) : Statement (.bne rs1 rs2 off) := by
  intro x hw _
  exact of_row 45 (by decide) (by cases x <;> rfl) rfl (encodeB_mask _ _ _ _ _)

theorem blt (rs1 rs2 : Reg) (off : BitVec 12) : Statement (.blt rs1 rs2 off) := by
  intro x hw _
  exact of_row 46 (by decide) (by cases x <;> rfl) rfl (encodeB_mask _ _ _ _ _)

theorem bge (rs1 rs2 : Reg) (off : BitVec 12) : Statement (.bge rs1 rs2 off) := by
  intro x hw _
  exact of_row 47 (by decide) (by cases x <;> rfl) rfl (encodeB_mask _ _ _ _ _)

theorem bltu (rs1 rs2 : Reg) (off : BitVec 12) : Statement (.bltu rs1 rs2 off) := by
  intro x hw _
  exact of_row 48 (by decide) (by cases x <;> rfl) rfl (encodeB_mask _ _ _ _ _)

theorem bgeu (rs1 rs2 : Reg) (off : BitVec 12) : Statement (.bgeu rs1 rs2 off) := by
  intro x hw _
  exact of_row 49 (by decide) (by cases x <;> rfl) rfl (encodeB_mask _ _ _ _ _)

theorem jal (rd : Reg) (off : BitVec 20) : Statement (.jal rd off) := by
  intro x hw _
  exact of_row 50 (by decide) (by cases x <;> rfl) rfl (encodeJ_mask _ _ _)

theorem jalr (rd rs1 : Reg) (imm : BitVec 12) : Statement (.jalr rd rs1 imm) := by
  intro x hw _
  exact of_row 51 (by decide) (by cases x <;> rfl) rfl (encodeI_mask _ _ _ _ _)

theorem fence (rd rs1 : Reg) (fm pred succ : BitVec 4) : Statement (.fence rd rs1 fm pred succ) := by
  intro x hw _
  exact of_row 52 (by decide) (by cases x <;> rfl) rfl (encodeFence_mask _ _ _ _ _)

theorem fenceI (rd rs1 : Reg) (imm : BitVec 12) : Statement (.fenceI rd rs1 imm) := by
  intro x hw _
  exact of_row 53 (by decide) (by cases x <;> rfl) rfl (encodeI_mask _ _ _ _ _)

theorem ecall : Statement .ecall := by
  intro x hw _
  exact of_row 54 (by decide) (by cases x <;> rfl) rfl (by
    show ecallWord &&& 0xFFFFFFFF#32 = 0x00000073#32
    decide)

theorem ebreak : Statement .ebreak := by
  intro x hw _
  exact of_row 55 (by decide) (by cases x <;> rfl) rfl (by
    show ebreakWord &&& 0xFFFFFFFF#32 = 0x00100073#32
    decide)

theorem mret : Statement .mret := by
  intro x hw _
  exact of_row 56 (by decide) (by cases x <;> rfl) rfl (by
    show mretWord &&& 0xFFFFFFFF#32 = 0x30200073#32
    decide)

theorem wfi : Statement .wfi := by
  intro x hw _
  exact of_row 57 (by decide) (by cases x <;> rfl) rfl (by
    show wfiWord &&& 0xFFFFFFFF#32 = 0x10500073#32
    decide)

theorem halt : Statement .halt := fun _ _ _ => .inl ⟨rfl, rfl⟩

theorem csrrw (rd : Reg) (csr : BitVec 12) (rs1 : Reg) : Statement (.csrrw rd csr rs1) := by
  intro x hw _
  exact of_row 58 (by decide) (by cases x <;> rfl) rfl (encodeI_mask _ _ _ _ _)

theorem csrrs (rd : Reg) (csr : BitVec 12) (rs1 : Reg) : Statement (.csrrs rd csr rs1) := by
  intro x hw _
  exact of_row 59 (by decide) (by cases x <;> rfl) rfl (encodeI_mask _ _ _ _ _)

theorem csrrc (rd : Reg) (csr : BitVec 12) (rs1 : Reg) : Statement (.csrrc rd csr rs1) := by
  intro x hw _
  exact of_row 60 (by decide) (by cases x <;> rfl) rfl (encodeI_mask _ _ _ _ _)

theorem csrrwi (rd : Reg) (csr : BitVec 12) (uimm : BitVec 5) : Statement (.csrrwi rd csr uimm) := by
  intro x hw _
  exact of_row 61 (by decide) (by cases x <;> rfl) rfl (encodeI_mask _ _ _ _ _)

theorem csrrsi (rd : Reg) (csr : BitVec 12) (uimm : BitVec 5) : Statement (.csrrsi rd csr uimm) := by
  intro x hw _
  exact of_row 62 (by decide) (by cases x <;> rfl) rfl (encodeI_mask _ _ _ _ _)

theorem csrrci (rd : Reg) (csr : BitVec 12) (uimm : BitVec 5) : Statement (.csrrci rd csr uimm) := by
  intro x hw _
  exact of_row 63 (by decide) (by cases x <;> rfl) rfl (encodeI_mask _ _ _ _ _)

theorem mul (rd rs1 rs2 : Reg) : Statement (.mul rd rs1 rs2) := by
  intro x hw _
  exact of_row 64 (by decide) (by cases x <;> rfl) rfl (encodeR_mask _ _ _ _ _ _)

theorem mulh (rd rs1 rs2 : Reg) : Statement (.mulh rd rs1 rs2) := by
  intro x hw _
  exact of_row 65 (by decide) (by cases x <;> rfl) rfl (encodeR_mask _ _ _ _ _ _)

theorem mulhsu (rd rs1 rs2 : Reg) : Statement (.mulhsu rd rs1 rs2) := by
  intro x hw _
  exact of_row 66 (by decide) (by cases x <;> rfl) rfl (encodeR_mask _ _ _ _ _ _)

theorem mulhu (rd rs1 rs2 : Reg) : Statement (.mulhu rd rs1 rs2) := by
  intro x hw _
  exact of_row 67 (by decide) (by cases x <;> rfl) rfl (encodeR_mask _ _ _ _ _ _)

theorem div (rd rs1 rs2 : Reg) : Statement (.div rd rs1 rs2) := by
  intro x hw _
  exact of_row 68 (by decide) (by cases x <;> rfl) rfl (encodeR_mask _ _ _ _ _ _)

theorem divu (rd rs1 rs2 : Reg) : Statement (.divu rd rs1 rs2) := by
  intro x hw _
  exact of_row 69 (by decide) (by cases x <;> rfl) rfl (encodeR_mask _ _ _ _ _ _)

theorem rem (rd rs1 rs2 : Reg) : Statement (.rem rd rs1 rs2) := by
  intro x hw _
  exact of_row 70 (by decide) (by cases x <;> rfl) rfl (encodeR_mask _ _ _ _ _ _)

theorem remu (rd rs1 rs2 : Reg) : Statement (.remu rd rs1 rs2) := by
  intro x hw _
  exact of_row 71 (by decide) (by cases x <;> rfl) rfl (encodeR_mask _ _ _ _ _ _)

theorem mulw (rd rs1 rs2 : Reg) : Statement (.mulw rd rs1 rs2) := by
  intro x hw h
  cases x
  · exact absurd h (by simp [Instr.wellFormed, Instr.rv64Only])
  · exact of_row 72 (by decide) rfl rfl (encodeR_mask _ _ _ _ _ _)

theorem divw (rd rs1 rs2 : Reg) : Statement (.divw rd rs1 rs2) := by
  intro x hw h
  cases x
  · exact absurd h (by simp [Instr.wellFormed, Instr.rv64Only])
  · exact of_row 73 (by decide) rfl rfl (encodeR_mask _ _ _ _ _ _)

theorem divuw (rd rs1 rs2 : Reg) : Statement (.divuw rd rs1 rs2) := by
  intro x hw h
  cases x
  · exact absurd h (by simp [Instr.wellFormed, Instr.rv64Only])
  · exact of_row 74 (by decide) rfl rfl (encodeR_mask _ _ _ _ _ _)

theorem remw (rd rs1 rs2 : Reg) : Statement (.remw rd rs1 rs2) := by
  intro x hw h
  cases x
  · exact absurd h (by simp [Instr.wellFormed, Instr.rv64Only])
  · exact of_row 75 (by decide) rfl rfl (encodeR_mask _ _ _ _ _ _)

theorem remuw (rd rs1 rs2 : Reg) : Statement (.remuw rd rs1 rs2) := by
  intro x hw h
  cases x
  · exact absurd h (by simp [Instr.wellFormed, Instr.rv64Only])
  · exact of_row 76 (by decide) rfl rfl (encodeR_mask _ _ _ _ _ _)

end Sys2Proof.Laws.TableRow
end

