-- ==== Sys2Proof/Tests/Slice0.lean ====
section
/-! SUPPORT. Tests with expected results from spec/, and a witness for each statement that has hypotheses. -/

namespace Sys2Proof.Tests

open Sys2Proof Sys2Proof.Machine

-- One theorem at a time: each kernel evaluation waits for the one before it, and would hold a thread while it waits.
set_option Elab.async false

/-! ### Small states -/

/-- Sets registers. -/
def setRegs {x : Xlen} : List (Reg × Nat) → Hart x → Hart x
  | [], h => h
  | (r, v) :: rest, h => setRegs rest (h.setReg r (BitVec.ofNat x.bits v))

/-- RAM for code, and RAM for data (spec/95_test_vectors.md 2.3). -/
def twoRegions : List Region := [⟨0x1000, 0x1000, .ram, true, true, true⟩, ⟨0x2000, 0x1000, .ram, true, true, true⟩]

/-- The data bytes of spec/95_test_vectors.md 2.3, at 0x2000. -/
def dataBytes : List Byte := [0x80, 0x91, 0xA2, 0xB3, 0xC4, 0xD5, 0xE6, 0xF7, 0x08, 0x19, 0x2A, 0x3B, 0x4C, 0x5D, 0x6E, 0x7F]

/-- A hart about to run one word at 0x1000, with mtvec 0x1800 and the given registers. -/
def small (x : Xlen) (policy : MisalignedPolicy) (word : Nat) (regs : List (Reg × Nat)) : Hart x :=
  setRegs regs
    { (Hart.initial { regions := twoRegions, misaligned := policy, haltWord := Config.defaultHaltWord } 0x1000
        ((Memory.putBytes [] 0x1000 (bytesOf (BitVec.ofNat 32 word) 4)).putBytes 0x2000 dataBytes) : Hart x) with
      mtvec := 0x1800 }

/-- The hart after a step, which always answers a next state of the same XLEN. -/
def next {x : Xlen} (h : Hart x) : Hart x :=
  match step ⟨x, h⟩ with
  | .next t => if e : t.xlen = x then e ▸ t.hart else h
  | .fault _ => h
  | .refused _ => h

theorem step_next {x : Xlen} (h : Hart x) : step ⟨x, h⟩ = .next ⟨x, next h⟩ := by
  obtain ⟨h1, e, _⟩ := step_effect h
  simp [next, e]

/-- A register and the pc after one step. -/
def result (x : Xlen) (word : Nat) (regs : List (Reg × Nat)) (rd : Reg) : Nat × Nat :=
  let h := next (small x .fault word regs)
  ((h.reg rd).toNat, h.pc.toNat)

/-- x5 after one load from 0x2000 or near it. -/
def loaded (x : Xlen) (policy : MisalignedPolicy) (word base : Nat) : Nat :=
  ((next (small x policy word [(1, base)])).reg 5).toNat

/-- The data bytes after one store of x6. -/
def stored (x : Xlen) (policy : MisalignedPolicy) (word base v : Nat) : List Byte :=
  (next (small x policy word [(1, base), (6, v)])).bytesAt 0x2000 16

/-- pc, mepc, mcause, mtval, mstatus as read, and instret_ctr: what a trap sets, and what it does not count. -/
def trapState {x : Xlen} (h : Hart x) : List Nat :=
  [h.pc.toNat, h.mepc.toNat, h.mcause.toNat, h.mtval.toNat, (h.csrValue .mstatus).toNat, h.instretCtr.toNat]

/-- The word decoded for XLEN 64 with the default HALT_WORD. -/
def d64 (w : BitVec 32) : Except DecodeError Instr := decodeWord .rv64 Config.defaultHaltWord w

/-- MIE set in mstatus. -/
def mieSet : MStatus := ⟨true, false, .user⟩

/-! ### Ill-formed terms (30_encoding.md R135, R149, R158) -/

theorem test_wellFormed_refuses_rv64_only :
    Instr.wellFormed .rv32 (.ld 5 1 0) = false ∧ Instr.wellFormed .rv32 (.mulw 5 1 2) = false ∧
    Instr.wellFormed .rv64 (.ld 5 1 0) = true := by decide

theorem test_wellFormed_refuses_shamt :
    Instr.wellFormed .rv32 (.slli 5 1 32) = false ∧ Instr.wellFormed .rv32 (.srli 5 1 63) = false ∧
    Instr.wellFormed .rv32 (.srai 5 1 32) = false ∧ Instr.wellFormed .rv32 (.srai 5 1 31) = true ∧
    Instr.wellFormed .rv64 (.slli 5 1 63) = true := by decide

/-- A HALT_WORD that is `addi x1, x0, 5` (0x00500093) takes that instruction away. -/
theorem test_shadowed_refuses_halt_word :
    Instr.shadowed 0x00500093#32 (.addi 1 0 5) = true ∧ Instr.shadowed 0x00500093#32 (.addi 1 0 6) = false ∧
    decodeWord .rv32 0x00500093#32 0x00500093#32 = .ok .halt ∧
    decodeWord .rv32 0x00500093#32 0x0000000B#32 = .error (.illegalInstruction 0x0000000B#32) := by decide +kernel

/-! ### Decoding (30_encoding.md R120 to R151) -/

/-- Words written out from the formats of 30_encoding.md, one for each instruction of the family. -/
theorem test_decode_upper_and_immediate :
    d64 0b10000000000000000001_00101_0110111#32 = .ok (.lui 5 0x80001) ∧
    d64 0b00010010001101000101_00101_0010111#32 = .ok (.auipc 5 0x12345) ∧
    d64 0b101010111100_00110_000_00101_0010011#32 = .ok (.addi 5 6 0xABC) ∧
    d64 0b011111111111_00110_010_00101_0010011#32 = .ok (.slti 5 6 0x7FF) ∧
    d64 0b100000000000_00110_011_00101_0010011#32 = .ok (.sltiu 5 6 0x800) ∧
    d64 0b111111111111_00110_100_00101_0010011#32 = .ok (.xori 5 6 0xFFF) ∧
    d64 0b000000000001_00110_110_00101_0010011#32 = .ok (.ori 5 6 0x1) ∧
    d64 0b111100000000_00110_111_00101_0010011#32 = .ok (.andi 5 6 0xF00) ∧
    d64 0b000000_111111_00110_001_00101_0010011#32 = .ok (.slli 5 6 63) ∧
    d64 0b000000_100000_00110_101_00101_0010011#32 = .ok (.srli 5 6 32) ∧
    d64 0b010000_100001_00110_101_00101_0010011#32 = .ok (.srai 5 6 33) := by decide +kernel

/-- Words written out from the formats of 30_encoding.md, one for each instruction of the family. -/
theorem test_decode_register :
    d64 0b0000000_10111_00110_000_00101_0110011#32 = .ok (.add 5 6 23) ∧
    d64 0b0100000_10111_00110_000_00101_0110011#32 = .ok (.sub 5 6 23) ∧
    d64 0b0000000_10111_00110_001_00101_0110011#32 = .ok (.sll 5 6 23) ∧
    d64 0b0000000_10111_00110_010_00101_0110011#32 = .ok (.slt 5 6 23) ∧
    d64 0b0000000_10111_00110_011_00101_0110011#32 = .ok (.sltu 5 6 23) ∧
    d64 0b0000000_10111_00110_100_00101_0110011#32 = .ok (.xor 5 6 23) ∧
    d64 0b0000000_10111_00110_101_00101_0110011#32 = .ok (.srl 5 6 23) ∧
    d64 0b0100000_10111_00110_101_00101_0110011#32 = .ok (.sra 5 6 23) ∧
    d64 0b0000000_10111_00110_110_00101_0110011#32 = .ok (.or 5 6 23) ∧
    d64 0b0000000_10111_00110_111_00101_0110011#32 = .ok (.and 5 6 23) := by decide +kernel

/-- Words written out from the formats of 30_encoding.md, one for each instruction of the family. -/
theorem test_decode_word_forms :
    d64 0b100000000001_00110_000_00101_0011011#32 = .ok (.addiw 5 6 0x801) ∧
    d64 0b0000000_11111_00110_001_00101_0011011#32 = .ok (.slliw 5 6 31) ∧
    d64 0b0000000_00001_00110_101_00101_0011011#32 = .ok (.srliw 5 6 1) ∧
    d64 0b0100000_10001_00110_101_00101_0011011#32 = .ok (.sraiw 5 6 17) ∧
    d64 0b0000000_10111_00110_000_00101_0111011#32 = .ok (.addw 5 6 23) ∧
    d64 0b0100000_10111_00110_000_00101_0111011#32 = .ok (.subw 5 6 23) ∧
    d64 0b0000000_10111_00110_001_00101_0111011#32 = .ok (.sllw 5 6 23) ∧
    d64 0b0000000_10111_00110_101_00101_0111011#32 = .ok (.srlw 5 6 23) ∧
    d64 0b0100000_10111_00110_101_00101_0111011#32 = .ok (.sraw 5 6 23) := by decide +kernel

/-- Words written out from the formats of 30_encoding.md, one for each instruction of the family. -/
theorem test_decode_loads_and_stores :
    d64 0b111111111111_00110_000_00101_0000011#32 = .ok (.lb 5 6 0xFFF) ∧
    d64 0b000000000010_00110_001_00101_0000011#32 = .ok (.lh 5 6 0x2) ∧
    d64 0b100000000100_00110_010_00101_0000011#32 = .ok (.lw 5 6 0x804) ∧
    d64 0b011111111111_00110_100_00101_0000011#32 = .ok (.lbu 5 6 0x7FF) ∧
    d64 0b000000010010_00110_101_00101_0000011#32 = .ok (.lhu 5 6 0x12) ∧
    d64 0b000000010000_00110_110_00101_0000011#32 = .ok (.lwu 5 6 0x10) ∧
    d64 0b111111111000_00110_011_00101_0000011#32 = .ok (.ld 5 6 0xFF8) ∧
    d64 0b1000000_10111_00110_000_11111_0100011#32 = .ok (.sb 23 6 0x81F) ∧
    d64 0b0111111_10111_00110_001_00010_0100011#32 = .ok (.sh 23 6 0x7E2) ∧
    d64 0b1111111_10111_00110_010_00100_0100011#32 = .ok (.sw 23 6 0xFE4) ∧
    d64 0b0000000_10111_00110_011_11000_0100011#32 = .ok (.sd 23 6 0x18) := by decide +kernel

/-- Words written out from the formats of 30_encoding.md, one for each instruction of the family. -/
theorem test_decode_branches_and_jumps :
    d64 0b1_000000_10111_00110_000_0001_0_1100011#32 = .ok (.beq 6 23 0x801) ∧
    d64 0b0_000000_10111_00110_001_0000_1_1100011#32 = .ok (.bne 6 23 0x400) ∧
    d64 0b0_111111_10111_00110_100_0000_0_1100011#32 = .ok (.blt 6 23 0x3F0) ∧
    d64 0b0_000000_10111_00110_101_1111_0_1100011#32 = .ok (.bge 6 23 0xF) ∧
    d64 0b0_111111_10111_00110_110_1111_1_1100011#32 = .ok (.bltu 6 23 0x7FF) ∧
    d64 0b1_111111_10111_00110_111_1000_1_1100011#32 = .ok (.bgeu 6 23 0xFF8) ∧
    d64 0b1_0000000001_1_00000000_00101_1101111#32 = .ok (.jal 5 0x80401) ∧
    d64 0b0_1100000010_0_11111111_00101_1101111#32 = .ok (.jal 5 0x7FB02) ∧
    d64 0b111111111110_00110_000_00101_1100111#32 = .ok (.jalr 5 6 0xFFE) := by decide +kernel

/-- Words written out from the formats of 30_encoding.md, one for each instruction of the family. -/
theorem test_decode_system :
    d64 0b1000_0011_0001_00110_000_00101_0001111#32 = .ok (.fence 5 6 8 3 1) ∧
    d64 0b000100100011_00110_001_00101_0001111#32 = .ok (.fenceI 5 6 0x123) ∧
    d64 0b000000000000_00000_000_00000_1110011#32 = .ok .ecall ∧
    d64 0b000000000001_00000_000_00000_1110011#32 = .ok .ebreak ∧
    d64 0b001100000010_00000_000_00000_1110011#32 = .ok .mret ∧
    d64 0b000100000101_00000_000_00000_1110011#32 = .ok .wfi ∧
    d64 0b00000000000000000000000000001011#32 = .ok .halt := by decide +kernel

/-- Words written out from the formats of 30_encoding.md, one for each instruction of the family. -/
theorem test_decode_csr :
    d64 0b001100000101_00110_001_00101_1110011#32 = .ok (.csrrw 5 0x305 6) ∧
    d64 0b110000000010_00000_010_00101_1110011#32 = .ok (.csrrs 5 0xC02 0) ∧
    d64 0b001100000100_11111_011_00101_1110011#32 = .ok (.csrrc 5 0x304 31) ∧
    d64 0b001101000001_11111_101_00101_1110011#32 = .ok (.csrrwi 5 0x341 31) ∧
    d64 0b001100000000_01000_110_00101_1110011#32 = .ok (.csrrsi 5 0x300 8) ∧
    d64 0b001100000000_00001_111_00101_1110011#32 = .ok (.csrrci 5 0x300 1) := by decide +kernel

/-- Words written out from the formats of 30_encoding.md, one for each instruction of the family. -/
theorem test_decode_multiply_and_divide :
    d64 0b0000001_10111_00110_000_00101_0110011#32 = .ok (.mul 5 6 23) ∧
    d64 0b0000001_10111_00110_001_00101_0110011#32 = .ok (.mulh 5 6 23) ∧
    d64 0b0000001_10111_00110_010_00101_0110011#32 = .ok (.mulhsu 5 6 23) ∧
    d64 0b0000001_10111_00110_011_00101_0110011#32 = .ok (.mulhu 5 6 23) ∧
    d64 0b0000001_10111_00110_100_00101_0110011#32 = .ok (.div 5 6 23) ∧
    d64 0b0000001_10111_00110_101_00101_0110011#32 = .ok (.divu 5 6 23) ∧
    d64 0b0000001_10111_00110_110_00101_0110011#32 = .ok (.rem 5 6 23) ∧
    d64 0b0000001_10111_00110_111_00101_0110011#32 = .ok (.remu 5 6 23) ∧
    d64 0b0000001_10111_00110_000_00101_0111011#32 = .ok (.mulw 5 6 23) ∧
    d64 0b0000001_10111_00110_100_00101_0111011#32 = .ok (.divw 5 6 23) ∧
    d64 0b0000001_10111_00110_101_00101_0111011#32 = .ok (.divuw 5 6 23) ∧
    d64 0b0000001_10111_00110_110_00101_0111011#32 = .ok (.remw 5 6 23) ∧
    d64 0b0000001_10111_00110_111_00101_0111011#32 = .ok (.remuw 5 6 23) := by decide +kernel

/-- R150, R151, R158 and spec/95_test_vectors.md 2.7. -/
theorem test_decode_refuses :
    d64 0x00000000#32 = .error (.illegalInstruction 0x00000000#32) ∧
    d64 0xFFFFFFFF#32 = .error (.illegalInstruction 0xFFFFFFFF#32) ∧
    d64 0x00010001#32 = .error (.illegalInstruction 0x00010001#32) ∧
    d64 0x10200073#32 = .error (.illegalInstruction 0x10200073#32) ∧
    d64 0x0200101B#32 = .error (.illegalInstruction 0x0200101B#32) ∧
    d64 0x6000D113#32 = .error (.illegalInstruction 0x6000D113#32) ∧
    d64 0x00007003#32 = .error (.illegalInstruction 0x00007003#32) ∧
    d64 0x00001067#32 = .error (.illegalInstruction 0x00001067#32) ∧
    decodeWord .rv32 0xB#32 0x02009113#32 = .error (.illegalInstruction 0x02009113#32) ∧
    decodeWord .rv32 0xB#32 0x00003003#32 = .error (.illegalInstruction 0x00003003#32) := by decide +kernel

theorem test_decode_bytes :
    decode .rv32 0xB#32 [0x93, 0x00, 0x50, 0x00, 0xFF] = .ok (.addi 1 0 5, [0xFF]) ∧
    decode .rv32 0xB#32 [0x93, 0x00, 0x50] = .error .truncated := by decide +kernel

/-- The host's two probes: the word of `ld x5, -4(x1)` decodes, and `step` runs it from reset. -/
theorem test_withFetchWord :
    decodeTableWord 32 0xFFC0B283 = some (.ld 5 1 0xFFC) ∧
    ((match step (State.reset.withFetchWord 32 0x80000297) with
      | .next t => (t.hart.reg 5).toNat
      | _ => 0) = 0xFFFFFFFF80001000) := by decide +kernel

/-! ### One step of each instruction: rows of spec/95_test_vectors.md, section 2 -/

theorem test_lui : result .rv64 0xFFFFF2B7 [] 5 = (0xFFFFFFFFFFFFF000, 0x1004) := by decide +kernel
theorem test_auipc : result .rv64 0x80000297 [] 5 = (0xFFFFFFFF80001000, 0x1004) := by decide +kernel
theorem test_addi_wraps : result .rv32 0x00108113 [(1, 0x7FFFFFFF)] 2 = (0x80000000, 0x1004) := by decide +kernel
theorem test_addi_x0 : result .rv32 0x00000013 [] 0 = (0x0, 0x1004) := by decide +kernel
theorem test_slti_equal : result .rv32 0x8000A113 [(1, 0xFFFFF800)] 2 = (0x0, 0x1004) := by decide +kernel
theorem test_sltiu_extends : result .rv32 0x8000B113 [(1, 0xFFFFF7FF)] 2 = (0x1, 0x1004) := by decide +kernel
theorem test_xori : result .rv64 0xFFF0C113 [(1, 0xAAAAAAAA)] 2 = (0xFFFFFFFF55555555, 0x1004) := by decide +kernel
theorem test_ori : result .rv32 0x8000E113 [(1, 0x0)] 2 = (0xFFFFF800, 0x1004) := by decide +kernel
theorem test_andi : result .rv64 0xF000F113 [(1, 0xDEADBEEFCAFEF00D)] 2 = (0xDEADBEEFCAFEF000, 0x1004) := by decide +kernel
theorem test_slli_by_32 : result .rv64 0x02009113 [(1, 0xFFFFFFFF)] 2 = (0xFFFFFFFF00000000, 0x1004) := by decide +kernel
theorem test_srli : result .rv64 0x0210D113 [(1, 0xFFFFFFFF00000000)] 2 = (0x7FFFFFFF, 0x1004) := by decide +kernel
theorem test_srai : result .rv64 0x43C0D113 [(1, 0xF000000000000000)] 2 = (0xFFFFFFFFFFFFFFFF, 0x1004) := by decide +kernel
theorem test_add_wraps : result .rv32 0x002081B3 [(1, 0x80000000), (2, 0x80000000)] 3 = (0x0, 0x1004) := by decide +kernel
theorem test_sub : result .rv32 0x402081B3 [(1, 0x80000000), (2, 0xFFFFFFFF)] 3 = (0x80000001, 0x1004) := by decide +kernel
theorem test_sll_masks_amount : result .rv32 0x002091B3 [(1, 0x1), (2, 0xFFFFFFFF)] 3 = (0x80000000, 0x1004) := by decide +kernel
theorem test_sll_by_64 : result .rv64 0x002091B3 [(1, 0x1), (2, 0x40)] 3 = (0x1, 0x1004) := by decide +kernel
theorem test_slt : result .rv32 0x0020A1B3 [(1, 0x80000000), (2, 0x7FFFFFFF)] 3 = (0x1, 0x1004) := by decide +kernel
theorem test_sltu : result .rv32 0x0020B1B3 [(1, 0x7FFFFFFF), (2, 0x80000000)] 3 = (0x1, 0x1004) := by decide +kernel
theorem test_xor : result .rv32 0x0020C1B3 [(1, 0xFF00FF00), (2, 0xFF00FF0)] 3 = (0xF0F0F0F0, 0x1004) := by decide +kernel
theorem test_srl : result .rv64 0x0020D1B3 [(1, 0x8000000000000000), (2, 0x3F)] 3 = (0x1, 0x1004) := by decide +kernel
theorem test_sra : result .rv64 0x4020D1B3 [(1, 0x8000000000000000), (2, 0x7F)] 3 = (0xFFFFFFFFFFFFFFFF, 0x1004) := by decide +kernel
theorem test_or : result .rv32 0x0020E1B3 [(1, 0xFF00FF00), (2, 0xFF00FF0)] 3 = (0xFFF0FFF0, 0x1004) := by decide +kernel
theorem test_and : result .rv32 0x0020F1B3 [(1, 0xFF00FF00), (2, 0xFF00FF0)] 3 = (0xF000F00, 0x1004) := by decide +kernel
theorem test_addiw : result .rv64 0x0000811B [(1, 0x1FFFFFFFF)] 2 = (0xFFFFFFFFFFFFFFFF, 0x1004) := by decide +kernel
theorem test_slliw : result .rv64 0x01E0911B [(1, 0xFFFFFFFF00000003)] 2 = (0xFFFFFFFFC0000000, 0x1004) := by decide +kernel
theorem test_srliw : result .rv64 0x0000D11B [(1, 0xFFFFFFFF80000000)] 2 = (0xFFFFFFFF80000000, 0x1004) := by decide +kernel
theorem test_sraiw : result .rv64 0x4040D11B [(1, 0xFFFFFFFF7FFFFFFF)] 2 = (0x7FFFFFF, 0x1004) := by decide +kernel
theorem test_addw : result .rv64 0x002081BB [(1, 0xFFFFFFFF), (2, 0x1)] 3 = (0x0, 0x1004) := by decide +kernel
theorem test_subw : result .rv64 0x402081BB [(1, 0x80000000), (2, 0x1)] 3 = (0x7FFFFFFF, 0x1004) := by decide +kernel
theorem test_sllw : result .rv64 0x002091BB [(1, 0x1), (2, 0x3F)] 3 = (0xFFFFFFFF80000000, 0x1004) := by decide +kernel
theorem test_srlw : result .rv64 0x0020D1BB [(1, 0xFFFFFFFF80000000), (2, 0x21)] 3 = (0x40000000, 0x1004) := by decide +kernel
theorem test_sraw : result .rv64 0x4020D1BB [(1, 0x80000000), (2, 0x3F)] 3 = (0xFFFFFFFFFFFFFFFF, 0x1004) := by decide +kernel

theorem test_beq : result .rv32 0x02208063 [(1, 0x5), (2, 0x5)] 0 = (0x0, 0x1020) := by decide +kernel
theorem test_bne : result .rv32 0x02209063 [(1, 0x5), (2, 0x5)] 0 = (0x0, 0x1004) := by decide +kernel
theorem test_blt : result .rv64 0x0220C063 [(1, 0xFFFFFFFF), (2, 0x0)] 0 = (0x0, 0x1004) := by decide +kernel
theorem test_bge : result .rv32 0x0220D063 [(1, 0x80000000), (2, 0x7FFFFFFF)] 0 = (0x0, 0x1004) := by decide +kernel
theorem test_bltu : result .rv32 0x0220E063 [(1, 0x0), (2, 0xFFFFFFFF)] 0 = (0x0, 0x1020) := by decide +kernel
theorem test_bgeu : result .rv32 0x0220F063 [(1, 0x7), (2, 0x7)] 0 = (0x0, 0x1020) := by decide +kernel
theorem test_beq_backward : result .rv32 0x80000063 [] 0 = (0x0, 0x0) := by decide +kernel
theorem test_jal : result .rv32 0x800000EF [] 1 = (0x1004, 0xFFF01000) := by decide +kernel
theorem test_jalr_old_source : result .rv32 0x004080E7 [(1, 0x1800)] 1 = (0x1004, 0x1804) := by decide +kernel
theorem test_jalr_clears_bit_0 : result .rv32 0xFFF280E7 [(5, 0x1800)] 1 = (0x1004, 0x17FE) := by decide +kernel

theorem test_mul : result .rv32 0x022081B3 [(1, 0xFFFFFFFF), (2, 0xFFFFFFFF)] 3 = (0x1, 0x1004) := by decide +kernel
theorem test_mulh : result .rv32 0x022091B3 [(1, 0x80000000), (2, 0x1)] 3 = (0xFFFFFFFF, 0x1004) := by decide +kernel
theorem test_mulhsu : result .rv32 0x0220A1B3 [(1, 0x80000000), (2, 0xFFFFFFFF)] 3 = (0x80000000, 0x1004) := by decide +kernel
theorem test_mulhu : result .rv64 0x0220B1B3 [(1, 0xFFFFFFFFFFFFFFFF), (2, 0xFFFFFFFFFFFFFFFF)] 3 = (0xFFFFFFFFFFFFFFFE, 0x1004) := by decide +kernel
theorem test_div_by_zero : result .rv32 0x0220C1B3 [(1, 0x5), (2, 0x0)] 3 = (0xFFFFFFFF, 0x1004) := by decide +kernel
theorem test_div_truncates : result .rv32 0x0220C1B3 [(1, 0xFFFFFFF9), (2, 0x2)] 3 = (0xFFFFFFFD, 0x1004) := by decide +kernel
theorem test_divu : result .rv32 0x0220D1B3 [(1, 0xFFFFFFF9), (2, 0x2)] 3 = (0x7FFFFFFC, 0x1004) := by decide +kernel
theorem test_rem : result .rv32 0x0220E1B3 [(1, 0xFFFFFFF9), (2, 0x2)] 3 = (0xFFFFFFFF, 0x1004) := by decide +kernel
theorem test_rem_overflow : result .rv32 0x0220E1B3 [(1, 0x80000000), (2, 0xFFFFFFFF)] 3 = (0x0, 0x1004) := by decide +kernel
theorem test_remu : result .rv32 0x0220F1B3 [(1, 0xFFFFFFF9), (2, 0x2)] 3 = (0x1, 0x1004) := by decide +kernel
theorem test_mulw : result .rv64 0x022081BB [(1, 0x10000), (2, 0x8000)] 3 = (0xFFFFFFFF80000000, 0x1004) := by decide +kernel
theorem test_divw : result .rv64 0x0220C1BB [(1, 0x100000005), (2, 0x100000000)] 3 = (0xFFFFFFFFFFFFFFFF, 0x1004) := by decide +kernel
theorem test_divuw : result .rv64 0x0220D1BB [(1, 0xFFFFFFF9), (2, 0x2)] 3 = (0x7FFFFFFC, 0x1004) := by decide +kernel
theorem test_remw : result .rv64 0x0220E1BB [(1, 0xFFFFFFFB), (2, 0x100000000)] 3 = (0xFFFFFFFFFFFFFFFB, 0x1004) := by decide +kernel
theorem test_remuw : result .rv64 0x0220F1BB [(1, 0x80000005), (2, 0x0)] 3 = (0xFFFFFFFF80000005, 0x1004) := by decide +kernel

theorem test_lb : loaded .rv32 .fault 0x00708283 0x2000 = 0xFFFFFFF7 := by decide +kernel
theorem test_lbu : loaded .rv32 .fault 0x0070C283 0x2000 = 0xF7 := by decide +kernel
theorem test_lh : loaded .rv64 .fault 0x00609283 0x2000 = 0xFFFFFFFFFFFFF7E6 := by decide +kernel
theorem test_lhu : loaded .rv32 .split 0x0030D283 0x2000 = 0xC4B3 := by decide +kernel
theorem test_lw : loaded .rv64 .fault 0x0000A283 0x2000 = 0xFFFFFFFFB3A29180 := by decide +kernel
theorem test_lw_split : loaded .rv32 .split 0x0050A283 0x2000 = 0x08F7E6D5 := by decide +kernel
theorem test_lwu : loaded .rv64 .fault 0x0000E283 0x2000 = 0xB3A29180 := by decide +kernel
theorem test_ld : loaded .rv64 .split 0x0010B283 0x2000 = 0x08F7E6D5C4B3A291 := by decide +kernel

theorem test_load_faults :
    trapState (next (small .rv32 .fault 0x0020A283 [(1, 0x2000)])) = [0x1800, 0x1000, 5, 0x2002, 0x1800, 0] ∧
    trapState (next (small .rv64 .fault 0xFFF08283 [])) =
      [0x1800, 0x1000, 5, 0xFFFFFFFFFFFFFFFF, 0xA00001800, 0] ∧
    trapState (next (small .rv32 .split 0x0000A283 [(1, 0x2FFE)])) = [0x1800, 0x1000, 5, 0x3000, 0x1800, 0] := by
  decide +kernel

theorem test_sb : stored .rv64 .fault 0x006081A3 0x2000 0x1122334455667788 =
    [0x80, 0x91, 0xA2, 0x88, 0xC4, 0xD5, 0xE6, 0xF7, 0x08, 0x19, 0x2A, 0x3B, 0x4C, 0x5D, 0x6E, 0x7F] := by decide +kernel
theorem test_sh : stored .rv32 .split 0x006090A3 0x2000 0x12345678 =
    [0x80, 0x78, 0x56, 0xB3, 0xC4, 0xD5, 0xE6, 0xF7, 0x08, 0x19, 0x2A, 0x3B, 0x4C, 0x5D, 0x6E, 0x7F] := by decide +kernel
theorem test_sw : stored .rv32 .fault 0xFE60AE23 0x2004 0xAABBCCDD =
    [0xDD, 0xCC, 0xBB, 0xAA, 0xC4, 0xD5, 0xE6, 0xF7, 0x08, 0x19, 0x2A, 0x3B, 0x4C, 0x5D, 0x6E, 0x7F] := by decide +kernel
theorem test_sd : stored .rv64 .split 0x0060B1A3 0x2000 0x1122334455667788 =
    [0x80, 0x91, 0xA2, 0x88, 0x77, 0x66, 0x55, 0x44, 0x33, 0x22, 0x11, 0x3B, 0x4C, 0x5D, 0x6E, 0x7F] := by decide +kernel

theorem test_store_faults :
    trapState (next (small .rv32 .fault 0x0060A323 [(1, 0x2000)])) = [0x1800, 0x1000, 7, 0x2006, 0x1800, 0] ∧
    trapState (next (small .rv32 .split 0x0060A023 [(1, 0x2FFE), (6, 0x12345678)])) =
      [0x1800, 0x1000, 7, 0x3000, 0x1800, 0] ∧
    (next (small .rv32 .split 0x0060A023 [(1, 0x2FFE), (6, 0x12345678)])).memory =
      (small .rv32 .split 0x0060A023 []).memory := by decide +kernel

theorem test_fence : result .rv32 0x8330000F [] 0 = (0, 0x1004) := by decide +kernel
theorem test_fenceI : result .rv32 0x1233128F [] 5 = (0, 0x1004) := by decide +kernel
theorem test_wfi : result .rv32 0x10500073 [] 0 = (0, 0x1004) := by decide +kernel

/-- Spec 2.5: the timer interrupt is taken in the step of the WFI. -/
theorem test_wfi_interrupt :
    trapState (next { small .rv32 .fault 0x10500073 [] with
      mstatus := mieSet, mie := ⟨false, true, false⟩, irq := ⟨false, true, false⟩ }) = [0x1800, 0x1004, 0x80000007, 0, 0x1880, 1] := by decide +kernel

theorem test_ecall :
    trapState (next { small .rv32 .fault 0x00000073 [] with mstatus := mieSet }) =
      [0x1800, 0x1000, 11, 0, 0x1880, 0] ∧
    trapState (next { small .rv32 .fault 0x00000073 [] with mstatus := mieSet, priv := .supervisor }) =
      [0x1800, 0x1000, 9, 0, 0x880, 0] ∧
    trapState (next { small .rv32 .fault 0x00000073 [] with mstatus := mieSet, priv := .user }) =
      [0x1800, 0x1000, 8, 0, 0x80, 0] := by decide +kernel

theorem test_ebreak :
    trapState (next { small .rv32 .fault 0x00100073 [] with mstatus := mieSet, priv := .user, mtvec := 0x1801 }) =
      [0x1800, 0x1000, 3, 0x1000, 0x80, 0] := by decide +kernel

/-- Spec 2.5: from M with MPP = U and MPIE = 1. -/
theorem test_mret :
    trapState (next { small .rv32 .fault 0x30200073 [] with mstatus := ⟨false, true, .user⟩, mepc := 0x2000 }) =
      [0x2000, 0x2000, 0, 0, 0x88, 1] ∧
    (next { small .rv32 .fault 0x30200073 [] with mstatus := ⟨false, true, .user⟩, mepc := 0x2000 }).priv = .user := by
  decide +kernel

theorem test_mret_in_s_mode :
    trapState (next { small .rv32 .fault 0x30200073 [] with mstatus := ⟨false, true, .user⟩, priv := .supervisor }) =
      [0x1800, 0x1000, 2, 0x30200073, 0x800, 0] := by decide +kernel

theorem test_halt :
    next (small .rv32 .fault 0x0000000B []) = { small .rv32 .fault 0x0000000B [] with halted := true } := by
  decide +kernel

/-- Spec 2.6: MPP 0b10 written keeps the old MPP. -/
theorem test_csrrw_mstatus :
    trapState (next { small .rv32 .fault 0x300092F3 [(1, 0x1008)] with mstatus := ⟨false, true, .supervisor⟩ }) =
      [0x1004, 0, 0, 0, 0x808, 1] := by decide +kernel
theorem test_csrrw_swap :
    ((next { small .rv32 .fault 0x341292F3 [(5, 0x2000)] with mepc := 0x1234 }).reg 5).toNat = 0x1234 ∧
    (next { small .rv32 .fault 0x341292F3 [(5, 0x2000)] with mepc := 0x1234 }).mepc = 0x2000 := by decide +kernel
theorem test_csrrs_cycleh :
    ((next { small .rv32 .fault 0xC80022F3 [] with cycleCtr := 0x100000005 }).reg 5).toNat = 1 := by decide +kernel
/-- Spec 2.6: rs1 = x1 holding 0 still counts as a write to a read-only address. -/
theorem test_csrrs_read_only :
    trapState (next (small .rv32 .fault 0xC020A2F3 [])) = [0x1800, 0x1000, 2, 0xC020A2F3, 0x1800, 0] := by decide +kernel
/-- Spec 2.6: clearing bit 11 alone would leave MPP 0b10. -/
theorem test_csrrc :
    trapState (next { small .rv32 .fault 0x3000B2F3 [(1, 0x800)] with mstatus := ⟨true, true, .machine⟩ }) =
      [0x1004, 0, 0, 0, 0x1888, 1] := by decide +kernel
theorem test_csrrwi : (next (small .rv32 .fault 0x305FD2F3 [])).mtvec = 0x1D := by decide +kernel
theorem test_csrrsi : trapState (next (small .rv32 .fault 0x300462F3 [])) = [0x1004, 0, 0, 0, 8, 1] := by decide +kernel
theorem test_csrrci :
    trapState (next { small .rv32 .fault 0x300472F3 [] with mstatus := ⟨true, true, .user⟩ }) =
      [0x1004, 0, 0, 0, 0x80, 1] := by decide +kernel

/-- Spec 2.8: external before software before timer, Vectored. -/
theorem test_interrupt_priority :
    trapState (next { small .rv32 .fault 0x00100293 [] with
      mstatus := mieSet, mie := ⟨true, true, true⟩, irq := ⟨true, true, true⟩, mtvec := 0x1801 }) = [0x182C, 0x1004, 0x8000000B, 0, 0x1880, 1] := by decide +kernel

/-- Spec 2.8: an illegal instruction in the step of a pending interrupt. -/
theorem test_exception_first :
    trapState (next { small .rv32 .fault 0 [] with
      mstatus := mieSet, mie := ⟨true, true, true⟩, irq := ⟨false, true, false⟩, mtvec := 0x2000 }) = [0x2000, 0x1000, 2, 0, 0x1880, 0] := by decide +kernel

/-- Spec 2.4: the second of the two steps of `jalr x1, 2(x5)`, at the misaligned target. -/
theorem test_fetch_fault :
    trapState (next { small .rv32 .fault 0 [] with pc := 0x2002, instretCtr := 1 }) =
      [0x1800, 0x2002, 1, 0x2002, 0x1800, 1] := by decide +kernel

/-! ### Reset -/

theorem test_reset_memory_wf : State.reset.hart.memory.wf := by decide

/-- Spec 1.1's image, as the host loads it. -/
def scenario : Configuration where
  xlen := 32
  regions := [⟨0x1000, 0x1000, .ram, true, true, true⟩]
  image := [(0x1000, [0x93, 0x00, 0x50, 0x00, 0x13, 0x01, 0x00, 0x00, 0xB3, 0xC1, 0x20, 0x02, 0x0B, 0x00, 0x00, 0x00])]
  resetPc := 0x1000
  misaligned := .fault
  haltWord := 0xB

/-- The core the scenario's configuration creates. -/
def scenarioHart : Hart .rv32 :=
  Hart.initial { regions := scenario.regions, misaligned := .fault, haltWord := 0xB } 0x1000 (imageMemory scenario.image)

theorem test_boot : boot scenario = .next ⟨.rv32, scenarioHart⟩ := rfl
theorem test_boot_refuses_odd_pc : boot { scenario with resetPc := 0x1001 } = .refused .inconsistentConfiguration := rfl

/-! ### Witnesses: states and operands that meet the hypotheses of the statements, clause by clause

A clause about what a device answers, or about how far the clock moved on, has no concrete witness: those values are free
(logs 5 and 8). Its other hypotheses have one. -/

section Witnesses

/-- The RAM region of the data, and that of the code. -/
def dataRam : Region := ⟨0x2000, 0x1000, .ram, true, true, true⟩
def codeRam : Region := ⟨0x1000, 0x1000, .ram, true, true, true⟩

/-- A device region after the data. -/
def device : Region := ⟨0x3000, 0x100, .device, true, true, true⟩

/-- `add x3, x1, x2` at 0x1000. -/
def addHart : Hart .rv32 := small .rv32 .split 0x002081B3 [(1, 0x2000), (2, 7)]

/-- The same with a device region, executable and reached by x1. -/
def deviceHart : Hart .rv64 :=
  { small .rv64 .fault 0x0000B283 [(1, 0x30F8)] with
    params := { regions := twoRegions ++ [device], misaligned := .fault, haltWord := 0xB } }

/-- A timer interrupt pending and enabled, before `add`. -/
def timerHart : Hart .rv32 :=
  { addHart with mstatus := mieSet, mie := ⟨false, true, false⟩, irq := ⟨false, true, false⟩ }

theorem addHart_fetch : addHart.fetch = (.ok 0x002081B3#32, addHart) := by decide +kernel
theorem addHart_inv : addHart.Inv :=
  ⟨by decide +kernel, by decide +kernel, by decide +kernel, by decide +kernel, by decide +kernel, by decide +kernel⟩

/-- O2, O3, O4: the largest shift amounts, HALT_WORD, a word of a row, a word of none. -/
theorem witness_decoding :
    Instr.wellFormed .rv32 (.srai 31 0 31) = true ∧ Instr.shadowed 0xB#32 (.srai 31 0 31) = false ∧
    Instr.wellFormed .rv64 (.srai 31 0 63) = true ∧ Instr.shadowed 0xB#32 (.srai 31 0 63) = false ∧
    decodeWord .rv64 0xB#32 0xFFFFFFFF#32 = .error (.illegalInstruction 0xFFFFFFFF#32) ∧
    decodeWord .rv64 0xB#32 0xFFFFF2B7#32 = .ok (.lui 5 0xFFFFF) ∧
    (∃ r ∈ opcodeTable, r.admits .rv64 = true ∧ r.matches 0xFFFFF2B7#32 = true) ∧ 0xFFFFF2B7#32 ≠ 0xB#32 ∧
    (∀ r ∈ opcodeTable, r.admits .rv64 = true → r.matches 0x00000000#32 = false) := by decide +kernel

/-- O5: the words of a decoded and of a refused list of bytes, and a list that is too short. -/
theorem witness_BytesDecodeLittleEndian :
    (0x00500093#32).toNat = (0x93#8).toNat + 256 * (0x00#8).toNat + 65536 * (0x50#8).toNat + 16777216 * (0x00#8).toNat ∧
    decodeWord .rv32 0xB#32 0x00500093#32 = .ok (.addi 1 0 5) ∧
    decodeWord .rv32 0xB#32 0x00000000#32 = .error (.illegalInstruction 0) ∧
    ([0x93#8, 0x00#8, 0x50#8] : List Byte).length < 4 := by decide +kernel

/-- O6: a word with a known opcode and no row, one with an unknown opcode, one whose low two bits are not 11, fetched. -/
theorem witness_IllegalWordsTrap :
    (∀ r ∈ opcodeTable, r.admits .rv32 = true → r.matches 0x00007003#32 = false) ∧ 0x00007003#32 ≠ 0xB#32 ∧
    opcodeOf 0x00000053#32 ∉ [0x03#7, 0x0F#7, 0x13#7, 0x17#7, 0x1B#7, 0x23#7, 0x33#7, 0x37#7, 0x3B#7, 0x63#7, 0x67#7,
      0x6F#7, 0x73#7] ∧
    (0x00010001#32).extractLsb' 0 2 ≠ 0b11#2 ∧
    (small .rv32 .fault 0x00010001 []).halted = false ∧
    (small .rv32 .fault 0x00010001 []).fetch = (.ok 0x00010001#32, small .rv32 .fault 0x00010001 []) := by decide +kernel

/-- O7: a word for each clause. -/
theorem witness_XlenGatedEncodings :
    opcodeOf 0x0000001B#32 = 0x1B#7 ∧ opcodeOf 0x0000003B#32 = 0x3B#7 ∧
    (opcodeOf 0x00003003#32 = 0x03#7 ∧ funct3Of 0x00003003#32 = 0b011#3) ∧
    (opcodeOf 0x00006003#32 = 0x03#7 ∧ funct3Of 0x00006003#32 = 0b110#3) ∧
    (opcodeOf 0x00003023#32 = 0x23#7 ∧ funct3Of 0x00003023#32 = 0b011#3) ∧
    (opcodeOf 0x02009113#32 = 0x13#7 ∧ funct3Of 0x02009113#32 = 0b001#3 ∧ (0x02009113#32).getLsbD 25 = true ∧
      funct6Of 0x02009113#32 = 0b000000#6) ∧
    (funct3Of 0x0210D113#32 = 0b101#3 ∧ (0x0210D113#32).getLsbD 25 = true ∧ funct6Of 0x0210D113#32 = 0b000000#6) ∧
    (funct3Of 0x43C0D113#32 = 0b101#3 ∧ (0x43C0D113#32).getLsbD 25 = true ∧ funct6Of 0x43C0D113#32 = 0b010000#6) := by
  decide +kernel

/-- O8: `add` at 0x1000, and at the last word of the region; a pc in an executable device region. -/
theorem witness_StepRunsDecodedInstruction :
    addHart.halted = false ∧ addHart.pc.toNat % 4 = 0 ∧ addHart.ReachesStorage .fetch addHart.pc.toNat 4 ∧
    addHart.ReachesStorage .fetch 0x1FFC 4 ∧
    decode .rv32 addHart.params.haltWord (addHart.bytesAt addHart.pc.toNat 4) = .ok (.add 3 1 2, []) ∧
    regionFor deviceHart.params.regions .fetch 0x3000 4 = some device ∧ device.kind = .device :=
  ⟨by decide +kernel, by decide +kernel, ⟨codeRam, by decide +kernel, by decide⟩, ⟨codeRam, by decide +kernel, by decide⟩,
    by decide +kernel⟩

/-- O9: pc with bit 1 set, pc one past the regions, pc in a device region. -/
theorem witness_FetchFaultsTrap :
    ({ addHart with pc := 0x1002 } : Hart .rv32).pc.toNat % 4 ≠ 0 ∧
    ({ addHart with pc := 0x3000 } : Hart .rv32).Unmapped .fetch 0x3000 4 ∧
    regionFor deviceHart.params.regions .fetch 0x3000 4 = some device ∧ device.kind = .device ∧
    addHart.halted = false := by unfold Hart.Unmapped; decide +kernel

/-- O11, O16, O17, O18, O19, O37: a state that meets the invariant, and its step; a halted core; a halting step. -/
theorem witness_steps :
    State.Inv ⟨.rv32, addHart⟩ ∧ step ⟨.rv32, addHart⟩ = .next ⟨.rv32, next addHart⟩ ∧
    addHart.halted = false ∧ (next addHart).halted = false ∧
    ({ addHart with halted := true } : Hart .rv32).halted = true ∧ (next (small .rv32 .fault 0xB [])).halted = true :=
  ⟨addHart_inv, step_next _, by decide +kernel, by decide +kernel, by decide +kernel, by decide +kernel⟩

/-- O14: `add` raises nothing; ECALL does; neither step halts. -/
theorem witness_CountersCountStepsAndCommits :
    addHart.Commits ∧ step ⟨.rv32, addHart⟩ = .next ⟨.rv32, next addHart⟩ ∧ (next addHart).halted = false ∧
    (let h : Hart .rv32 := small .rv32 .fault 0x00000073 []
     ¬ h.Commits ∧ step ⟨.rv32, h⟩ = .next ⟨.rv32, next h⟩ ∧ h.halted = false ∧ (next h).halted = false) := by
  refine ⟨⟨_, _, .add 3 1 2, addHart_fetch, by decide +kernel, ?_⟩, step_next _, by decide +kernel, ?_, step_next _,
    by decide +kernel, by decide +kernel⟩
  · rintro (h | h | h | h | ⟨_, _, _, h, _⟩ | ⟨_, _, _, _, _, h, _⟩ | ⟨_, _, _, _, _, h, _⟩)
    case inl => exact absurd h (by decide)
    all_goals simp [Instr.csrForm, Instr.loadForm, Instr.storeForm] at h
  · rintro ⟨w, h', i, hf, hd, hn⟩
    rw [show (small .rv32 .fault 0x00000073 []).fetch = (.ok 0x00000073#32, small .rv32 .fault 0x00000073 []) by
      decide +kernel] at hf
    obtain ⟨rfl, rfl⟩ : w = 0x00000073#32 ∧ h' = small .rv32 .fault 0x00000073 [] := by
      simp only [Prod.mk.injEq, Except.ok.injEq] at hf; exact ⟨hf.1.symm, hf.2.symm⟩
    rw [show decodeWord .rv32 (small .rv32 .fault 0x00000073 []).params.haltWord 0x00000073#32 = .ok .ecall by
      decide +kernel] at hd
    exact hn (.inr (.inl (Except.ok.inj hd).symm))

/-- O13, O57, O58: the scenario's configuration creates a core, also with a pair of no bytes inside another pair; one with
a region past the address space, or with two pairs that share a byte, does not. -/
theorem witness_boot :
    Reachable ⟨.rv32, scenarioHart⟩ ∧ boot scenario = .next ⟨.rv32, scenarioHart⟩ ∧
    consistentFor 32 scenario = true ∧
    consistentFor 32 { scenario with regions := [⟨0xFFFFFFFF, 2, .ram, true, true, true⟩], image := [] } = false ∧
    consistentFor 32 { scenario with regions := [⟨0xFFFFFFFF, 1, .ram, true, true, true⟩], image := [] } = true ∧
    consistentFor 32 { scenario with image := (0x1001, []) :: scenario.image } = true ∧
    consistentFor 32 { scenario with image := (0x1001, [0x13#8]) :: scenario.image } = false :=
  ⟨.boot test_boot, test_boot, by decide +kernel, by decide +kernel, by decide +kernel, by decide +kernel,
    by decide +kernel⟩

/-- O15, O44: an instruction that retires, one that traps. -/
theorem witness_exec :
    (∃ h1, exec (.add 3 1 2) ⟨.rv32, addHart⟩ = .next ⟨.rv32, h1⟩) ∧
    (∃ h1, exec (.lw 5 1 2) ⟨.rv32, addHart⟩ = .next ⟨.rv32, h1⟩) ∧ (Instr.lw 5 1 2).loadForm ≠ none ∧
    (Instr.lw 5 1 2).wellFormed .rv32 = true ∧ (Instr.sw 5 1 2).storeForm ≠ none ∧
    (∃ h1, exec (.sw 5 1 2) ⟨.rv32, addHart⟩ = .next ⟨.rv32, h1⟩) :=
  ⟨⟨_, rfl⟩, ⟨_, rfl⟩, by decide, by decide, by decide, ⟨_, rfl⟩⟩

/-- O17, O18: a step from U mode that traps, and an MRET to U mode, change the mode. -/
theorem witness_ModeChangesOnlyByTrapOrReturn :
    (let h : Hart .rv32 := { small .rv32 .fault 0x00000073 [] with priv := .user }
     step ⟨.rv32, h⟩ = .next ⟨.rv32, next h⟩ ∧ (next h).priv ≠ h.priv ∧ h.priv ≠ .machine) ∧
    (let h : Hart .rv32 := small .rv32 .fault 0x30200073 []
     step ⟨.rv32, h⟩ = .next ⟨.rv32, next h⟩ ∧ (next h).priv ≠ h.priv) ∧
    (let h : Hart .rv32 := { addHart with priv := .supervisor }
     step ⟨.rv32, h⟩ = .next ⟨.rv32, next h⟩ ∧ h.priv ≠ .machine ∧ (next h).priv ≠ .machine) :=
  ⟨⟨step_next _, by decide +kernel, by decide +kernel⟩, ⟨step_next _, by decide +kernel⟩,
    ⟨step_next _, by decide +kernel, by decide +kernel⟩⟩

/-- O19: a store changes the byte 0x2003. -/
theorem witness_MemoryChangesOnlyByStores :
    let h := small .rv32 .fault 0x006081A3 [(1, 0x2000), (6, 0x88)]
    step ⟨.rv32, h⟩ = .next ⟨.rv32, next h⟩ ∧ (next h).byteAt 0x2003 ≠ h.byteAt 0x2003 :=
  ⟨step_next _, by decide +kernel⟩

/-- O20: each line alone, all together, MIE clear in M mode, MIE clear in U mode. -/
theorem witness_InterruptEnableAndPriority :
    (let h : Hart .rv32 := { timerHart with irq := ⟨true, true, true⟩, mie := ⟨true, true, true⟩ }
     (h.csrValue .mstatus).getLsbD 3 = true ∧ (h.csrValue .mip).getLsbD 11 = true ∧ (h.csrValue .mie).getLsbD 11 = true) ∧
    (let h : Hart .rv32 := { timerHart with irq := ⟨true, true, false⟩, mie := ⟨true, true, true⟩, priv := .user }
     h.priv ≠ .machine ∧ ¬ (h.csrValue .mip).getLsbD 11 = true ∧ (h.csrValue .mip).getLsbD 3 = true ∧
       (h.csrValue .mie).getLsbD 3 = true) ∧
    ((timerHart.csrValue .mstatus).getLsbD 3 = true ∧ ¬ (timerHart.csrValue .mip).getLsbD 11 = true ∧
      ¬ (timerHart.csrValue .mip).getLsbD 3 = true ∧ (timerHart.csrValue .mip).getLsbD 7 = true ∧
      (timerHart.csrValue .mie).getLsbD 7 = true) ∧
    (let h : Hart .rv32 := { timerHart with mstatus := ⟨false, true, .user⟩ }
     ¬ (h.priv ≠ .machine ∨ (h.csrValue .mstatus).getLsbD 3 = true)) := by decide +kernel

/-- O21: `add` with the timer interrupt pending and enabled. -/
theorem witness_InterruptFollowsInstruction :
    let h1 := timerHart.retire 3 0x2007
    timerHart.halted = false ∧ timerHart.fetch = (.ok 0x002081B3#32, timerHart) ∧
    decodeWord .rv32 timerHart.params.haltWord 0x002081B3#32 = .ok (.add 3 1 2) ∧
    exec (.add 3 1 2) ⟨.rv32, timerHart⟩ = .next ⟨.rv32, h1⟩ ∧ h1.halted = false ∧ h1.candidate = some .mti ∧
    h1.interruptsEnabled = true :=
  ⟨by decide +kernel, by decide +kernel, by decide +kernel, rfl, by decide +kernel, by decide +kernel, by decide +kernel⟩

/-- O22, O23, O24: the largest codes, both modes of mtvec, both kinds of trap, an even pc. -/
theorem witness_traps :
    11 < 2 ^ (Xlen.rv32.bits - 1) ∧ (0x1800#32).getLsbD 0 = false ∧ (0x1801#32).getLsbD 0 = true ∧
    (0x2002#32).getLsbD 0 = false := by decide

/-- O25: an ECALL with every interrupt pending and enabled. -/
theorem witness_ExceptionBeatsInterrupt :
    let h : Hart .rv32 := { small .rv32 .fault 0x00000073 [] with
      mstatus := mieSet, mie := ⟨true, true, true⟩, irq := ⟨true, true, true⟩ }
    h.halted = false ∧ h.fetch = (.ok 0x00000073#32, h) ∧ decodeWord .rv32 h.params.haltWord 0x00000073#32 = .ok .ecall ∧
    exec .ecall ⟨.rv32, h⟩ = .next ⟨.rv32, h.raise .envCallFromM⟩ ∧ h.Trapped (h.raise .envCallFromM) 11 0 :=
  ⟨by decide +kernel, by decide +kernel, by decide +kernel, rfl,
    ⟨rfl, rfl, rfl, rfl, rfl, rfl, rfl, rfl, fun _ => rfl, fun _ => rfl, rfl, rfl, rfl, rfl, rfl, rfl, rfl, rfl, rfl⟩⟩

/-- O26, O27, O28, O29: a step, the three modes, and words of FENCE and FENCE.I with every ignored field set. -/
theorem witness_system :
    step ⟨.rv32, timerHart⟩ = .next ⟨.rv32, next timerHart⟩ ∧
    ({ addHart with priv := .user } : Hart .rv32).priv = .user ∧
    ({ addHart with priv := .supervisor } : Hart .rv32).priv = .supervisor ∧ addHart.priv = .machine ∧
    opcodeOf 0xFFFF8F8F#32 = 0x0F#7 ∧ funct3Of 0xFFFF8F8F#32 = 0b000#3 ∧ 0xFFFF8F8F#32 ≠ 0xB#32 ∧
    opcodeOf 0xFFFF9F8F#32 = 0x0F#7 ∧ funct3Of 0xFFFF9F8F#32 = 0b001#3 :=
  ⟨step_next _, by decide +kernel⟩

/-- O30: HALT fetched with an interrupt pending; a halted core. -/
theorem witness_HaltStopsCore :
    let h : Hart .rv32 := { small .rv32 .fault 0xB [] with
      mstatus := mieSet, mie := ⟨true, true, true⟩, irq := ⟨true, true, true⟩ }
    h.halted = false ∧ h.fetch = (.ok h.params.haltWord, h) ∧ ({ h with halted := true } : Hart .rv32).halted = true := by
  decide +kernel

/-- O31: a CSR that does not exist, one for M mode in S mode, a read-only one written through rs1 = x1; a CSR word that is
not HALT_WORD. -/
theorem witness_CsrIllegalAccessTraps :
    (Instr.csrrs 5 0x340 0).csrForm = some (5, 0x340#12, false) ∧ ¬ CsrPermitted .rv32 .machine 0x340#12 false ∧
    (Instr.csrrw 5 0x300 1).csrForm = some (5, 0x300#12, true) ∧ ¬ CsrPermitted .rv32 .supervisor 0x300#12 true ∧
    (Instr.csrrs 5 0xC00 1).csrForm = some (5, 0xC00#12, true) ∧ ¬ CsrPermitted .rv64 .machine 0xC00#12 true ∧
    ¬ CsrPermitted .rv64 .machine 0xC80#12 false ∧
    encode 0xB#32 (.csrrs 5 0x340 0) ≠ 0xB#32 := by unfold CsrPermitted; decide +kernel

/-- O32: a write in M mode, a read of a read-only CSR in U mode. -/
theorem witness_CsrInstructionsReadModifyWrite :
    (Instr.csrrci 5 0x300 31).csrForm = some (5, 0x300#12, true) ∧ CsrPermitted .rv32 .machine 0x300#12 true ∧
    (Instr.csrrs 0 0xC01 0).csrForm = some (0, 0xC01#12, false) ∧ CsrPermitted .rv32 .user 0xC01#12 false ∧
    CsrPermitted .rv32 .user 0xC82#12 false := by unfold CsrPermitted; decide +kernel

/-- O33: a state that meets the invariant in M mode, and values with each MPP field. -/
theorem witness_CsrWriteThenReadLaw :
    addHart.Inv ∧ addHart.priv = .machine ∧ (5 : Reg) ≠ 0 ∧ (addHart.reg 1).extractLsb' 11 2 ≠ 0b10#2 ∧
    ((small .rv32 .fault 0 [(1, 0x1000)]).reg 1).extractLsb' 11 2 = 0b10#2 ∧ (small .rv32 .fault 0 [(1, 0x1000)]).Inv ∧
    (small .rv32 .fault 0 [(1, 0x1000)]).priv = .machine :=
  ⟨addHart_inv, by decide +kernel, by decide, by decide +kernel, by decide +kernel,
    ⟨by decide +kernel, by decide +kernel, by decide +kernel, by decide +kernel, by decide +kernel, by decide +kernel⟩,
    by decide +kernel⟩

/-- O34: each kind of MPP field written. -/
theorem witness_MstatusFieldRule :
    (0x1888#32).extractLsb' 11 2 ≠ 0b10#2 ∧ (0x1088#32).extractLsb' 11 2 = 0b10#2 ∧
    (0x0800#64).extractLsb' 11 2 ≠ 0b10#2 := by decide

/-- An RV64 hart whose x1 is the last double word of the data, and one whose x1 is odd. -/
def lastHart : Hart .rv64 := { small .rv64 .split 0 [(1, 0x2FF8), (6, 0x1122334455667788)] with halted := false }
def oddHart : Hart .rv64 := { small .rv64 .split 0 [(1, 0x1FFF), (6, 0x1122334455667788)] with halted := false }

/-- O38, O40, O42: an aligned access at the end of the region and a split one over two regions, in each width that has
one; the forms of the instructions. -/
theorem witness_storage_accesses :
    (∀ w, lastHart.StorageAccess .read (lastHart.eaOf 1 0) w) ∧
    (∀ w, lastHart.StorageAccess .write (lastHart.eaOf 1 0) w) ∧
    (∀ w : Width, w ≠ .byte → (oddHart.eaOf 1 0).toNat % w.bytes ≠ 0) ∧
    (∀ w, oddHart.StorageAccess .read (oddHart.eaOf 1 0) w) ∧ (∀ w, oddHart.StorageAccess .write (oddHart.eaOf 1 0) w) ∧
    (Instr.sd 6 1 0).storeForm = some (6, 1, 0, .double) ∧ (Instr.sd 6 1 0).wellFormed .rv64 = true ∧
    (Instr.ld 5 1 0).loadForm = some (5, 1, 0, .double) ∧ (Instr.ld 5 1 0).wellFormed .rv64 = true ∧ (5 : Reg) ≠ 0 := by
  have hl : ∀ k, k ≠ Access.fetch → ∀ w : Width, lastHart.StorageAccess k (lastHart.eaOf 1 0) w := fun k hk w =>
    .inl (by cases k <;> cases w <;> first
      | exact absurd rfl hk
      | exact ⟨by decide +kernel, dataRam, by decide +kernel, by decide⟩)
  have ho : ∀ k, k ≠ Access.fetch → ∀ w : Width, oddHart.StorageAccess k (oddHart.eaOf 1 0) w := by
    intro k hk w
    have hb : ∀ i < 8, oddHart.ReachesStorage k (byteAddr (oddHart.eaOf 1 0) i) 1 := by
      intro i hi
      rcases Nat.eq_zero_or_pos i with rfl | hp
      · cases k <;> first | exact absurd rfl hk | exact ⟨codeRam, by decide +kernel, by decide⟩
      · refine ⟨dataRam, ?_, by decide⟩
        revert i
        cases k <;> first | exact absurd rfl hk | decide +kernel
    cases w
    case byte => exact .inl ⟨by decide +kernel, hb 0 (by decide)⟩
    all_goals exact .inr ⟨by decide +kernel, by decide +kernel, fun i hi => hb i (Nat.lt_of_lt_of_le hi (by decide))⟩
  refine ⟨hl _ (by decide), hl _ (by decide), ?_, ho _ (by decide), ho _ (by decide), by decide⟩
  intro w hw
  cases w <;> first | exact absurd rfl hw | decide +kernel

/-- O39, O41: an aligned access past the regions, a misaligned one under `Fault`, a split one that faults at its last byte
but one. -/
theorem witness_faulting_accesses :
    (let h := small .rv32 .fault 0 [(1, 0x3000)]
     h.AccessFaults .read (h.eaOf 1 0) .word 0x3000 ∧ h.AccessFaults .write (h.eaOf 1 0) .word 0x3000) ∧
    (let h := small .rv32 .fault 0 [(1, 0x2001)]
     h.AccessFaults .read (h.eaOf 1 0) .half 0x2001 ∧ h.AccessFaults .write (h.eaOf 1 0) .half 0x2001) ∧
    (let h := small .rv32 .split 0 [(1, 0x2FFE)]
     h.AccessFaults .read (h.eaOf 1 0) .word 0x3000 ∧ h.AccessFaults .write (h.eaOf 1 0) .word 0x3000) ∧
    (Instr.lw 5 1 0).loadForm = some (5, 1, 0, .word) ∧ (Instr.lw 5 1 0).wellFormed .rv32 = true ∧
    (Instr.sh 6 1 0).storeForm = some (6, 1, 0, .half) ∧ (Instr.sh 6 1 0).wellFormed .rv32 = true := by
  refine ⟨⟨?_, ?_⟩, ⟨?_, ?_⟩, ⟨?_, ?_⟩, by decide⟩
  · exact .inl ⟨by decide +kernel, by unfold Hart.Unmapped; decide +kernel, by decide +kernel⟩
  · exact .inl ⟨by decide +kernel, by unfold Hart.Unmapped; decide +kernel, by decide +kernel⟩
  · exact .inr (.inl ⟨by decide +kernel, by decide +kernel, by decide +kernel⟩)
  · exact .inr (.inl ⟨by decide +kernel, by decide +kernel, by decide +kernel⟩)
  all_goals
    refine .inr (.inr ⟨by decide +kernel, by decide +kernel, 2, by decide, by decide +kernel,
      by unfold Hart.Unmapped; decide +kernel, ?_⟩)
    intro j hj
    exact ⟨dataRam, by revert j; decide +kernel, by decide⟩

/-- The data and the device, split accesses, x1 two bytes before the device. -/
def mixedHart : Hart .rv64 :=
  { small .rv64 .split 0 [(1, 0x2FFE), (6, 0x11223344)] with
    params := { regions := twoRegions ++ [device], misaligned := .split, haltWord := 0xB } }

/-- O43: an aligned access of 8 bytes at the end of a device region, as a load and as a store; a split access that starts
in storage and ends in a device. -/
theorem witness_DeviceAccessesFreeAndRecorded :
    ((Instr.ld 5 1 0).wellFormed .rv64 = true ∧ (deviceHart.eaOf 1 0).toNat % Width.double.bytes = 0 ∧
      device.kind = .device ∧ (Instr.ld 5 1 0).loadForm = some (5, 1, 0, .double) ∧
      regionFor deviceHart.params.regions .read (deviceHart.eaOf 1 0).toNat Width.double.bytes = some device ∧
      (Instr.sd 5 1 0).storeForm = some (5, 1, 0, .double) ∧
      regionFor deviceHart.params.regions .write (deviceHart.eaOf 1 0).toNat Width.double.bytes = some device) ∧
    ((Instr.lw 5 1 0).wellFormed .rv64 = true ∧ (mixedHart.eaOf 1 0).toNat % Width.word.bytes ≠ 0 ∧
      mixedHart.params.misaligned = .split ∧ (Instr.lw 5 1 0).loadForm = some (5, 1, 0, .word) ∧
      (Instr.sw 6 1 0).storeForm = some (6, 1, 0, .word) ∧
      (∀ k, k = .read ∨ k = .write →
        mixedHart.deviceAt k (byteAddr (mixedHart.eaOf 1 0) 1) = none ∧
        mixedHart.deviceAt k (byteAddr (mixedHart.eaOf 1 0) 2) = some device)) := by
  refine ⟨by decide +kernel, by decide +kernel, by decide +kernel, by decide +kernel, by decide +kernel, by decide +kernel,
    fun k hk => ?_⟩
  rcases hk with rfl | rfl <;> decide +kernel

/-- O43: the bytes of a split access over two storage regions are all answered and taken; of one that leaves the last
region, the byte there is the first that is not. -/
theorem witness_split_answers :
    (∀ j < 8, oddHart.splitAnswer (oddHart.eaOf 1 0) j = some (oddHart.byteAt (byteAddr (oddHart.eaOf 1 0) j))) ∧
    (∀ j < 8, oddHart.splitTakes (oddHart.eaOf 1 0) (oddHart.reg 6) j = true) ∧
    (let h := small .rv32 .split 0 [(1, 0x2FFE)]
     (0x3000#32).toNat = byteAddr (h.eaOf 1 0) 2 ∧ h.splitAnswer (h.eaOf 1 0) 2 = none ∧
       (∀ j < 2, h.splitAnswer (h.eaOf 1 0) j ≠ none) ∧ h.splitTakes (h.eaOf 1 0) (h.reg 6) 2 = false ∧
       (∀ j < 2, h.splitTakes (h.eaOf 1 0) (h.reg 6) j = true)) := by
  have ho : ∀ k, k ≠ Access.fetch → ∀ j < 8, oddHart.ReachesStorage k (byteAddr (oddHart.eaOf 1 0) j) 1 := by
    intro k hk j hj
    rcases Nat.eq_zero_or_pos j with rfl | hp
    · cases k <;> first | exact absurd rfl hk | exact ⟨codeRam, by decide +kernel, by decide⟩
    · refine ⟨dataRam, ?_, by decide⟩
      revert j
      cases k <;> first | exact absurd rfl hk | decide +kernel
  refine ⟨fun j hj => Hart.splitAnswer_storage (ho _ (by decide) j hj),
    fun j hj => Hart.splitTakes_storage (ho _ (by decide) j hj), by decide +kernel, ?_, fun j hj => ?_, ?_, fun j hj => ?_⟩
  · exact Hart.splitAnswer_unmapped (by unfold Hart.Unmapped; decide +kernel)
  · rw [Hart.splitAnswer_storage ⟨dataRam, by revert j; decide +kernel, by decide⟩]; simp
  · exact Hart.splitTakes_unmapped (by unfold Hart.Unmapped; decide +kernel)
  · exact Hart.splitTakes_storage ⟨dataRam, by revert j; decide +kernel, by decide⟩

/-- O45: a word stored at 0x2000, and a hart that fetches there. -/
theorem witness_StoredCodeIsFetched :
    (addHart.eaOf 1 0).toNat % 4 = 0 ∧ addHart.ReachesStorage .write (addHart.eaOf 1 0).toNat 4 ∧
    addHart.ReachesStorage .fetch (addHart.eaOf 1 0).toNat 4 ∧
    (∃ h1, exec (.sw 2 1 0) ⟨.rv32, addHart⟩ = .next ⟨.rv32, h1⟩ ∧
      ({ h1 with pc := 0x2000 } : Hart .rv32).pc = addHart.eaOf 1 0) :=
  ⟨by decide +kernel, ⟨dataRam, by decide +kernel, by decide⟩, ⟨dataRam, by decide +kernel, by decide⟩,
    ⟨_, rfl, by decide +kernel⟩⟩

/-- O46: two regions that touch, an access that ends with one, and one that crosses from one into the other. -/
theorem witness_BusAccessNeedsOneRegion :
    twoRegions.Pairwise (fun p q => p.base + p.length ≤ q.base ∨ q.base + q.length ≤ p.base) ∧
    regionFor twoRegions .read 0x1FFC 4 = some codeRam ∧ regionFor twoRegions .read 0x1FFE 4 = none := by decide +kernel

/-- O47, O50, O52, O54: conditions that hold and do not, the largest immediate shift amounts, XLEN 64. -/
theorem witness_integer :
    addHart.reg 1 ≠ addHart.reg 2 ∧ addHart.reg 1 = addHart.reg 1 ∧
    (addHart.reg 2).toInt < (addHart.reg 1).toInt ∧ ¬ (addHart.reg 1).toInt < (addHart.reg 2).toInt ∧
    (31#6).toNat < Xlen.rv32.bits ∧ (63#6).toNat < Xlen.rv64.bits := by decide +kernel

/-- O55: a row of each kind, at width 32 and at the smallest width, where 1 is also -1 and the most negative number. -/
theorem witness_DivisionLaws :
    (0x80000000#32).toInt = -2 ^ (32 - 1) ∧ (0xFFFFFFFF#32).toInt = -1 ∧
    (7#32 ≠ 0#32 ∧ ¬ ((7#32).toInt = -2 ^ (32 - 1) ∧ (0xFFFFFFFE#32).toInt = -1)) ∧
    (1#1).toInt = -2 ^ (1 - 1) ∧ (1#1).toInt = -1 ∧ 0 ≤ (7#32).toInt ∧ (0xFFFFFFF9#32).toInt ≤ 0 := by decide

end Witnesses

end Sys2Proof.Tests
end

/-! SUPPORT. Bit 0 and bit 1 of addresses: the instruction and trap targets are even, and the write rules clear the bits
they say (10_state.md R26, R44, R45). -/

namespace Sys2Proof.Machine

variable {x : Xlen}

/-- The sum of even words is even. -/
theorem add_even {a b : XWord x} (ha : a.getLsbD 0 = false) (hb : b.getLsbD 0 = false) : (a + b).getLsbD 0 = false := by
  have hx : 0 < x.bits := by cases x <;> decide
  simp [BitVec.getLsbD_add hx, ha, hb]

@[simp] theorem clearBit0_even {n : Nat} (v : BitVec n) : (clearBit0 v).getLsbD 0 = false := by
  simp [clearBit0]

@[simp] theorem clearBit1_bit1 (v : XWord x) : (clearBit1 v).getLsbD 1 = false := by
  rw [clearBit1, BitVec.getLsbD_and, BitVec.getLsbD_not]
  cases x <;> simp [Xlen.bits]

/-- A displacement whose last bit is an appended zero is even (30_encoding.md R132, R134). -/
theorem signExtend_append_zero_even {m : Nat} (v : BitVec m) : ((v ++ 0#1).signExtend x.bits).getLsbD 0 = false := by
  rw [BitVec.getLsbD_signExtend, if_pos (Nat.succ_pos m), BitVec.getLsbD_append]
  simp

@[simp] theorem immB_even (off : BitVec 12) : (immB x off).getLsbD 0 = false := signExtend_append_zero_even off

@[simp] theorem immJ_even (off : BitVec 20) : (immJ x off).getLsbD 0 = false := signExtend_append_zero_even off

/-- A multiple of 4 is even. -/
theorem ofNat_four_mul_even (k : Nat) : (BitVec.ofNat x.bits (4 * k)).getLsbD 0 = false := by
  have : 4 * k % 2 = 0 := by omega
  simp [BitVec.getLsbD_ofNat, this]

/-- Both forms of the trap target are even (60_exceptions.md R391). -/
theorem trapTarget_even (mtvec : XWord x) (interrupt : Bool) (code : Nat) :
    (trapTarget mtvec interrupt code).getLsbD 0 = false := by
  have base : (mtvec &&& ~~~3#x.bits).getLsbD 0 = false := by
    rw [BitVec.getLsbD_and, BitVec.getLsbD_not]
    cases x <;> simp [Xlen.bits]
  unfold trapTarget
  split
  · exact add_even base (ofNat_four_mul_even code)
  · exact base

/-- The next instruction's address is even where this one's is. -/
theorem add_four_even {pc : XWord x} (h : pc.getLsbD 0 = false) : (pc + 4).getLsbD 0 = false :=
  add_even h (ofNat_four_mul_even 1)

end Sys2Proof.Machine

/-! SUPPORT. The invariant: every operation of a hart keeps it, so every instruction and every step does. -/

namespace Sys2Proof.Machine

variable {x : Xlen}

namespace Hart.Inv

/-! ### One rule for each operation -/

theorem initial (params : Params) {pc : XWord x} {m : Memory} (even : pc.getLsbD 0 = false) (wf : m.wf)
    (space : ∀ c ∈ m, c.1 < 2 ^ x.bits) : (Hart.initial params pc m).Inv where
  slotZero := by simp [Hart.initial]
  pcEven := even
  mepcEven := by simp [Hart.initial]
  mtvecMode := by simp [Hart.initial]
  memWf := wf
  memSpace := space

section

variable {h : Hart x} (inv : h.Inv)

include inv

theorem setReg (r : Reg) (v : XWord x) : (h.setReg r v).Inv where
  slotZero := by
    rw [Hart.setReg_regs]
    split
    · exact inv.slotZero
    · rename_i hr
      have hne : r.toNat ≠ 0 := fun e => hr (BitVec.eq_of_toNat_eq e)
      rw [Vector.getElem_set_ne _ _ hne]
      exact inv.slotZero
  __ := inv

theorem commit {t : XWord x} (even : t.getLsbD 0 = false) : (h.commit t).Inv :=
  { inv with pcEven := even }

theorem advance : h.advance.Inv := inv.commit (add_four_even inv.pcEven)

theorem retire (rd : Reg) (v : XWord x) : (h.retire rd v).Inv := (inv.setReg rd v).advance

theorem branch (taken : Bool) (off : BitVec 12) : (h.branch taken off).Inv := by
  refine inv.commit ?_
  split
  · exact add_even inv.pcEven (immB_even off)
  · exact add_four_even inv.pcEven

theorem jump (rd : Reg) {t : XWord x} (even : t.getLsbD 0 = false) : (h.jump rd t).Inv :=
  (inv.setReg rd _).commit even

theorem trapEntry (interrupt : Bool) (code : Nat) (value epc : XWord x) : (h.trapEntry interrupt code value epc).Inv :=
  { inv with pcEven := trapTarget_even _ _ _, mepcEven := clearBit0_even _ }

theorem raise (e : Exc x) : (h.raise e).Inv := inv.trapEntry _ _ _ _

theorem illegal (i : Instr) : (h.illegal i).Inv := inv.raise _

theorem trapReturn : h.trapReturn.Inv := { inv with pcEven := inv.mepcEven }

theorem halt : ({ h with halted := true } : Hart x).Inv := { inv with }

theorem drive (b : IrqBits) : ({ h with irq := b } : Hart x).Inv := { inv with }

theorem counted : h.counted.Inv := { inv with }

theorem sampleTime : h.sampleTime.Inv := { inv with }

theorem csrSampled (c : Csr) : (h.csrSampled c).Inv := by
  rcases Hart.csrSampled_cases c h with ⟨_, _, e⟩ | ⟨_, e⟩ <;> rw [e]
  · exact inv
  · exact inv.sampleTime

/-- The write rules of `mepc` and `mtvec` clear the bits the invariant speaks of (10_state.md R44, R45). -/
theorem csrWrite (c : Csr) (v : XWord x) : (h.csrWrite c v).Inv := by
  cases c
  case mepc => exact { inv with mepcEven := clearBit0_even v }
  case mtvec => exact { inv with mtvecMode := clearBit1_bit1 v }
  all_goals exact { inv with }

theorem csrInstr (i : Instr) (rd : Reg) (a : BitVec 12) (writes : Bool) (f : XWord x → XWord x) :
    (h.csrInstr i rd a writes f).Inv := by
  unfold Hart.csrInstr
  split
  · exact inv.illegal i
  · rename_i c _
    refine Inv.retire ?_ rd _
    split
    · exact (inv.csrSampled c).csrWrite c _
    · exact inv.csrSampled c

/-- An access that changes nothing but the memory and the devices, and keeps the memory canonical and in the address
space. -/
theorem of_sameButMemory {h1 : Hart x} (same : h.SameButMemory h1) (wf : h.memory.wf → h1.memory.wf)
    (space : ∀ c ∈ h1.memory, c ∈ h.memory ∨ c.1 < 2 ^ x.bits) : h1.Inv where
  slotZero := by simpa only [same.regs] using inv.slotZero
  pcEven := same.pc ▸ inv.pcEven
  mepcEven := same.mepc ▸ inv.mepcEven
  mtvecMode := same.mtvec ▸ inv.mtvecMode
  memWf := wf inv.memWf
  memSpace c hc := (space c hc).elim (inv.memSpace c) id

theorem of_sameButDevices {h1 : Hart x} (same : h.SameButDevices h1) : h1.Inv := by
  have e := same.memory
  exact inv.of_sameButMemory same.sameButMemory (fun wf => e ▸ wf) fun c hc => .inl (e ▸ hc)

theorem load (rd : Reg) (ea : XWord x) (w : Width) (f : BitVec w.bits → XWord x) : (h.load rd ea w f).Inv := by
  have inv' : (h.memRead ea w).2.Inv := inv.of_sameButDevices (Hart.memRead_same ea w h)
  unfold Hart.load
  split <;> (rename_i e; rw [e] at inv')
  · exact inv'.retire rd _
  · exact inv'.raise _

theorem store (ea : XWord x) (w : Width) (v : XWord x) : (h.store ea w v).Inv := by
  have hm := Hart.memWrite_memory ea w (v.setWidth w.bits) h
  have inv' : (h.memWrite ea w (v.setWidth w.bits)).2.Inv :=
    inv.of_sameButMemory (Hart.memWrite_frame ea w _ h) hm.1 hm.2
  unfold Hart.store
  split <;> (rename_i e; rw [e] at inv')
  · exact inv'.advance
  · exact inv'.raise _

theorem boundary : h.boundary.Inv := by
  rcases Hart.boundary_cases h with ⟨e, _⟩ | ⟨q, _, _, e⟩ <;> rw [e]
  · exact inv.counted
  · exact inv.counted.trapEntry _ _ _ _

theorem only64 {i : Instr} {h1 h2 : Hart x} (inv1 : h1.Inv) (e : State.only64 ⟨x, h⟩ i h1 = .next ⟨x, h2⟩) :
    h2.Inv := by
  rcases only64_cases e with rfl | rfl
  · exact inv1
  · exact inv.illegal i

theorem ifShamt {i : Instr} {shamt : BitVec 6} {h1 h2 : Hart x} (inv1 : h1.Inv)
    (e : State.ifShamt ⟨x, h⟩ i shamt h1 = .next ⟨x, h2⟩) : h2.Inv := by
  rcases ifShamt_cases e with rfl | rfl
  · exact inv1
  · exact inv.illegal i

/-- Every instruction is made of operations that keep the invariant. -/
theorem exec {i : Instr} {h1 : Hart x} (e : exec i ⟨x, h⟩ = .next ⟨x, h1⟩) : h1.Inv := by
  cases i
  case slli | srli | srai => exact inv.ifShamt (inv.retire _ _) e
  case addiw | slliw | srliw | sraiw | addw | subw | sllw | srlw | sraw | mulw | divw | divuw | remw | remuw =>
    exact inv.only64 (inv.retire _ _) e
  case lwu | ld => exact inv.only64 (inv.load _ _ _ _) e
  case sd => exact inv.only64 (inv.store _ _ _) e
  case mret =>
    by_cases hp : h.priv = .machine
    · rw [Machine.exec, execMret, if_pos hp] at e
      exact outcome_next_inj e ▸ inv.trapReturn.commit inv.mepcEven
    · rw [Machine.exec, execMret, if_neg hp] at e
      exact outcome_next_inj e ▸ inv.illegal .mret
  all_goals rw [← outcome_next_inj e]
  case lb | lh | lw | lbu | lhu => exact inv.load _ _ _ _
  case sb | sh | sw => exact inv.store _ _ _
  case beq | bne | blt | bge | bltu | bgeu => exact inv.branch _ _
  case jal => exact inv.jump _ (add_even inv.pcEven (immJ_even _))
  case jalr => exact inv.jump _ (clearBit0_even _)
  case fence | fenceI | wfi => exact inv.advance
  case csrrw | csrrs | csrrc | csrrwi | csrrsi | csrrci => exact inv.csrInstr _ _ _ _ _
  case ecall | ebreak => exact inv.raise _
  case halt => exact inv.halt
  all_goals exact inv.retire _ _

theorem stepEffect {h1 : Hart x} (s : StepEffect h h1) : h1.Inv := by
  cases s with
  | idle => exact inv
  | noFetch h' _ _ same => exact ((inv.of_sameButDevices same).raise _).counted
  | noDecode w d h' _ _ same => exact ((inv.of_sameButDevices same).raise _).counted
  | halts w h' _ _ _ same _ e => exact (inv.of_sameButDevices same).exec e
  | runs w i h' h1 _ _ same _ e => exact ((inv.of_sameButDevices same).exec e).boundary

end

end Hart.Inv

/-- A step is a step of the hart, its XLEN the same. -/
theorem State.Inv.step {s t : State} (inv : s.Inv) (e : step s = .next t) : t.Inv := by
  obtain ⟨h1, e1, effect⟩ := step_effect s.hart
  obtain rfl : t = ⟨s.xlen, h1⟩ := by simpa using e.symm.trans e1
  exact Hart.Inv.stepEffect inv effect

/-! ### The cores the host creates -/

theorem bits_of_xlenOfNat {n : Nat} {x : Xlen} (h : xlenOfNat n = some x) : x.bits = n := by
  unfold xlenOfNat at h
  split at h
  · rename_i hn
    cases h
    exact hn.symm
  · split at h
    · rename_i hn
      cases h
      exact hn.symm
    · cases h

/-- The hart of a core the host creates (70_reset_and_hazards.md R420). -/
def bootHart (c : Configuration) (x : Xlen) : Hart x :=
  Hart.initial { regions := c.regions, misaligned := c.misaligned, haltWord := BitVec.ofNat 32 c.haltWord }
    (BitVec.ofNat x.bits c.resetPc) (imageMemory c.image)

/-- Everything the creation of a core can do: the configuration is consistent, and the core is in its reset state. -/
theorem boot_cases {c : Configuration} {s : State} (e : boot c = .next s) :
    ∃ x : Xlen, x.bits = c.xlen ∧ consistentFor x.bits c = true ∧ s = ⟨x, bootHart c x⟩ := by
  unfold boot at e
  split at e
  · cases e
  · rename_i x hx
    split at e
    · rename_i hc
      cases e
      exact ⟨x, bits_of_xlenOfNat hx, hc, rfl⟩
    · cases e

/-- A consistent image lies in the address space, since its bytes lie in regions and the regions do
(70_reset_and_hazards.md R421, R436). -/
theorem imageMemory_space {c : Configuration} {bits : Nat} (hc : consistentFor bits c = true) :
    ∀ d ∈ imageMemory c.image, d.1 < 2 ^ bits := by
  obtain ⟨regions, _, image, _⟩ := (consistentFor_iff bits c).mp hc
  intro d hd
  obtain ⟨p, hp, lo, hi⟩ := mem_imageMemory hd
  obtain ⟨r, hr, _, _, inside⟩ := image p hp (d.1 - p.1) (by omega)
  have := (regions r hr).2
  omega

theorem bootHart_inv {c : Configuration} {x : Xlen} (hc : consistentFor x.bits c = true) :
    (bootHart c x).Inv := by
  obtain ⟨_, _, _, _, _, even, _⟩ := (consistentFor_iff x.bits c).mp hc
  refine .initial _ ?_ (imageMemory_wf c.image) (imageMemory_space hc)
  simp [BitVec.getLsbD_ofNat, Nat.testBit_zero, even]

theorem Reachable.inv {s : State} (r : Reachable s) : s.Inv := by
  induction r with
  | boot e =>
    obtain ⟨x, _, hc, rfl⟩ := boot_cases e
    exact bootHart_inv hc
  | step _ e ih => exact ih.step e
  | inject q _ ih => exact Hart.Inv.drive ih _
  | retract q _ ih => exact Hart.Inv.drive ih _

/-- Settles O11: every operation an instruction or a boundary is made of keeps the invariant. -/
theorem stepKeepsInvariant : Obligations.StepKeepsInvariant := fun _ _ inv e => inv.step e

/-- Settles O13, by induction on the run. -/
theorem reachableStatesMeetInvariant : Obligations.ReachableStatesMeetInvariant := fun _ r => r.inv

/-- Settles O12: the reset pc is even and no byte is written. -/
theorem resetMeetsInvariant : Obligations.ResetMeetsInvariant :=
  Hart.Inv.initial _ (by decide) List.Pairwise.nil nofun

end Sys2Proof.Machine

/-! SUPPORT. What changes the mode: a trap, or MRET in machine mode (10_state.md R27, 60_exceptions.md R402). -/

namespace Sys2Proof.Machine

variable {x : Xlen}

/-- `h1` is at the trap handler of `h`, the mode it had in MPP (60_exceptions.md R390). -/
structure Hart.EntersTrap (h h1 : Hart x) : Prop where
  priv : h1.priv = .machine
  mpp : h1.mstatus.mpp = h.priv
  mie : h1.mstatus.mie = false
  handler : ∃ interrupt code, h1.mcause = causeWord x interrupt code ∧ h1.pc = trapTarget h.mtvec interrupt code

/-- Trap entry on a hart that has the mode and the `mtvec` of an earlier one enters the trap of that one. -/
theorem Hart.entersTrap_trapEntry {h g : Hart x} (hp : g.priv = h.priv) (hv : g.mtvec = h.mtvec) (interrupt : Bool)
    (code : Nat) (value epc : XWord x) : h.EntersTrap (g.trapEntry interrupt code value epc) where
  priv := rfl
  mpp := hp
  mie := rfl
  handler := ⟨interrupt, code, rfl, by rw [Hart.trapEntry_pc, hv]⟩

theorem Hart.EntersTrap.counted {h h1 : Hart x} (t : h.EntersTrap h1) : h.EntersTrap h1.counted :=
  ⟨t.priv, t.mpp, t.mie, t.handler⟩

/-- No interrupt is enabled at the handler's first instruction (60_exceptions.md R372). -/
theorem Hart.EntersTrap.interruptsEnabled {h h1 : Hart x} (t : h.EntersTrap h1) : h1.interruptsEnabled = false := by
  simp [Hart.interruptsEnabled, t.priv, t.mie]

/-- An implemented address names a counter or is a machine-level address (10_state.md R31). -/
theorem counter_or_machineLevel (x : Xlen) : ∀ a ∈ csrAddresses x,
    (csrAt x a).all (fun c => c.counts || (a.extractLsb' 8 2).toNat = 3) = true := by
  cases x <;> simp [csrAddresses, csrAt, Csr.counts]

/-- The CSRs that are no counters have machine-level addresses. -/
theorem machineLevel_of_csrAt {a : BitVec 12} {c : Csr} (e : csrAt x a = some c) (hc : c.counts = false) :
    (a.extractLsb' 8 2).toNat = 3 := by
  have level := counter_or_machineLevel x a ((csrAt_isSome x a).mp (by rw [e]; rfl))
  simpa [e, hc] using level

/-- Below machine mode no access passes to a CSR that is no counter (44_csr.md R300). -/
theorem counts_of_lower {p : Priv} {a : BitVec 12} {writes : Bool} {c : Csr}
    (ok : csrAccess x p a writes = some c) (hp : p ≠ .machine) : c.counts = true := by
  cases hc : c.counts with
  | true => rfl
  | false => exact absurd (priv_of_machine_csr ok (machineLevel_of_csrAt (csrAt_of_csrAccess ok) hc)) hp

/-- A counter's write rule changes nothing. -/
theorem Hart.csrWrite_counter {c : Csr} (hc : c.counts = true) (v : XWord x) (h : Hart x) : h.csrWrite c v = h := by
  cases c
  case cycle | time | instret | cycleh | timeh | instreth => rfl
  all_goals cases hc

/-- What an instruction does to the mode: it keeps it, and below machine mode keeps `mtvec` with it; or it is MRET; or
it takes a trap. -/
theorem Effect.mode {i : Instr} {h h1 : Hart x} (effect : Effect i h h1) :
    (h1.priv = h.priv ∧ (h.priv ≠ .machine → h1.mtvec = h.mtvec)) ∨
      (i = .mret ∧ h.priv = .machine ∧ h1.priv = h.mstatus.mpp ∧ h1.pc = h.mepc) ∨ h.EntersTrap h1 := by
  cases effect with
  | write => exact .inl ⟨rfl, fun _ => rfl⟩
  | load h' _ _ same => exact .inl ⟨same.priv, fun _ => same.mtvec⟩
  | store h' same => exact .inl ⟨same.priv, fun _ => same.mtvec⟩
  | csr c rd a writes v _ ok =>
    have sampled : (h.csrSampled c).priv = h.priv ∧ (h.csrSampled c).mtvec = h.mtvec := by
      rcases Hart.csrSampled_cases c h with ⟨_, _, e⟩ | ⟨_, e⟩ <;> rw [e] <;> exact ⟨rfl, rfl⟩
    refine .inl ?_
    cases writes with
    | false => exact ⟨sampled.1, fun _ => sampled.2⟩
    | true =>
      obtain ⟨_, _, _, priv, _⟩ := Hart.csrWrite_frame (h.csrSampled c) c v
      refine ⟨priv.trans sampled.1, fun hp => ?_⟩
      rw [if_pos rfl, Hart.csrWrite_counter (counts_of_lower ok hp)]
      exact sampled.2
  | mret is mode => exact .inr (.inl ⟨is, mode, rfl, rfl⟩)
  | halt => exact .inl ⟨rfl, fun _ => rfl⟩
  | trap h' e same => exact .inr (.inr (Hart.entersTrap_trapEntry same.priv same.mtvec _ _ _ _))

/-- An instruction and the boundary after it change the mode only by a trap, or by MRET. -/
theorem Effect.mode_boundary {i : Instr} {h h1 : Hart x} (effect : Effect i h h1) (ne : h1.boundary.priv ≠ h.priv) :
    h.EntersTrap h1.boundary ∨
      (i = .mret ∧ h.priv = .machine ∧ h1.boundary.priv = h.mstatus.mpp ∧ h1.boundary.pc = h.mepc) := by
  rcases Hart.boundary_cases h1 with ⟨e, _⟩ | ⟨q, _, enabled, e⟩ <;> rw [e] at ne ⊢
  · rcases effect.mode with ⟨same, _⟩ | ret | trap
    · exact absurd same ne
    · exact .inr ret
    · exact .inl trap.counted
  · have lower : h.priv ≠ .machine := ne.symm
    rcases effect.mode with ⟨same, mtvec⟩ | ⟨_, mode, _⟩ | trap
    · exact .inl (Hart.entersTrap_trapEntry (g := h1.counted) same (mtvec lower) _ _ _ _)
    · exact absurd mode lower
    · exact absurd (trap.interruptsEnabled.symm.trans enabled) Bool.false_ne_true

/-- A step changes the mode only by a trap, or by MRET in machine mode. -/
theorem StepEffect.mode {h h1 : Hart x} (effect : StepEffect h h1) (ne : h1.priv ≠ h.priv) :
    h.EntersTrap h1 ∨ (h.priv = .machine ∧ h.Runs .mret ∧ h1.priv = h.mstatus.mpp ∧ h1.pc = h.mepc) := by
  cases effect with
  | idle => exact absurd rfl ne
  | noFetch h' _ _ same => exact .inl (Hart.entersTrap_trapEntry same.priv same.mtvec _ _ _ _).counted
  | noDecode w d h' _ _ same => exact .inl (Hart.entersTrap_trapEntry same.priv same.mtvec _ _ _ _).counted
  | halts w h' _ _ _ same _ _ is => exact absurd (is ▸ same.priv) ne
  | runs w i h' h1 _ fetch same decode _ effect =>
    rw [← same.priv] at ne
    rcases effect.mode_boundary ne with trap | ⟨rfl, mode, priv, pc⟩
    · exact .inl ⟨trap.priv, trap.mpp.trans same.priv, trap.mie, same.mtvec ▸ trap.handler⟩
    · rw [same.priv] at mode
      rw [same.mstatus] at priv
      rw [same.mepc] at pc
      exact .inr ⟨mode, ⟨w, h', fetch, decode⟩, priv, pc⟩

/-- Settles O17, by what a step can do to the mode. -/
theorem modeChangesOnlyByTrapOrReturn : Obligations.ModeChangesOnlyByTrapOrReturn := by
  intro x h h1 e ne
  rcases (stepEffect_of_step e).mode ne with trap | ret
  · exact .inl ⟨trap.priv, trap.mpp, trap.mie, trap.handler⟩
  · exact .inr ret

end Sys2Proof.Machine

/-! SUPPORT. The CSR bank as it reads: its addresses, the fields of `mstatus`, the halves of the counters. -/

namespace Sys2Proof.Machine

variable {x : Xlen}

/-- The addresses of 10_state.md R31 name the CSRs of the XLEN, one each, in order. -/
theorem csrAddresses_map_csrAt (x : Xlen) : (csrAddresses x).map (csrAt x) = (csrsOf x).map some := by
  cases x <;> rfl

/-- Each field of `mstatus` reads in its place, and the other bits read as the constant of the XLEN (10_state.md
R39). -/
theorem MStatus.read_fields (m : MStatus) :
    (m.read x).getLsbD 3 = m.mie ∧ (m.read x).getLsbD 7 = m.mpie ∧
      ((m.read x).extractLsb' 11 2).toNat = m.mpp.code ∧
      m.read x &&& ~~~0x1888#x.bits = BitVec.ofNat x.bits (if x = .rv64 then 0xA00000000 else 0) := by
  obtain ⟨mie, mpie, mpp⟩ := m
  cases x <;> cases mie <;> cases mpie <;> cases mpp <;> decide

/-- The reset value of `mstatus` reads as the constant of the XLEN (10_state.md R54). -/
theorem MStatus.read_reset (x : Xlen) : MStatus.read x { mie := false, mpie := false, mpp := .user } =
    BitVec.ofNat x.bits (if x = .rv64 then 0xA00000000 else 0) := by
  cases x <;> decide

/-- No mode has the code 0b10 (10_state.md R36). -/
theorem Priv.code_ne_two (p : Priv) : p.code ≠ 2 := by cases p <;> decide

/-- A 64-bit counter is its high half and its low half (10_state.md R48 to R50). -/
theorem halves_toNat (v : BitVec 64) :
    ((v.extractLsb' 32 32).setWidth 32).toNat * 2 ^ 32 + (v.setWidth 32).toNat = v.toNat := by
  have := v.isLt
  simp only [BitVec.toNat_setWidth, BitVec.extractLsb'_toNat, Nat.shiftRight_eq_div_pow]
  omega

/-- Settles O34: the write rule is `MStatus.read_write`, the read rule `MStatus.read_fields`. -/
theorem mstatusFieldRule : Obligations.MstatusFieldRule := by
  intro x m v
  obtain ⟨mie, mpie, mpp, rest⟩ := m.read_fields (x := x)
  refine ⟨fun legal => ?_, fun illegal => ?_, mie, mpie, mpp, rest, fun two => ?_⟩
  · rw [MStatus.read_write, csrWritten, if_neg legal]
  · rw [MStatus.read_write, csrWritten, if_pos illegal]
  · rw [two] at mpp
    exact m.mpp.code_ne_two mpp.symm

/-- Settles O36: on XLEN 64 a read truncates nothing, on XLEN 32 the two CSRs are the two halves. -/
theorem countersReadInHalves : Obligations.CountersReadInHalves :=
  ⟨fun h => ⟨h.cycleCtr.setWidth_eq, h.instretCtr.setWidth_eq, h.timeValue.setWidth_eq⟩,
    fun h => ⟨halves_toNat h.cycleCtr, halves_toNat h.instretCtr, halves_toNat h.timeValue⟩⟩

/-- Settles O35: the named addresses by evaluation, that there is no other by `csrAt_isSome`. -/
theorem csrAddressMap : Obligations.CsrAddressMap :=
  ⟨fun x => ⟨rfl, rfl, rfl, rfl, rfl, rfl, rfl, rfl, rfl, rfl, rfl, csrAt_isSome x⟩, rfl, rfl, rfl, fun _ => rfl,
    fun _ => rfl⟩

/-! SUPPORT. What the host sees: the core it creates, and the snapshot. -/

/-- Every register reads zero after reset (10_state.md R54). -/
theorem Hart.reg_initial (params : Params) (pc : XWord x) (m : Memory) (r : Reg) :
    (Hart.initial params pc m).reg r = 0 := by
  unfold Hart.reg
  split
  · rfl
  · exact Vector.getElem_replicate _

/-- Every byte of a consistent image is in memory at its address (70_reset_and_hazards.md R421). -/
theorem bootHart_byteAt {c : Configuration} (hc : consistentFor x.bits c = true) {p : Nat × List Byte}
    (hp : p ∈ c.image) {k : Nat} {b : Byte} (hb : p.2[k]? = some b) : (bootHart c x).byteAt (p.1 + k) = b := by
  obtain ⟨_, _, _, apart, _⟩ := (consistentFor_iff x.bits c).mp hc
  simp [Hart.byteAt, bootHart, Hart.initial, imageMemory_written apart hp hb]

/-- Settles O57: a core is created from a consistent configuration only, so its parameters fit their words, and its
other fields are those of `Hart.initial`. -/
theorem bootGivesResetState : Obligations.BootGivesResetState := by
  intro c s e
  obtain ⟨x, bits, hc, rfl⟩ := boot_cases e
  obtain ⟨_, _, _, _, pcFits, _, haltFits⟩ := (consistentFor_iff x.bits c).mp hc
  have pc : (bootHart c x).pc.toNat = c.resetPc := (BitVec.toNat_ofNat _ _).trans (Nat.mod_eq_of_lt pcFits)
  have haltWord : (bootHart c x).params.haltWord.toNat = c.haltWord :=
    (BitVec.toNat_ofNat _ _).trans (Nat.mod_eq_of_lt haltFits)
  exact ⟨bits, pc, Hart.reg_initial _ _ _, rfl, MStatus.read_reset x, rfl, rfl, rfl, rfl, rfl, rfl, rfl, rfl, rfl, rfl,
    rfl, haltWord, fun p hp k b hb => bootHart_byteAt hc hp hb⟩

/-- The snapshot has the registers in their order (10_state.md R55). -/
theorem State.inspect_regs (s : State) (r : Reg) : s.inspect.regs[r.toNat]? = some (s.hart.reg r).toNat := by
  have : r.toNat < 32 := r.isLt
  simp [State.inspect, this]

/-- The snapshot has each CSR an address names, as it would read (10_state.md R55, 70_reset_and_hazards.md R432). -/
theorem State.inspect_csrs (s : State) {a : BitVec 12} (ha : a ∈ csrAddresses s.xlen) :
    ∃ c, csrAt s.xlen a = some c ∧ (c, (s.hart.csrValue c).toNat) ∈ s.inspect.csrs := by
  have named : csrAt s.xlen a ∈ (csrsOf s.xlen).map some :=
    csrAddresses_map_csrAt s.xlen ▸ List.mem_map_of_mem ha
  obtain ⟨c, hc, e⟩ := List.mem_map.mp named
  exact ⟨c, e.symm, List.mem_map_of_mem hc⟩

/-- The snapshot has as many CSRs as there are addresses. -/
theorem State.inspect_csrs_length (s : State) : s.inspect.csrs.length = (csrAddresses s.xlen).length := by
  have := congrArg List.length (csrAddresses_map_csrAt s.xlen)
  simpa [State.inspect] using this.symm

/-- Settles O60, part by part. -/
theorem inspectShowsState : Obligations.InspectShowsState := fun s =>
  ⟨rfl, rfl, by simp [State.inspect], s.inspect_regs, fun _ ha => s.inspect_csrs ha, s.inspect_csrs_length⟩

end Sys2Proof.Machine

/-! SUPPORT. Storage changes by stores only: what each operation, each instruction and each step does to a byte
(20_memory.md R83). -/

namespace Sys2Proof.Machine

variable {x : Xlen}

/-- The boundary touches no byte, an interrupt taken or not. -/
theorem Hart.byteAt_boundary (h : Hart x) (a : Nat) : h.boundary.byteAt a = h.byteAt a := by
  rcases Hart.boundary_cases h with ⟨e, _⟩ | ⟨_, _, _, e⟩ <;> rw [e] <;> rfl

/-- An instruction that is no store leaves every byte. -/
theorem Effect.byteAt {i : Instr} {h h1 : Hart x} (effect : Effect i h h1) (form : i.storeForm = none) (a : Nat) :
    h1.byteAt a = h.byteAt a := by
  cases effect with
  | store _ _ _ _ isStore => exact absurd form isStore
  | load h' rd v same => exact same.byteAt a
  | trap h' e same => exact same.byteAt a
  | csr c rd _ writes v =>
    have sampled : (h.csrSampled c).memory = h.memory := by
      rcases Hart.csrSampled_cases c h with ⟨_, _, e⟩ | ⟨_, e⟩ <;> rw [e]
      rfl
    cases writes with
    | false => exact Hart.byteAt_congr sampled a
    | true =>
      obtain ⟨_, _, _, _, _, _, _, _, memory, _⟩ := Hart.csrWrite_frame (h.csrSampled c) c v
      exact Hart.byteAt_congr (memory.trans sampled) a
  | write | mret | halt => rfl

/-- An instruction that changes a byte is a store whose access has the byte. -/
theorem store_of_byteAt_ne {i : Instr} {h h1 : Hart x} {a : Nat} (e : exec i ⟨x, h⟩ = .next ⟨x, h1⟩)
    (ne : h1.byteAt a ≠ h.byteAt a) :
    ∃ rs2 rs1 imm w, i.storeForm = some (rs2, rs1, imm, w) ∧ InAccess (h.eaOf rs1 imm) w a := by
  have isStore : i.storeForm ≠ none := fun form => ne ((effect_of_exec e).byteAt form a)
  obtain ⟨⟨rs2, rs1, imm, w⟩, form⟩ := Option.ne_none_iff_exists'.mp isStore
  refine ⟨rs2, rs1, imm, w, form, ?_⟩
  by_contra outside
  cases wf : i.wellFormed x with
  | false =>
    obtain ⟨h', exc, same, trap⟩ := exec_of_raises (h := h) (.inl wf)
    obtain rfl := outcome_next_inj (trap.symm.trans e)
    exact ne (same.byteAt a)
  | true =>
    obtain rfl := outcome_next_inj ((exec_store h form wf).symm.trans e)
    exact ne (byteAt_store_same _ w _ h a outside)

/-- Effective addresses depend on the registers only. -/
theorem Hart.eaOf_congr {h h1 : Hart x} (e : ∀ r, h1.reg r = h.reg r) (rs1 : Reg) (imm : BitVec 12) :
    h1.eaOf rs1 imm = h.eaOf rs1 imm := by
  rw [Hart.eaOf, Hart.eaOf, e]

/-- A step that changes a byte runs a store whose access has the byte. -/
theorem StepEffect.store_of_byteAt_ne {h h1 : Hart x} {a : Nat} (effect : StepEffect h h1)
    (ne : h1.byteAt a ≠ h.byteAt a) :
    ∃ i rs2 rs1 imm w, h.Runs i ∧ i.storeForm = some (rs2, rs1, imm, w) ∧ InAccess (h.eaOf rs1 imm) w a := by
  cases effect with
  | idle => exact absurd rfl ne
  | noFetch h' _ _ same => exact absurd (same.byteAt a) ne
  | noDecode w d h' _ _ same => exact absurd (same.byteAt a) ne
  | halts w h' _ _ _ same _ _ is => exact absurd (is ▸ same.byteAt a) ne
  | runs w i h' h1 _ fetch same decode exec =>
    rw [Hart.byteAt_boundary, ← same.byteAt] at ne
    obtain ⟨rs2, rs1, imm, w', form, inside⟩ := Machine.store_of_byteAt_ne exec ne
    exact ⟨i, rs2, rs1, imm, w', ⟨w, h', fetch, decode⟩, form, Hart.eaOf_congr same.reg rs1 imm ▸ inside⟩

/-- Settles O19, by what each kind of step does to a byte. -/
theorem memoryChangesOnlyByStores : Obligations.MemoryChangesOnlyByStores :=
  fun _ _ _ _ e ne => (stepEffect_of_step e).store_of_byteAt_ne ne

end Sys2Proof.Machine

/-! SUPPORT. The region of a single bus access (20_memory.md R82, R88, R89). -/

namespace Sys2Proof

theorem Region.claims_iff (r : Region) (a : Nat) : r.claims a = true ↔ r.base ≤ a ∧ a < r.base + r.length := by
  simp [Region.claims]

/-- The regions do not overlap (20_memory.md R82). -/
def Region.Apart (p q : Region) : Prop := p.base + p.length ≤ q.base ∨ q.base + q.length ≤ p.base

theorem Region.apart_symm : Std.Symm Region.Apart := ⟨fun _ _ => Or.symm⟩

/-- Over regions that do not overlap, the first that claims an address is the only one (20_memory.md R82). -/
theorem find?_claims_eq_some {regions : List Region} {a : Nat} {r : Region}
    (apart : regions.Pairwise Region.Apart) :
    regions.find? (fun r => r.claims a) = some r ↔ r ∈ regions ∧ r.claims a = true := by
  refine ⟨fun e => ⟨List.mem_of_find?_eq_some e, List.find?_some (p := (Region.claims · a)) e⟩, fun ⟨mem, claims⟩ => ?_⟩
  obtain ⟨q, found⟩ := Option.isSome_iff_exists.mp ((List.find?_isSome (p := (Region.claims · a))).mpr ⟨r, mem, claims⟩)
  have qClaims := (Region.claims_iff q a).mp (List.find?_some (p := (Region.claims · a)) found)
  have rClaims := (Region.claims_iff r a).mp claims
  have same : q = r := by
    by_contra ne
    have := Region.apart_symm
    have disjoint : q.Apart r := apart.forall (List.mem_of_find?_eq_some found) mem ne
    unfold Region.Apart at disjoint
    omega
  rw [found, same]

/-- A single bus access has the first region that claims its first byte, if that claims its last byte too and permits
the access (20_memory.md R88, R89). -/
theorem regionFor_eq_some {regions : List Region} {k : Access} {a n : Nat} {r : Region} :
    regionFor regions k a n = some r ↔
      regions.find? (fun r => r.claims a) = some r ∧ r.claims (a + n - 1) = true ∧ r.permits k = true := by
  unfold regionFor
  cases regions.find? (fun r => r.claims a) with
  | none => simp
  | some q =>
    simp only [Option.ite_none_right_eq_some, Bool.and_eq_true, Option.some.injEq]
    constructor
    · rintro ⟨ok, rfl⟩
      exact ⟨rfl, ok⟩
    · rintro ⟨rfl, ok⟩
      exact ⟨ok, rfl⟩

/-- Settles O46: the first region that claims the address is the only one, and it claims the addresses between those it
claims. -/
theorem busAccessNeedsOneRegion : Obligations.BusAccessNeedsOneRegion := by
  intro regions k a n r hn apart
  have range : r.claims a = true ∧ r.claims (a + n - 1) = true ↔ r.base ≤ a ∧ a + n ≤ r.base + r.length := by
    simp only [Region.claims_iff]
    omega
  rw [regionFor_eq_some, find?_claims_eq_some apart, and_assoc, ← and_assoc (a := r.claims a = true), range, and_assoc]
  cases k <;> simp [Region.permits]

end Sys2Proof

/-! SUPPORT. Accesses that fault or reach storage, as the step and the load and store instructions see them
(20_memory.md R92 to R96, R104, R107). -/

namespace Sys2Proof.Machine

variable {x : Xlen}

/-! ### Accesses that fault -/

/-- A fetch whose pc is misaligned or whose bus read faults fails, and reports the pc (20_memory.md R95, R96). -/
theorem Hart.fetch_fails {h : Hart x}
    (faults : h.pc.toNat % 4 = 0 → (h.busRead .fetch h.pc.toNat .word).1 = none) :
    ∃ h', h.fetch = (.error h.pc, h') := by
  unfold Hart.fetch
  split
  · rename_i aligned
    have faulted : h.busRead .fetch h.pc.toNat .word = (none, (h.busRead .fetch h.pc.toNat .word).2) :=
      Prod.ext (faults aligned) rfl
    rw [faulted]
    exact ⟨_, rfl⟩
  · exact ⟨h, rfl⟩

/-- A bus read of a device region gives the device's answer, if it gives one (20_memory.md R84). -/
theorem Hart.busRead_device {h : Hart x} {k : Access} {a : Nat} {w : Width} {r : Region}
    (hr : regionFor h.params.regions k a w.bytes = some r) (hk : r.kind = .device) :
    (h.busRead k a w).1 = Config.deviceRead h.deviceDraws r (a - r.base) w := by
  simp [Hart.busRead, hr, hk, Hart.deviceRead]

/-- Settles O9, by the three ways a fetch fails. -/
theorem fetchFaultsTrap : Obligations.FetchFaultsTrap := by
  intro x h running faults
  have fails : ∃ h', h.fetch = (.error h.pc, h') := by
    refine Hart.fetch_fails fun aligned => ?_
    rcases faults with misaligned | unmapped | ⟨r, hr, hk, refused⟩
    · exact absurd aligned misaligned
    · rw [Hart.busRead_unmapped unmapped]
    · exact (Hart.busRead_device (w := .word) hr hk).trans refused
  obtain ⟨h', e⟩ := fails
  exact step_of_fetch_error running e

/-- Settles O39, by `Hart.load_fault`. -/
theorem loadFaultsTrap : Obligations.LoadFaultsTrap := by
  intro x h i rd rs1 imm w a form wf faults
  obtain ⟨f, _, e⟩ := exec_load h form wf
  exact takesTrap_of (.loadAccessFault a) (by rw [e, Hart.load_fault faults])

/-- Settles O41, by `Hart.store_fault`. -/
theorem storeFaultsTrap : Obligations.StoreFaultsTrap := by
  intro x h i rs2 rs1 imm w a form wf faults
  exact takesTrap_of (.storeAccessFault a) (by rw [exec_store h form wf, Hart.store_fault faults])

/-! ### Reading what was stored -/

/-- Where an access goes depends on the parameters only. -/
theorem Hart.StorageAccess.of_params {h h1 : Hart x} {k : Access} {ea : XWord x} {w : Width}
    (access : h.StorageAccess k ea w) (e : h1.params = h.params) : h1.StorageAccess k ea w := by
  simpa only [Hart.StorageAccess, Hart.ReachesStorage, e] using access

/-- After a store the bytes of its access are the low bytes of its source. -/
theorem Hart.Stored.accessValue {h h1 : Hart x} {ea v : XWord x} {w : Width} (s : h.Stored h1 ea w v) :
    h1.accessValue ea w = v.toNat % 2 ^ w.bits := Hart.accessValue_of_stored s.stored

/-- A load from storage retires with the low bits of its register those of the bytes read. -/
theorem Hart.reg_load_storage {h : Hart x} {rd : Reg} {ea : XWord x} {w : Width} {f : BitVec w.bits → XWord x}
    (low : ∀ v, (f v).toNat % 2 ^ w.bits = v.toNat) (hrd : rd ≠ 0) (access : h.StorageAccess .read ea w) :
    ((h.load rd ea w f).reg rd).toNat % 2 ^ w.bits = h.accessValue ea w := by
  rw [Hart.load_storage access]
  have retired := (h.retires_write rd (f (.ofNat w.bits (h.accessValue ea w))) (h.pc + 4) (P := (· = _)) rfl).result hrd
  rw [Hart.retire, Hart.advance, Hart.setReg_pc, retired, low, BitVec.toNat_ofNat,
    Nat.mod_eq_of_lt (Hart.accessValue_lt h ea w)]

/-- Settles O42: the store leaves the registers and parameters, so the load has the same address and regions. -/
theorem loadAfterStore : Obligations.LoadAfterStore := by
  intro x h i j rs2 rs1 rd imm w store load wfi wfj hrd write read
  have stored := Hart.stored_store (v := h.reg rs2) write
  have sameEa := Hart.eaOf_congr stored.regs rs1 imm
  obtain ⟨f, low, e⟩ := exec_load (h.store (h.eaOf rs1 imm) w (h.reg rs2)) load wfj
  refine ⟨_, _, exec_store h store wfi, e, ?_⟩
  rw [sameEa, Hart.reg_load_storage low hrd (read.of_params stored.control.params), stored.accessValue]

/-- An aligned access reads as one number what it reads as bytes (20_memory.md R86). -/
theorem Hart.storageRead_aligned (h : Hart x) {ea : XWord x} {w : Width} (aligned : ea.toNat % w.bytes = 0) :
    (h.storageRead ea.toNat w).toNat = h.accessValue ea w := by
  rw [Hart.storageRead_toNat, Hart.accessValue]
  refine Finset.sum_congr rfl fun i hi => ?_
  rw [byteAddr_aligned aligned (Finset.mem_range.mp hi)]

/-- The bytes of an access depend on the memory only. -/
theorem Hart.accessValue_congr {h h1 : Hart x} (e : h1.memory = h.memory) (ea : XWord x) (w : Width) :
    h1.accessValue ea w = h.accessValue ea w := by
  simp only [Hart.accessValue, Hart.byteAt_congr e]

/-- Settles O45: a fetch reads the memory the store left, there being no other copy of it. -/
theorem storedCodeIsFetched : Obligations.StoredCodeIsFetched := by
  intro x h rs2 rs1 imm aligned write fetch
  have stored := Hart.stored_store (v := h.reg rs2) (w := .word) (.inl ⟨aligned, write⟩)
  refine ⟨_, exec_store (i := .sw rs2 rs1 imm) h rfl rfl, fun h2 pc memory params => ?_⟩
  have reaches : h2.ReachesStorage .fetch h2.pc.toNat 4 := by
    rw [Hart.ReachesStorage, params, stored.control.params, pc]
    exact fetch
  refine ⟨_, fetch_of_storage (pc ▸ aligned) reaches, ?_⟩
  rw [pc, Hart.storageRead_aligned h2 (w := .word) aligned, Hart.accessValue_congr memory]
  exact stored.accessValue

end Sys2Proof.Machine

/-! SUPPORT. Loads, stores and fetches do not look at the mode (20_memory.md R85): each operation on the hart in another
mode is the operation on the hart, in that mode. -/

namespace Sys2Proof.Machine

variable {x : Xlen}

namespace Hart

/-- The hart with its mode replaced. -/
def inMode (p : Priv) (h : Hart x) : Hart x := { h with priv := p }

variable (p : Priv)

@[simp] theorem inMode_params (h : Hart x) : (h.inMode p).params = h.params := rfl
@[simp] theorem inMode_pc (h : Hart x) : (h.inMode p).pc = h.pc := rfl

theorem busRead_inMode (k : Access) (a : Nat) (w : Width) (h : Hart x) :
    (h.inMode p).busRead k a w = ((h.busRead k a w).1, (h.busRead k a w).2.inMode p) := by
  simp only [busRead, inMode_params]
  split
  · rfl
  · split <;> rfl

theorem busWriteOk_inMode (a : Nat) (w : Width) (v : BitVec w.bits) (h : Hart x) :
    (h.inMode p).busWriteOk a w v = ((h.busWriteOk a w v).1, (h.busWriteOk a w v).2.inMode p) := by
  simp only [busWriteOk, inMode_params]
  split
  · rfl
  · split <;> rfl

theorem busWriteDo_inMode (a : Nat) (w : Width) (v : BitVec w.bits) (ok : Bool) (h : Hart x) :
    (h.inMode p).busWriteDo a w v ok = (h.busWriteDo a w v ok).inMode p := by
  simp only [busWriteDo, inMode_params]
  split
  · rfl
  · split
    · rfl
    · split <;> rfl

theorem splitRead_inMode (ea : XWord x) (n i : Nat) (h : Hart x) :
    splitRead ea n i (h.inMode p) = ((splitRead ea n i h).1, (splitRead ea n i h).2.inMode p) := by
  induction n generalizing i h with
  | zero => rfl
  | succ n ih =>
    simp only [splitRead, busRead_inMode]
    rcases h.busRead .read (ea + BitVec.ofNat x.bits i).toNat .byte with ⟨_ | b, h1⟩
    · rfl
    · simp only [ih]
      rcases splitRead ea n (i + 1) h1 with ⟨_ | bs, h2⟩ <;> rfl

theorem splitCheck_inMode (ea : XWord x) {m : Nat} (v : BitVec m) (n i : Nat) (h : Hart x) :
    splitCheck ea v n i (h.inMode p) = ((splitCheck ea v n i h).1, (splitCheck ea v n i h).2.inMode p) := by
  induction n generalizing i h with
  | zero => rfl
  | succ n ih =>
    simp only [splitCheck, busWriteOk_inMode]
    rcases h.busWriteOk (ea + BitVec.ofNat x.bits i).toNat .byte (byteOf v i) with ⟨_ | _, h1⟩
    · rfl
    · exact ih (i + 1) h1

theorem splitWrite_inMode (ea : XWord x) {m : Nat} (v : BitVec m) (n i : Nat) (h : Hart x) :
    splitWrite ea v n i (h.inMode p) = (splitWrite ea v n i h).inMode p := by
  induction n generalizing i h with
  | zero => rfl
  | succ n ih => rw [splitWrite, busWriteDo_inMode, ih, splitWrite]

theorem memRead_inMode (ea : XWord x) (w : Width) (h : Hart x) :
    (h.inMode p).memRead ea w = ((h.memRead ea w).1, (h.memRead ea w).2.inMode p) := by
  simp only [memRead, busRead_inMode, splitRead_inMode, inMode_params]
  split
  · rcases h.busRead .read ea.toNat w with ⟨_ | v, h1⟩ <;> rfl
  · cases h.params.misaligned with
    | fault => rfl
    | split => rcases splitRead ea w.bytes 0 h with ⟨_ | bs, h1⟩ <;> rfl

theorem memWrite_inMode (ea : XWord x) (w : Width) (v : BitVec w.bits) (h : Hart x) :
    (h.inMode p).memWrite ea w v = ((h.memWrite ea w v).1, (h.memWrite ea w v).2.inMode p) := by
  simp only [memWrite, busWriteOk_inMode, splitCheck_inMode, inMode_params]
  split
  · rcases h.busWriteOk ea.toNat w v with ⟨_ | _, h1⟩ <;> simp only [busWriteDo_inMode]
  · cases h.params.misaligned with
    | fault => rfl
    | split => rcases splitCheck ea v w.bytes 0 h with ⟨_ | a, h1⟩ <;> simp only [splitWrite_inMode]

theorem fetch_inMode (h : Hart x) : (h.inMode p).fetch = (h.fetch.1, h.fetch.2.inMode p) := by
  simp only [fetch, busRead_inMode, inMode_pc]
  split
  · rcases h.busRead .fetch h.pc.toNat .word with ⟨_ | w, h1⟩ <;> rfl
  · rfl

/-- `g1` is what an instruction run in mode `p` leaves where it leaves `h1` when run on `h`: the same but for the mode
if it retired, the same but for the mode saved in MPP if it trapped. -/
def SameInMode (h h1 g1 : Hart x) : Prop :=
  (h1.instretCtr = h.instretCtr + 1 ∧ g1 = h1.inMode p) ∨
    (h1.instretCtr = h.instretCtr ∧ g1 = { h1 with mstatus := { h1.mstatus with mpp := p } })

theorem load_inMode (rd : Reg) (ea : XWord x) (w : Width) (f : BitVec w.bits → XWord x) (h : Hart x) :
    SameInMode p h (h.load rd ea w f) ((h.inMode p).load rd ea w f) := by
  have same := memRead_same ea w h
  have mode := memRead_inMode p ea w h
  rcases e : h.memRead ea w with ⟨a | v, h1⟩ <;> rw [e] at same mode
  · rw [load_error e, load_error mode]
    exact .inr ⟨same.instretCtr, rfl⟩
  · rw [load_ok e, load_ok mode]
    exact .inl ⟨congrArg (· + 1) same.instretCtr, rfl⟩

theorem store_inMode (ea : XWord x) (w : Width) (v : XWord x) (h : Hart x) :
    SameInMode p h (h.store ea w v) ((h.inMode p).store ea w v) := by
  have frame := memWrite_frame ea w (v.setWidth w.bits) h
  have mode := memWrite_inMode p ea w (v.setWidth w.bits) h
  rcases e : h.memWrite ea w (v.setWidth w.bits) with ⟨_ | a, h1⟩ <;> rw [e] at frame mode
  · rw [store_ok e, store_ok mode]
    exact .inl ⟨congrArg (· + 1) frame.instretCtr, rfl⟩
  · rw [store_error e, store_error mode]
    exact .inr ⟨frame.instretCtr, rfl⟩

end Hart

/-- An instruction names at most one register value for a value read. -/
theorem LoadedAs.unique {i : Instr} {n : Nat} {v : BitVec n} {r s : XWord x} (hr : LoadedAs i v r)
    (hs : LoadedAs i v s) : r = s := by
  unfold LoadedAs at hr hs
  split at hr
  · rw [if_pos ‹_›] at hs
    exact BitVec.eq_of_toNat_eq (hr.trans hs.symm)
  · rw [if_neg ‹_›] at hs
    exact BitVec.eq_of_toInt_eq (hr.trans hs.symm)

/-- A load or store answers in another mode as it does in this one. -/
theorem exec_inMode {i : Instr} {h h1 : Hart x} (p : Priv) (form : i.loadForm ≠ none ∨ i.storeForm ≠ none)
    (wf : i.wellFormed x = true) (e : exec i ⟨x, h⟩ = .next ⟨x, h1⟩) :
    ∃ g1, exec i ⟨x, h.inMode p⟩ = .next ⟨x, g1⟩ ∧ h.SameInMode p h1 g1 := by
  rcases form with load | store
  · obtain ⟨⟨rd, rs1, imm, w⟩, form⟩ := Option.ne_none_iff_exists'.mp load
    obtain ⟨f, loadedF, e1⟩ := exec_load_as h form wf
    obtain ⟨g, loadedG, e2⟩ := exec_load_as (h.inMode p) form wf
    obtain rfl : g = f := funext fun v => (loadedG v).unique (loadedF v)
    obtain rfl := outcome_next_inj (e1.symm.trans e)
    exact ⟨_, e2, Hart.load_inMode p rd _ w g h⟩
  · obtain ⟨⟨rs2, rs1, imm, w⟩, form⟩ := Option.ne_none_iff_exists'.mp store
    obtain rfl := outcome_next_inj ((exec_store h form wf).symm.trans e)
    exact ⟨_, exec_store (h.inMode p) form wf, Hart.store_inMode p _ w _ h⟩

/-- Settles O44, by `exec_inMode` and `Hart.fetch_inMode`. -/
theorem loadsAndStoresIgnoreMode : Obligations.LoadsAndStoresIgnoreMode := by
  intro x h h1 p
  refine ⟨fun i form wf e => ?_, Hart.fetch_inMode p h⟩
  obtain ⟨g1, e1, ⟨count, rfl⟩ | ⟨count, rfl⟩⟩ := exec_inMode p form wf e
  · exact .inl ⟨count, e1⟩
  · exact .inr ⟨count, e1⟩

end Sys2Proof.Machine

/-! SUPPORT. Loads and stores whose access reaches a device: one lemma for each way it ends (20_memory.md R84, R92 to
R94; logs 5, 6, 7). -/

namespace Sys2Proof.Machine

variable {x : Xlen}

namespace Hart

/-! ### What the access leaves, retired or trapped -/

/-- A load whose access, having changed only the devices, gave a value. -/
theorem load_deviceRetires {h g : Hart x} {rd : Reg} {ea : XWord x} {w : Width} {f : BitVec w.bits → XWord x}
    {v : BitVec w.bits} {P : XWord x → Prop} {events : List DeviceEvent} {draws : Nat}
    (e : h.memRead ea w = (.ok v, g)) (result : P (f v)) (log : g.deviceLog = h.deviceLog ++ events)
    (drawn : g.deviceDraws = h.deviceDraws + draws) :
    h.DeviceRetires (h.load rd ea w f) rd P events draws ∧ (h.load rd ea w f).memory = h.memory := by
  have same := memRead_same ea w h
  rw [e] at same
  rw [load_ok e]
  exact ⟨deviceRetires_retire same.sameButMemory result log drawn, same.memory⟩

/-- A load whose access, having changed only the devices, faulted. -/
theorem load_deviceTraps {h g : Hart x} {rd : Reg} {ea a : XWord x} {w : Width} {f : BitVec w.bits → XWord x}
    {events : List DeviceEvent} {draws : Nat} (e : h.memRead ea w = (.error a, g))
    (log : g.deviceLog = h.deviceLog ++ events) (drawn : g.deviceDraws = h.deviceDraws + draws) :
    h.DeviceTraps (h.load rd ea w f) 5 a events draws ∧ (h.load rd ea w f).memory = h.memory := by
  have same := memRead_same ea w h
  rw [e] at same
  rw [load_error e]
  exact ⟨deviceTraps_raise (e := .loadAccessFault a) same log drawn, same.memory⟩

/-- A store whose access succeeded. -/
theorem store_deviceRetires {h g : Hart x} {ea v : XWord x} {w : Width} {events : List DeviceEvent} {draws : Nat}
    (e : h.memWrite ea w (v.setWidth w.bits) = (none, g)) (log : g.deviceLog = h.deviceLog ++ events)
    (drawn : g.deviceDraws = h.deviceDraws + draws) :
    h.DeviceRetires (h.store ea w v) 0 (fun _ => True) events draws ∧ (h.store ea w v).memory = g.memory := by
  have frame := memWrite_frame ea w (v.setWidth w.bits) h
  rw [e] at frame
  rw [store_ok e]
  exact ⟨deviceRetires_advance frame log drawn, rfl⟩

/-- A store whose access faulted. -/
theorem store_deviceTraps {h g : Hart x} {ea v a : XWord x} {w : Width} {events : List DeviceEvent} {draws : Nat}
    (e : h.memWrite ea w (v.setWidth w.bits) = (some a, g)) (log : g.deviceLog = h.deviceLog ++ events)
    (drawn : g.deviceDraws = h.deviceDraws + draws) :
    h.DeviceTraps (h.store ea w v) 7 a events draws ∧ (h.store ea w v).memory = h.memory := by
  have same := memWrite_refused e
  rw [store_error e]
  exact ⟨deviceTraps_raise (e := .storeAccessFault a) same log drawn, same.memory⟩

/-- A misaligned store under `Split` whose bytes can all be written: the devices get their bytes, storage gets the
others, and no other byte changes (20_memory.md R93, R94; log 7). -/
theorem store_split {h : Hart x} {ea v : XWord x} {w : Width} (misaligned : ea.toNat % w.bytes ≠ 0)
    (policy : h.params.misaligned = .split) (taken : ∀ j < w.bytes, h.splitTakes ea v j = true) :
    h.DeviceRetires (h.store ea w v) 0 (fun _ => True) (h.splitWriteEvents ea v w.bytes)
        (h.deviceCount .write ea w.bytes) ∧
      (∀ j < w.bytes, h.deviceAt .write (byteAddr ea j) = none →
        ((h.store ea w v).byteAt (byteAddr ea j)).toNat = v.toNat / 256 ^ j % 256) ∧
      (∀ a, ¬ InAccess ea w a ∨ h.deviceAt .write a ≠ none → (h.store ea w v).byteAt a = h.byteAt a) := by
  obtain ⟨g, access, _, log, drawn, stored, others⟩ := memWrite_split misaligned policy taken
  obtain ⟨retires, memory⟩ := store_deviceRetires access log drawn
  refine ⟨retires, fun j hj storage => ?_, fun a outside => ?_⟩
  · rw [byteAt_congr memory, stored j hj storage, byteOf_toNat]
  · rw [byteAt_congr memory, others a outside]

end Hart

/-- Settles O43: each clause is the access by its lemma, then what the load or store leaves of it. -/
theorem deviceAccessesFreeAndRecorded : Obligations.DeviceAccessesFreeAndRecorded := by
  intro x h i r3 rs1 imm w wf
  refine ⟨fun r aligned hk => ⟨fun form hr => ?_, fun form hr v hv => ?_⟩, fun misaligned policy form => ?_,
    fun misaligned policy form => ?_⟩
  · obtain ⟨f, loaded, e⟩ := exec_load_as h form wf
    have access := Hart.memRead_device aligned hr hk
    refine ⟨fun v answer => ?_, fun refused => ?_⟩
    · rw [answer] at access
      exact ⟨_, e, Hart.load_deviceRetires access (loaded v) rfl rfl⟩
    · rw [refused] at access
      exact ⟨_, e, Hart.load_deviceTraps access rfl rfl⟩
  · obtain rfl : v = (h.reg r3).setWidth w.bits := BitVec.eq_of_toNat_eq (by rw [hv, BitVec.toNat_setWidth])
    have e := exec_store h form wf
    have access := Hart.memWrite_device (v := (h.reg r3).setWidth w.bits) aligned hr hk
    refine ⟨fun taken => ?_, fun refused => ?_⟩
    · rw [taken, if_pos rfl] at access
      have retired := Hart.store_deviceRetires (events := [_]) (draws := 1) access rfl rfl
      exact ⟨_, e, retired⟩
    · rw [refused, if_neg Bool.false_ne_true] at access
      exact ⟨_, e, Hart.store_deviceTraps access rfl rfl⟩
  · obtain ⟨f, loaded, e⟩ := exec_load_as h form wf
    refine ⟨fun b answered => ?_, fun k hk a ha fault first => ?_⟩
    · exact ⟨_, e, Hart.load_deviceRetires (Hart.memRead_split misaligned policy answered) (loaded _) rfl rfl⟩
    · exact ⟨_, e, Hart.load_deviceTraps (Hart.memRead_splitFault misaligned policy hk ha fault first) rfl rfl⟩
  · have e := exec_store h form wf
    refine ⟨fun taken => ?_, fun k hk a ha fault first => ?_⟩
    · exact ⟨_, e, Hart.store_split misaligned policy taken⟩
    · have access := Hart.memWrite_splitFault misaligned policy hk ha fault first
      exact ⟨_, e, Hart.store_deviceTraps access (List.append_nil _).symm rfl⟩

end Sys2Proof.Machine

/-! SUPPORT. The decoder against the encoder: the word of every instruction decodes to it, and every instruction the map
gives has the word it was given for (30_encoding.md R121, R137 to R149). -/

namespace Sys2Proof

open Sys2Proof.Machine

/-! ### What a word decodes to -/

/-- HALT_WORD decodes to HALT, any other word by the map (30_encoding.md R159). -/
theorem decodeWord_eq_ok {x : Xlen} {hw w : BitVec 32} {i : Instr} :
    decodeWord x hw w = .ok i ↔ w = hw ∧ i = .halt ∨ w ≠ hw ∧ decodeMap x w = some i := by
  by_cases e : w = hw
  · simp [decodeWord, e, eq_comm]
  · rw [decodeWord_of_ne e]
    cases decodeMap x w <;> simp [e]

theorem decodeWord_of_map {x : Xlen} {hw w : BitVec 32} {i : Instr} (hne : w ≠ hw) (e : decodeMap x w = some i) :
    decodeWord x hw w = .ok i := decodeWord_eq_ok.mpr (.inr ⟨hne, e⟩)

/-- A word other than HALT_WORD that the map gives no instruction for is illegal as a whole (30_encoding.md R150). -/
theorem decodeWord_of_map_none {x : Xlen} {hw w : BitVec 32} (hne : w ≠ hw) (e : decodeMap x w = none) :
    decodeWord x hw w = .error (.illegalInstruction w) := by
  rw [decodeWord_of_ne hne, e]

/-! ### Decode of encode -/

/-- The W forms and LWU, LD, SD exist when XLEN is 64 only (30_encoding.md R158). -/
theorem xlen_of_rv64Only {x : Xlen} {i : Instr} (only : i.rv64Only = true) (wf : i.wellFormed x = true) :
    x = .rv64 := by
  cases x
  · simp [Instr.wellFormed, only] at wf
  · rfl

/-- The map gives back every instruction but HALT, opcode by opcode of R138 to R148: the fields the decoder reads are
those the format wrote. -/
theorem decodeMap_encode {x : Xlen} {i : Instr} (hw : BitVec 32) (hi : i ≠ .halt) (wf : i.wellFormed x = true) :
    decodeMap x (encode hw i) = some i := by
  have only := xlen_of_rv64Only (x := x) (i := i)
  cases i
  case halt => contradiction
  case lui | auipc | jal | jalr => simp [encode, decodeMap]
  case lb | lh | lw | lbu | lhu => simp [encode, decodeMap, decodeLoad]
  case ld | lwu =>
    obtain rfl := only rfl wf
    simp [encode, decodeMap, decodeLoad, only64]
  case fence | fenceI => simp [encode, decodeMap, decodeMiscMem]
  case addi | slti | sltiu | xori | ori | andi => simp [encode, decodeMap, decodeOpImm]
  case slli rd rs1 shamt | srli rd rs1 shamt | srai rd rs1 shamt =>
    have bound : shamt.toNat < x.bits := by simpa [Instr.wellFormed, Instr.rv64Only, Instr.xlenShamt] using wf
    simp [encode, decodeMap, decodeOpImm, decodeShift, bound]
  case addiw | slliw | srliw | sraiw =>
    obtain rfl := only rfl wf
    simp [encode, decodeMap, decodeOpImm32, only64]
  case sb | sh | sw => simp [encode, decodeMap, decodeStore]
  case sd =>
    obtain rfl := only rfl wf
    simp [encode, decodeMap, decodeStore, only64]
  case add | sll | slt | sltu | xor | srl | or | and => simp [encode, decodeMap, decodeOp, decodeOpBase]
  case sub | sra => simp [encode, decodeMap, decodeOp, decodeOpAlt]
  case mul | mulh | mulhsu | mulhu | div | divu | rem | remu => simp [encode, decodeMap, decodeOp, decodeOpMulDiv]
  case addw | sllw | srlw | subw | sraw | mulw | divw | divuw | remw | remuw =>
    obtain rfl := only rfl wf
    simp [encode, decodeMap, decodeOp32, only64]
  case beq | bne | blt | bge | bltu | bgeu => simp [encode, decodeMap, decodeBranch]
  case ecall | ebreak | mret | wfi =>
    simp only [encode]
    cases x <;> decide
  case csrrw | csrrs | csrrc | csrrwi | csrrsi | csrrci => simp [encode, decodeMap, decodeSystem]

/-- Settles O2, by `decodeMap_encode`: the word of an instruction that is not shadowed is not HALT_WORD. -/
theorem decodeInvertsEncode : Obligations.DecodeInvertsEncode := by
  intro x hw i wf shadowed
  by_cases hi : i = .halt
  · exact decodeWord_eq_ok.mpr (.inl ⟨by rw [hi, encode], hi⟩)
  · have hne : encode hw i ≠ hw := by simpa [Instr.shadowed, hi] using shadowed
    exact decodeWord_of_map hne (decodeMap_encode hw hi wf)

/-! ### Words with the fixed fields of a format -/

section

variable {w : BitVec 32} {op : BitVec 7} {f3 : BitVec 3} {f7 : BitVec 7} {f6 : BitVec 6}

theorem encodeR_of_fields (ho : opcodeOf w = op) (h7 : funct7Of w = f7) (h3 : funct3Of w = f3) :
    encodeR f7 (rs2Of w) (rs1Of w) f3 (rdOf w) op = w := by
  rw [← ho, ← h7, ← h3, encodeR_fields]

theorem encodeI_of_fields (ho : opcodeOf w = op) (h3 : funct3Of w = f3) :
    encodeI (immIOf w) (rs1Of w) f3 (rdOf w) op = w := by
  rw [← ho, ← h3, encodeI_fields]

theorem encodeShift_of_fields (ho : opcodeOf w = op) (h6 : funct6Of w = f6) (h3 : funct3Of w = f3) :
    encodeShift f6 (shamtOf w) (rs1Of w) f3 (rdOf w) op = w := by
  rw [← ho, ← h6, ← h3, encodeShift_fields]

theorem encodeS_of_fields (ho : opcodeOf w = op) (h3 : funct3Of w = f3) :
    encodeS (immSOf w) (rs2Of w) (rs1Of w) f3 op = w := by
  rw [← ho, ← h3, encodeS_fields]

theorem encodeB_of_fields (ho : opcodeOf w = op) (h3 : funct3Of w = f3) :
    encodeB (offBOf w) (rs2Of w) (rs1Of w) f3 op = w := by
  rw [← ho, ← h3, encodeB_fields]

theorem encodeU_of_fields (ho : opcodeOf w = op) : encodeU (immUOf w) (rdOf w) op = w := by
  rw [← ho, encodeU_fields]

theorem encodeJ_of_fields (ho : opcodeOf w = op) : encodeJ (offJOf w) (rdOf w) op = w := by
  rw [← ho, encodeJ_fields]

end

/-! ### Encode of decode -/

/-- The last of the eight values of funct3, which OP-IMM and OP leave to their last arm. -/
theorem funct3_eq_seven {f : BitVec 3} (h0 : f ≠ 0b000#3) (h1 : f ≠ 0b001#3) (h2 : f ≠ 0b010#3) (h3 : f ≠ 0b011#3)
    (h4 : f ≠ 0b100#3) (h5 : f ≠ 0b101#3) (h6 : f ≠ 0b110#3) : f = 0b111#3 := by
  bv_omega

/-- What a decoder gives for a word, if anything, is an instruction of this XLEN other than HALT whose word that is. -/
def Faithful (x : Xlen) (hw w : BitVec 32) (o : Option Instr) : Prop :=
  ∀ i, o = some i → i ≠ .halt ∧ i.wellFormed x = true ∧ encode hw i = w

namespace Faithful

variable {x : Xlen} {hw w : BitVec 32} {i : Instr} {o o' : Option Instr}

theorem none : Faithful x hw w none := nofun

theorem some (e : encode hw i = w) (hi : i ≠ .halt := by nofun) (wf : i.wellFormed x = true := by rfl) :
    Faithful x hw w (some i) := by
  rintro _ ⟨⟩
  exact ⟨hi, wf, e⟩

theorem ite {p : Prop} [Decidable p] (yes : p → Faithful x hw w o) (no : ¬ p → Faithful x hw w o') :
    Faithful x hw w (if p then o else o') := by
  split
  · exact yes ‹_›
  · exact no ‹_›

theorem only64 (e : encode hw i = w) (hi : i ≠ .halt := by nofun) (wf : i.wellFormed .rv64 = true := by rfl) :
    Faithful x hw w (only64 x i) :=
  .ite (fun is64 => .some e hi (is64 ▸ wf)) fun _ => .none

/-- An arm of a decoder: under its condition the instruction has the word. -/
theorem arm {p : Prop} [Decidable p] (e : p → encode hw i = w) (no : ¬ p → Faithful x hw w o')
    (hi : i ≠ .halt := by nofun) (wf : i.wellFormed x = true := by rfl) :
    Faithful x hw w (if p then Option.some i else o') :=
  .ite (fun h => .some (e h) hi wf) no

/-- An arm for XLEN 64 only (30_encoding.md R158). -/
theorem arm64 {p : Prop} [Decidable p] (e : p → encode hw i = w) (no : ¬ p → Faithful x hw w o')
    (hi : i ≠ .halt := by nofun) (wf : i.wellFormed .rv64 = true := by rfl) :
    Faithful x hw w (if p then Sys2Proof.only64 x i else o') :=
  .ite (fun h => .only64 (e h) hi wf) no

/-- A shift's amount is the one the decoder bounds by XLEN (30_encoding.md R135). -/
theorem shift {upper : BitVec 6} (e : funct6Of w = upper → encode hw i = w) (hi : i ≠ .halt := by nofun)
    (base : i.rv64Only = false := by rfl) (amount : i.xlenShamt = Option.some (shamtOf w) := by rfl) :
    Faithful x hw w (decodeShift x w upper i) :=
  .ite (fun ⟨h6, bound⟩ => .some (e h6) hi (by simpa [Instr.wellFormed, base, amount] using bound)) fun _ => .none

/-- LOAD (30_encoding.md R138). -/
theorem load (ho : opcodeOf w = 0x03#7) : Faithful x hw w (decodeLoad x w) :=
  .arm (encodeI_of_fields ho) fun _ =>
  .arm (encodeI_of_fields ho) fun _ =>
  .arm (encodeI_of_fields ho) fun _ =>
  .arm64 (encodeI_of_fields ho) fun _ =>
  .arm (encodeI_of_fields ho) fun _ =>
  .arm (encodeI_of_fields ho) fun _ =>
  .arm64 (encodeI_of_fields ho) fun _ => .none

/-- MISC-MEM (30_encoding.md R139, R152). -/
theorem miscMem (ho : opcodeOf w = 0x0F#7) : Faithful x hw w (decodeMiscMem w) :=
  .arm (encodeFence_fields w ho) fun _ =>
  .arm (encodeI_of_fields ho) fun _ => .none

/-- OP-IMM (30_encoding.md R140). -/
theorem opImm (ho : opcodeOf w = 0x13#7) : Faithful x hw w (decodeOpImm x w) :=
  .arm (encodeI_of_fields ho) fun n0 =>
  .ite (fun h3 => .shift (encodeShift_of_fields ho · h3)) fun n1 =>
  .arm (encodeI_of_fields ho) fun n2 =>
  .arm (encodeI_of_fields ho) fun n3 =>
  .arm (encodeI_of_fields ho) fun n4 =>
  .ite (fun h3 => .ite (fun _ => .shift (encodeShift_of_fields ho · h3))
    fun _ => .shift (encodeShift_of_fields ho · h3)) fun n5 =>
  .arm (encodeI_of_fields ho) fun n6 =>
  .some (encodeI_of_fields ho (funct3_eq_seven n0 n1 n2 n3 n4 n5 n6))

/-- OP-IMM-32 (30_encoding.md R142). -/
theorem opImm32 (ho : opcodeOf w = 0x1B#7) : Faithful x hw w (decodeOpImm32 x w) :=
  .arm64 (encodeI_of_fields ho) fun _ =>
  .ite (fun h3 => .arm64 (encodeR_of_fields ho · h3) fun _ => .none) fun _ =>
  .ite (fun h3 => .arm64 (encodeR_of_fields ho · h3) fun _ =>
    .arm64 (encodeR_of_fields ho · h3) fun _ => .none) fun _ => .none

/-- STORE (30_encoding.md R143). -/
theorem store (ho : opcodeOf w = 0x23#7) : Faithful x hw w (decodeStore x w) :=
  .arm (encodeS_of_fields ho) fun _ =>
  .arm (encodeS_of_fields ho) fun _ =>
  .arm (encodeS_of_fields ho) fun _ =>
  .arm64 (encodeS_of_fields ho) fun _ => .none

/-- OP, column funct7 = 0000000 (30_encoding.md R144). -/
theorem opBase (ho : opcodeOf w = 0x33#7) (h7 : funct7Of w = 0b0000000#7) : Faithful x hw w (decodeOpBase w) :=
  .arm (encodeR_of_fields ho h7) fun n0 =>
  .arm (encodeR_of_fields ho h7) fun n1 =>
  .arm (encodeR_of_fields ho h7) fun n2 =>
  .arm (encodeR_of_fields ho h7) fun n3 =>
  .arm (encodeR_of_fields ho h7) fun n4 =>
  .arm (encodeR_of_fields ho h7) fun n5 =>
  .arm (encodeR_of_fields ho h7) fun n6 =>
  .some (encodeR_of_fields ho h7 (funct3_eq_seven n0 n1 n2 n3 n4 n5 n6))

/-- OP, column funct7 = 0000001 (30_encoding.md R144). -/
theorem opMulDiv (ho : opcodeOf w = 0x33#7) (h7 : funct7Of w = 0b0000001#7) : Faithful x hw w (decodeOpMulDiv w) :=
  .arm (encodeR_of_fields ho h7) fun n0 =>
  .arm (encodeR_of_fields ho h7) fun n1 =>
  .arm (encodeR_of_fields ho h7) fun n2 =>
  .arm (encodeR_of_fields ho h7) fun n3 =>
  .arm (encodeR_of_fields ho h7) fun n4 =>
  .arm (encodeR_of_fields ho h7) fun n5 =>
  .arm (encodeR_of_fields ho h7) fun n6 =>
  .some (encodeR_of_fields ho h7 (funct3_eq_seven n0 n1 n2 n3 n4 n5 n6))

/-- OP (30_encoding.md R144). -/
theorem op (ho : opcodeOf w = 0x33#7) : Faithful x hw w (decodeOp w) :=
  .ite (opBase ho) fun _ =>
  .ite (fun h7 => .arm (encodeR_of_fields ho h7) fun _ =>
    .arm (encodeR_of_fields ho h7) fun _ => .none) fun _ =>
  .ite (opMulDiv ho) fun _ => .none

/-- OP-32 (30_encoding.md R145). -/
theorem op32 (ho : opcodeOf w = 0x3B#7) : Faithful x hw w (decodeOp32 x w) :=
  .ite (fun h7 =>
    .arm64 (encodeR_of_fields ho h7) fun _ =>
    .arm64 (encodeR_of_fields ho h7) fun _ =>
    .arm64 (encodeR_of_fields ho h7) fun _ => .none) fun _ =>
  .ite (fun h7 =>
    .arm64 (encodeR_of_fields ho h7) fun _ =>
    .arm64 (encodeR_of_fields ho h7) fun _ => .none) fun _ =>
  .ite (fun h7 =>
    .arm64 (encodeR_of_fields ho h7) fun _ =>
    .arm64 (encodeR_of_fields ho h7) fun _ =>
    .arm64 (encodeR_of_fields ho h7) fun _ =>
    .arm64 (encodeR_of_fields ho h7) fun _ =>
    .arm64 (encodeR_of_fields ho h7) fun _ => .none) fun _ => .none

/-- BRANCH (30_encoding.md R146). -/
theorem branch (ho : opcodeOf w = 0x63#7) : Faithful x hw w (decodeBranch w) :=
  .arm (encodeB_of_fields ho) fun _ =>
  .arm (encodeB_of_fields ho) fun _ =>
  .arm (encodeB_of_fields ho) fun _ =>
  .arm (encodeB_of_fields ho) fun _ =>
  .arm (encodeB_of_fields ho) fun _ =>
  .arm (encodeB_of_fields ho) fun _ => .none

/-- SYSTEM (30_encoding.md R148): the four fixed words, and the six CSR instructions. -/
theorem system (ho : opcodeOf w = 0x73#7) : Faithful x hw w (decodeSystem w) :=
  .ite (fun _ =>
    .arm Eq.symm fun _ =>
    .arm Eq.symm fun _ =>
    .arm Eq.symm fun _ =>
    .arm Eq.symm fun _ => .none) fun _ =>
  .arm (encodeI_of_fields ho) fun _ =>
  .arm (encodeI_of_fields ho) fun _ =>
  .arm (encodeI_of_fields ho) fun _ =>
  .arm (encodeI_of_fields ho) fun _ =>
  .arm (encodeI_of_fields ho) fun _ =>
  .arm (encodeI_of_fields ho) fun _ => .none

/-- The opcode map (30_encoding.md R137). -/
theorem map : Faithful x hw w (decodeMap x w) :=
  .ite load fun _ =>
  .ite miscMem fun _ =>
  .ite opImm fun _ =>
  .arm encodeU_of_fields fun _ =>
  .ite opImm32 fun _ =>
  .ite store fun _ =>
  .ite op fun _ =>
  .arm encodeU_of_fields fun _ =>
  .ite op32 fun _ =>
  .ite branch fun _ =>
  .ite (fun ho => .arm (encodeI_of_fields ho) fun _ => .none) fun _ =>
  .arm encodeJ_of_fields fun _ =>
  .ite system fun _ => .none

end Faithful

/-- Settles O3: HALT_WORD decodes to HALT, whose word it is; for any other word the map is faithful. -/
theorem encodeInvertsDecode : Obligations.EncodeInvertsDecode := by
  intro x hw w i decoded
  rcases decodeWord_eq_ok.mp decoded with ⟨rfl, rfl⟩ | ⟨hne, mapped⟩
  · exact ⟨rfl, rfl, rfl⟩
  · obtain ⟨-, wf, e⟩ := Faithful.map i mapped
    exact ⟨e, wf, by simp [Instr.shadowed, e, hne]⟩

end Sys2Proof

/-! SUPPORT. The decoder against the opcode table (30_encoding.md R159): a word that matches a row is the word of an
instruction of the row's name, made of the word's own fields, and rows one XLEN admits do not overlap. -/

namespace Sys2Proof

open Sys2Proof.Machine

/-! ### Words that match a format's fixed bits -/

section

variable {w : BitVec 32} {op : BitVec 7} {f3 : BitVec 3} {f7 : BitVec 7} {f6 : BitVec 6}

theorem encodeR_of_mask (h : w &&& 0xFE00707F#32 = encodeR f7 0 0 f3 0 op) :
    encodeR f7 (rs2Of w) (rs1Of w) f3 (rdOf w) op = w :=
  encodeR_of_fields ((field_of_mask h 0 7 rfl).trans (opcodeOf_encodeR ..))
    ((field_of_mask h 25 7 rfl).trans (funct7Of_encodeR ..)) ((field_of_mask h 12 3 rfl).trans (funct3Of_encodeR ..))

theorem encodeI_of_mask (h : w &&& 0x0000707F#32 = encodeI 0 0 f3 0 op) :
    encodeI (immIOf w) (rs1Of w) f3 (rdOf w) op = w :=
  encodeI_of_fields ((field_of_mask h 0 7 rfl).trans (opcodeOf_encodeI ..))
    ((field_of_mask h 12 3 rfl).trans (funct3Of_encodeI ..))

theorem encodeShift_of_mask (h : w &&& 0xFC00707F#32 = encodeShift f6 0 0 f3 0 op) :
    encodeShift f6 (shamtOf w) (rs1Of w) f3 (rdOf w) op = w :=
  encodeShift_of_fields ((field_of_mask h 0 7 rfl).trans (opcodeOf_encodeShift ..))
    ((field_of_mask h 26 6 rfl).trans (funct6Of_encodeShift ..))
    ((field_of_mask h 12 3 rfl).trans (funct3Of_encodeShift ..))

theorem encodeS_of_mask (h : w &&& 0x0000707F#32 = encodeS 0 0 0 f3 op) :
    encodeS (immSOf w) (rs2Of w) (rs1Of w) f3 op = w :=
  encodeS_of_fields ((field_of_mask h 0 7 rfl).trans (opcodeOf_encodeS ..))
    ((field_of_mask h 12 3 rfl).trans (funct3Of_encodeS ..))

theorem encodeB_of_mask (h : w &&& 0x0000707F#32 = encodeB 0 0 0 f3 op) :
    encodeB (offBOf w) (rs2Of w) (rs1Of w) f3 op = w :=
  encodeB_of_fields ((field_of_mask h 0 7 rfl).trans (opcodeOf_encodeB ..))
    ((field_of_mask h 12 3 rfl).trans (funct3Of_encodeB ..))

theorem encodeU_of_mask (h : w &&& 0x0000007F#32 = encodeU 0 0 op) : encodeU (immUOf w) (rdOf w) op = w :=
  encodeU_of_fields ((field_of_mask h 0 7 rfl).trans (opcodeOf_encodeU ..))

theorem encodeJ_of_mask (h : w &&& 0x0000007F#32 = encodeJ 0 0 op) : encodeJ (offJOf w) (rdOf w) op = w :=
  encodeJ_of_fields ((field_of_mask h 0 7 rfl).trans (opcodeOf_encodeJ ..))

theorem encodeFence_of_mask (h : w &&& 0x0000707F#32 = encodeFence 0 0 0 0 0) :
    encodeFence (fmOf w) (predOf w) (succOf w) (rs1Of w) (rdOf w) = w :=
  encodeFence_fields w ((field_of_mask h 0 7 rfl).trans (opcodeOf_encodeFence ..))
    ((field_of_mask h 12 3 rfl).trans (funct3Of_encodeFence ..))

theorem word_of_mask {v : BitVec 32} (h : w &&& 0xFFFFFFFF#32 = v) : v = w := by
  rw [← h]
  exact BitVec.and_allOnes

end

/-! ### Every row decodes to its mnemonic -/

/-- Bit 25 of a word is the highest of the 6-bit shift amount (30_encoding.md R135). -/
theorem shamtOf_lt_iff (w : BitVec 32) : (shamtOf w).toNat < 32 ↔ w.getLsbD 25 = false := by
  have top : (shamtOf w).msb = w.getLsbD 25 := by simp [shamtOf, BitVec.msb_eq_getLsbD_last]
  rw [← top, BitVec.msb_eq_false_iff_two_mul_lt]
  omega

theorem OpcodeRow.matches_iff (r : OpcodeRow) (w : BitVec 32) : r.matches w = true ↔ w &&& r.mask = r.pattern := by
  simp [OpcodeRow.matches]

/-- A word that matches the row decodes to an instruction with the row's name, where XLEN admits the row. -/
def OpcodeRow.Decodes (r : OpcodeRow) (x : Xlen) (w : BitVec 32) : Prop :=
  r.admits x = true → w &&& r.mask = r.pattern → ∃ i, decodeMap x w = some i ∧ i.mnemonic = r.mnemonic

namespace OpcodeRow.Decodes

variable {x : Xlen} {w : BitVec 32} {r : OpcodeRow}

theorem of_wellFormed (i : Instr) (e : w &&& r.mask = r.pattern → encode 0 i = w)
    (wf : r.admits x = true → w &&& r.mask = r.pattern → i.wellFormed x = true)
    (hi : i ≠ .halt) (name : i.mnemonic = r.mnemonic) : r.Decodes x w := by
  intro admitted matched
  have mapped := decodeMap_encode 0 hi (wf admitted matched)
  rw [e matched] at mapped
  exact ⟨i, mapped, name⟩

/-- A row of an instruction both XLENs have. -/
theorem of_encode (i : Instr) (e : w &&& r.mask = r.pattern → encode 0 i = w) (wf : i.wellFormed x = true := by rfl)
    (hi : i ≠ .halt := by nofun) (name : i.mnemonic = r.mnemonic := by rfl) : r.Decodes x w :=
  of_wellFormed i e (fun _ _ => wf) hi name

/-- A row of an instruction for XLEN 64 only (30_encoding.md R158). -/
theorem of_encode64 (i : Instr) (e : w &&& r.mask = r.pattern → encode 0 i = w)
    (row : r.rv32 = false := by rfl) (wf : i.wellFormed .rv64 = true := by rfl)
    (hi : i ≠ .halt := by nofun) (name : i.mnemonic = r.mnemonic := by rfl) : r.Decodes x w := by
  refine of_wellFormed i e (fun admitted _ => ?_) hi name
  cases x
  · exact absurd (row.symm.trans admitted) nofun
  · exact wf

/-- A shift's row for XLEN 64: the amount has 6 bits. -/
theorem shift64 (i : Instr) (e : w &&& r.mask = r.pattern → encode 0 i = w) (row : r.rv32 = false := by rfl)
    (base : i.rv64Only = false := by rfl) (amount : i.xlenShamt = some (shamtOf w) := by rfl)
    (hi : i ≠ .halt := by nofun) (name : i.mnemonic = r.mnemonic := by rfl) : r.Decodes x w := by
  refine of_encode64 i e row ?_ hi name
  simpa [Instr.wellFormed, base, amount] using (shamtOf w).isLt

/-- A shift's row for XLEN 32: its mask covers bit 25 too, which is clear (30_encoding.md R135). -/
theorem shift32 (i : Instr) (e : w &&& 0xFC00707F#32 = r.pattern → encode 0 i = w) (row : r.rv64 = false := by rfl)
    (mask : r.mask = 0xFE00707F#32 := by rfl) (clear : r.pattern &&& 0xFC00707F#32 = r.pattern := by rfl)
    (base : i.rv64Only = false := by rfl) (amount : i.xlenShamt = some (shamtOf w) := by rfl)
    (hi : i ≠ .halt := by nofun) (name : i.mnemonic = r.mnemonic := by rfl) : r.Decodes x w := by
  have bit25 : w &&& r.mask = r.pattern → w.getLsbD 25 = false := by
    intro matched
    rw [mask] at matched
    have := congrArg (·.getLsbD 25) (matched.trans clear.symm)
    simpa using this
  have coarser : w &&& r.mask = r.pattern → w &&& 0xFC00707F#32 = r.pattern := by
    intro matched
    rw [← clear, ← matched, mask, BitVec.and_assoc]
    rfl
  refine of_wellFormed i (e ∘ coarser) (fun admitted matched => ?_) hi name
  cases x
  · simpa [Instr.wellFormed, base, amount] using (shamtOf_lt_iff w).mpr (bit25 matched)
  · exact absurd (row.symm.trans admitted) nofun

end OpcodeRow.Decodes

section

variable {x : Xlen} {w : BitVec 32}

theorem integerRows_decode : ∀ r ∈ integerRows, r.Decodes x w := by
  simp only [integerRows, List.forall_mem_cons]
  exact ⟨.of_encode (.lui ..) (encodeU_of_mask ·), .of_encode (.auipc ..) (encodeU_of_mask ·),
    .of_encode (.addi ..) (encodeI_of_mask ·), .of_encode (.slti ..) (encodeI_of_mask ·),
    .of_encode (.sltiu ..) (encodeI_of_mask ·), .of_encode (.xori ..) (encodeI_of_mask ·),
    .of_encode (.ori ..) (encodeI_of_mask ·), .of_encode (.andi ..) (encodeI_of_mask ·),
    .shift32 (.slli ..) (encodeShift_of_mask ·), .shift64 (.slli ..) (encodeShift_of_mask ·),
    .shift32 (.srli ..) (encodeShift_of_mask ·), .shift64 (.srli ..) (encodeShift_of_mask ·),
    .shift32 (.srai ..) (encodeShift_of_mask ·), .shift64 (.srai ..) (encodeShift_of_mask ·),
    .of_encode (.add ..) (encodeR_of_mask ·), .of_encode (.sub ..) (encodeR_of_mask ·),
    .of_encode (.sll ..) (encodeR_of_mask ·), .of_encode (.slt ..) (encodeR_of_mask ·),
    .of_encode (.sltu ..) (encodeR_of_mask ·), .of_encode (.xor ..) (encodeR_of_mask ·),
    .of_encode (.srl ..) (encodeR_of_mask ·), .of_encode (.sra ..) (encodeR_of_mask ·),
    .of_encode (.or ..) (encodeR_of_mask ·), .of_encode (.and ..) (encodeR_of_mask ·),
    .of_encode64 (.addiw ..) (encodeI_of_mask ·), nofun⟩

theorem integerRowsMore_decode : ∀ r ∈ integerRowsMore, r.Decodes x w := by
  simp only [integerRowsMore, List.forall_mem_cons]
  exact ⟨.of_encode64 (.slliw ..) (encodeR_of_mask ·), .of_encode64 (.srliw ..) (encodeR_of_mask ·),
    .of_encode64 (.sraiw ..) (encodeR_of_mask ·), .of_encode64 (.addw ..) (encodeR_of_mask ·),
    .of_encode64 (.subw ..) (encodeR_of_mask ·), .of_encode64 (.sllw ..) (encodeR_of_mask ·),
    .of_encode64 (.srlw ..) (encodeR_of_mask ·), .of_encode64 (.sraw ..) (encodeR_of_mask ·), nofun⟩

theorem loadStoreRows_decode : ∀ r ∈ loadStoreRows, r.Decodes x w := by
  simp only [loadStoreRows, List.forall_mem_cons]
  exact ⟨.of_encode (.lb ..) (encodeI_of_mask ·), .of_encode (.lh ..) (encodeI_of_mask ·),
    .of_encode (.lw ..) (encodeI_of_mask ·), .of_encode (.lbu ..) (encodeI_of_mask ·),
    .of_encode (.lhu ..) (encodeI_of_mask ·), .of_encode64 (.lwu ..) (encodeI_of_mask ·),
    .of_encode64 (.ld ..) (encodeI_of_mask ·), .of_encode (.sb ..) (encodeS_of_mask ·),
    .of_encode (.sh ..) (encodeS_of_mask ·), .of_encode (.sw ..) (encodeS_of_mask ·),
    .of_encode64 (.sd ..) (encodeS_of_mask ·), nofun⟩

theorem branchRows_decode : ∀ r ∈ branchRows, r.Decodes x w := by
  simp only [branchRows, List.forall_mem_cons]
  exact ⟨.of_encode (.beq ..) (encodeB_of_mask ·), .of_encode (.bne ..) (encodeB_of_mask ·),
    .of_encode (.blt ..) (encodeB_of_mask ·), .of_encode (.bge ..) (encodeB_of_mask ·),
    .of_encode (.bltu ..) (encodeB_of_mask ·), .of_encode (.bgeu ..) (encodeB_of_mask ·),
    .of_encode (.jal ..) (encodeJ_of_mask ·), .of_encode (.jalr ..) (encodeI_of_mask ·), nofun⟩

theorem systemRows_decode : ∀ r ∈ systemRows, r.Decodes x w := by
  simp only [systemRows, List.forall_mem_cons]
  exact ⟨.of_encode (.fence ..) (encodeFence_of_mask ·), .of_encode (.fenceI ..) (encodeI_of_mask ·),
    .of_encode .ecall (word_of_mask ·), .of_encode .ebreak (word_of_mask ·), .of_encode .mret (word_of_mask ·),
    .of_encode .wfi (word_of_mask ·), nofun⟩

theorem csrRows_decode : ∀ r ∈ csrRows, r.Decodes x w := by
  simp only [csrRows, List.forall_mem_cons]
  exact ⟨.of_encode (.csrrw ..) (encodeI_of_mask ·), .of_encode (.csrrs ..) (encodeI_of_mask ·),
    .of_encode (.csrrc ..) (encodeI_of_mask ·), .of_encode (.csrrwi ..) (encodeI_of_mask ·),
    .of_encode (.csrrsi ..) (encodeI_of_mask ·), .of_encode (.csrrci ..) (encodeI_of_mask ·), nofun⟩

theorem mulDivRows_decode : ∀ r ∈ mulDivRows, r.Decodes x w := by
  simp only [mulDivRows, List.forall_mem_cons]
  exact ⟨.of_encode (.mul ..) (encodeR_of_mask ·), .of_encode (.mulh ..) (encodeR_of_mask ·),
    .of_encode (.mulhsu ..) (encodeR_of_mask ·), .of_encode (.mulhu ..) (encodeR_of_mask ·),
    .of_encode (.div ..) (encodeR_of_mask ·), .of_encode (.divu ..) (encodeR_of_mask ·),
    .of_encode (.rem ..) (encodeR_of_mask ·), .of_encode (.remu ..) (encodeR_of_mask ·),
    .of_encode64 (.mulw ..) (encodeR_of_mask ·), .of_encode64 (.divw ..) (encodeR_of_mask ·),
    .of_encode64 (.divuw ..) (encodeR_of_mask ·), .of_encode64 (.remw ..) (encodeR_of_mask ·),
    .of_encode64 (.remuw ..) (encodeR_of_mask ·), nofun⟩

theorem opcodeTable_decode : ∀ r ∈ opcodeTable, r.Decodes x w := by
  simp only [opcodeTable, List.forall_mem_append]
  exact ⟨⟨⟨⟨⟨⟨integerRows_decode, integerRowsMore_decode⟩, loadStoreRows_decode⟩, branchRows_decode⟩,
    systemRows_decode⟩, csrRows_decode⟩, mulDivRows_decode⟩

end

end Sys2Proof

/-! ### Every instruction has a row -/

namespace Sys2Proof.Laws.TableRow

theorem of_instr : ∀ i : Instr, Statement i
  | .lui .. => lui _ _ | .auipc .. => auipc _ _ | .addi .. => addi _ _ _ | .slti .. => slti _ _ _
  | .sltiu .. => sltiu _ _ _ | .xori .. => xori _ _ _ | .ori .. => ori _ _ _ | .andi .. => andi _ _ _
  | .slli .. => slli _ _ _ | .srli .. => srli _ _ _ | .srai .. => srai _ _ _ | .add .. => add _ _ _
  | .sub .. => sub _ _ _ | .sll .. => sll _ _ _ | .slt .. => slt _ _ _ | .sltu .. => sltu _ _ _ | .xor .. => xor _ _ _
  | .srl .. => srl _ _ _ | .sra .. => sra _ _ _ | .or .. => or _ _ _ | .and .. => and _ _ _ | .addiw .. => addiw _ _ _
  | .slliw .. => slliw _ _ _ | .srliw .. => srliw _ _ _ | .sraiw .. => sraiw _ _ _ | .addw .. => addw _ _ _
  | .subw .. => subw _ _ _ | .sllw .. => sllw _ _ _ | .srlw .. => srlw _ _ _ | .sraw .. => sraw _ _ _
  | .lb .. => lb _ _ _ | .lh .. => lh _ _ _ | .lw .. => lw _ _ _ | .lbu .. => lbu _ _ _ | .lhu .. => lhu _ _ _
  | .lwu .. => lwu _ _ _ | .ld .. => ld _ _ _ | .sb .. => sb _ _ _ | .sh .. => sh _ _ _ | .sw .. => sw _ _ _
  | .sd .. => sd _ _ _ | .beq .. => beq _ _ _ | .bne .. => bne _ _ _ | .blt .. => blt _ _ _ | .bge .. => bge _ _ _
  | .bltu .. => bltu _ _ _ | .bgeu .. => bgeu _ _ _ | .jal .. => jal _ _ | .jalr .. => jalr _ _ _
  | .fence .. => fence _ _ _ _ _ | .fenceI .. => fenceI _ _ _ | .ecall => ecall | .ebreak => ebreak | .mret => mret
  | .wfi => wfi | .halt => halt | .csrrw .. => csrrw _ _ _ | .csrrs .. => csrrs _ _ _ | .csrrc .. => csrrc _ _ _
  | .csrrwi .. => csrrwi _ _ _ | .csrrsi .. => csrrsi _ _ _ | .csrrci .. => csrrci _ _ _ | .mul .. => mul _ _ _
  | .mulh .. => mulh _ _ _ | .mulhsu .. => mulhsu _ _ _ | .mulhu .. => mulhu _ _ _ | .div .. => div _ _ _
  | .divu .. => divu _ _ _ | .rem .. => rem _ _ _ | .remu .. => remu _ _ _ | .mulw .. => mulw _ _ _
  | .divw .. => divw _ _ _ | .divuw .. => divuw _ _ _ | .remw .. => remw _ _ _ | .remuw .. => remuw _ _ _

end Sys2Proof.Laws.TableRow

namespace Sys2Proof

open Sys2Proof.Machine

/-- A word that decodes by the map matches a row the XLEN admits: that of its instruction. -/
theorem exists_row_of_decodeMap {x : Xlen} {w : BitVec 32} {i : Instr} (mapped : decodeMap x w = some i) :
    ∃ r ∈ opcodeTable, r.admits x = true ∧ r.matches w = true := by
  obtain ⟨hi, wf, e⟩ := Faithful.map (hw := 0) i mapped
  rcases Laws.TableRow.of_instr i x 0 wf with ⟨halts, -⟩ | ⟨r, mem, admitted, -, matched⟩
  · exact absurd halts hi
  · exact ⟨r, mem, admitted, e ▸ matched⟩

theorem decodeMap_of_no_row {x : Xlen} {w : BitVec 32}
    (unmatched : ∀ r ∈ opcodeTable, r.admits x = true → r.matches w = false) : decodeMap x w = none := by
  by_contra mapped
  obtain ⟨i, mapped⟩ := Option.ne_none_iff_exists'.mp mapped
  obtain ⟨r, mem, admitted, matched⟩ := exists_row_of_decodeMap mapped
  exact absurd matched (by simp [unmatched r mem admitted])

/-! ### Rows do not overlap -/

/-- The rows differ in a bit both fix. Said of numbers, which the kernel compares at once. -/
def OpcodeRow.apart (r q : OpcodeRow) : Bool := (r.pattern &&& q.mask).toNat != (q.pattern &&& r.mask).toNat

/-- No word matches two rows that are apart. -/
theorem OpcodeRow.apart_of_matches {r q : OpcodeRow} {w : BitVec 32} (hr : w &&& r.mask = r.pattern)
    (hq : w &&& q.mask = q.pattern) : r.apart q = false := by
  simp [apart, ← hr, ← hq, BitVec.and_assoc, BitVec.and_comm r.mask]

theorem opcodeTable_apart (x : Xlen) :
    (opcodeTable.filter (·.admits x)).Pairwise fun r q => r.apart q = true := by
  cases x <;> decide +kernel

theorem row_unique {x : Xlen} {w : BitVec 32} {r q : OpcodeRow} (hr : r ∈ opcodeTable) (hq : q ∈ opcodeTable)
    (ar : r.admits x = true) (aq : q.admits x = true) (mr : w &&& r.mask = r.pattern) (mq : w &&& q.mask = q.pattern) :
    r = q := by
  have : Std.Symm fun r q : OpcodeRow => r.apart q = true := ⟨fun r q apart => bne_comm.trans apart⟩
  by_contra ne
  have apart := (opcodeTable_apart x).forall (List.mem_filter.mpr ⟨hr, ar⟩) (List.mem_filter.mpr ⟨hq, aq⟩) ne
  exact absurd apart (by simp [OpcodeRow.apart_of_matches mr mq])

/-- Settles O4: a row that matches decodes (`opcodeTable_decode`), an instruction has a row
(`decodeMap_of_no_row`), and there is one row at most (`row_unique`). -/
theorem decodeFollowsOpcodeTable : Obligations.DecodeFollowsOpcodeTable := by
  intro x hw w
  simp only [OpcodeRow.matches_iff]
  refine ⟨fun e => decodeWord_eq_ok.mpr (.inl ⟨e, rfl⟩), fun hne r mem admitted matched => ?_,
    fun r hr q hq ar aq => row_unique hr hq ar aq,
    fun hne unmatched => decodeWord_of_map_none hne (decodeMap_of_no_row unmatched)⟩
  obtain ⟨i, mapped, name⟩ := opcodeTable_decode r mem admitted matched
  exact ⟨i, decodeWord_of_map hne mapped, name⟩

end Sys2Proof

/-! SUPPORT. What the decoder does with bytes, with words it has no instruction for, and with the words whose meaning
depends on XLEN (30_encoding.md R120, R150, R151, R158). -/

namespace Sys2Proof

open Sys2Proof.Machine

/-! ### Bytes -/

/-- Settles O5: the word of the four bytes has the stated value (`wordOfBytes_toNat`). -/
theorem bytesDecodeLittleEndian : Obligations.BytesDecodeLittleEndian := by
  intro x hw w b0 b1 b2 b3 rest
  refine ⟨fun value => ?_, fun short => ?_⟩
  · obtain rfl : w = wordOfBytes b0 b1 b2 b3 := BitVec.eq_of_toNat_eq (value.trans (wordOfBytes_toNat ..).symm)
    exact ⟨fun i decoded => by rw [decode, decoded], fun e refused => by rw [decode, refused]⟩
  · match rest, short with
    | [], _ | [_], _ | [_, _], _ | [_, _, _], _ => rfl

/-! ### Illegal words -/

/-- The major opcodes the map names (30_encoding.md R137). -/
def majorOpcodes : List (BitVec 7) :=
  [0x03#7, 0x0F#7, 0x13#7, 0x17#7, 0x1B#7, 0x23#7, 0x33#7, 0x37#7, 0x3B#7, 0x63#7, 0x67#7, 0x6F#7, 0x73#7]

theorem decodeMap_of_unknown_opcode {w : BitVec 32} (x : Xlen) (unknown : opcodeOf w ∉ majorOpcodes) :
    decodeMap x w = none := by
  simp only [majorOpcodes, List.mem_cons, List.not_mem_nil, or_false, not_or] at unknown
  simp [decodeMap, unknown]

/-- Every major opcode ends in 0b11 (30_encoding.md R151). -/
theorem low_bits_of_majorOpcode {w : BitVec 32} (known : opcodeOf w ∈ majorOpcodes) : w.extractLsb' 0 2 = 0b11#2 := by
  have low : w.extractLsb' 0 2 = (opcodeOf w).extractLsb' 0 2 := by
    ext i hi
    simp [opcodeOf]
  have endings : ∀ o ∈ majorOpcodes, o.extractLsb' 0 2 = 0b11#2 := by decide
  rw [low, endings _ known]

/-- Settles O6: the map has no instruction for the word, so a step that fetches it raises the exception. -/
theorem illegalWordsTrap : Obligations.IllegalWordsTrap := by
  intro x h h' w hne undefined
  have unmapped : decodeMap x w = none := by
    rcases undefined with no_row | unknown | low
    · exact decodeMap_of_no_row no_row
    · exact decodeMap_of_unknown_opcode x unknown
    · exact decodeMap_of_unknown_opcode x fun known => low (low_bits_of_majorOpcode known)
  have illegal := decodeWord_of_map_none hne unmapped
  exact ⟨illegal, fun running fetched => step_of_decode_error running fetched illegal⟩

/-! ### Words whose meaning depends on XLEN -/

@[simp] theorem only64_rv32 (i : Instr) : only64 .rv32 i = none := rfl

/-- On XLEN 32 OP-IMM-32 and OP-32 have no instruction, LOAD has neither LD nor LWU, STORE has no SD
(30_encoding.md R138, R142, R143, R145). -/
theorem decodeMap_rv32_of_rv64_word {w : BitVec 32}
    (gated : opcodeOf w = 0x1B#7 ∨ opcodeOf w = 0x3B#7 ∨
      (opcodeOf w = 0x03#7 ∧ (funct3Of w = 0b011#3 ∨ funct3Of w = 0b110#3)) ∨
      (opcodeOf w = 0x23#7 ∧ funct3Of w = 0b011#3)) : decodeMap .rv32 w = none := by
  rcases gated with ho | ho | ⟨ho, h3 | h3⟩ | ⟨ho, h3⟩
  · simp [decodeMap, ho, decodeOpImm32]
  · simp [decodeMap, ho, decodeOp32]
  · simp [decodeMap, ho, decodeLoad, h3]
  · simp [decodeMap, ho, decodeLoad, h3]
  · simp [decodeMap, ho, decodeStore, h3]

/-- Every 6-bit amount is below 64 (30_encoding.md R135). -/
theorem decodeShift_rv64 (w : BitVec 32) (upper : BitVec 6) (i : Instr) :
    decodeShift .rv64 w upper i = if funct6Of w = upper then some i else none := by
  simp [decodeShift, (shamtOf w).isLt]

theorem decodeShift_rv32_of_bit25 {w : BitVec 32} (bit25 : w.getLsbD 25 = true) (upper : BitVec 6) (i : Instr) :
    decodeShift .rv32 w upper i = none := by
  have large : ¬ (shamtOf w).toNat < 32 := by simp [shamtOf_lt_iff, bit25]
  simp [decodeShift, large]

/-- Settles O7, clause by clause: the opcode and funct3 select the arm of the decoder, and XLEN decides there. -/
theorem xlenGatedEncodings : Obligations.XlenGatedEncodings := by
  intro hw w hne
  refine ⟨fun gated => decodeWord_of_map_none hne (decodeMap_rv32_of_rv64_word gated),
    fun ho h3 => decodeWord_of_map hne ?_, fun ho h3 => decodeWord_of_map hne ?_,
    fun ho h3 => decodeWord_of_map hne ?_, fun ho shifts bit25 => ?_⟩
  · simp [decodeMap, ho, decodeLoad, h3, only64]
  · simp [decodeMap, ho, decodeLoad, h3, only64]
  · simp [decodeMap, ho, decodeStore, h3, only64]
  · have large : 32 ≤ (shamtOf w).toNat := by
      rw [← not_lt, shamtOf_lt_iff, bit25]
      decide
    refine ⟨decodeWord_of_map_none hne ?_, fun h3 h6 => ⟨decodeWord_of_map hne ?_, large⟩,
      fun h3 h6 => ⟨decodeWord_of_map hne ?_, large⟩, fun h3 h6 => ⟨decodeWord_of_map hne ?_, large⟩⟩
    · rcases shifts with h3 | h3 <;> simp [decodeMap, ho, decodeOpImm, h3, decodeShift_rv32_of_bit25 bit25]
    · simp [decodeMap, ho, decodeOpImm, h3, decodeShift_rv64, h6]
    · simp [decodeMap, ho, decodeOpImm, h3, decodeShift_rv64, h6]
    · simp [decodeMap, ho, decodeOpImm, h3, decodeShift_rv64, h6]

/-- Settles O1, by evaluation of the decoder on each word. -/
theorem specWordsDecode : Obligations.SpecWordsDecode := by
  unfold Obligations.SpecWordsDecode
  decide

end Sys2Proof

/-! SUPPORT. Integer arithmetic: the numbers that the immediates, sums, comparisons and shifts stand for, at XLEN and
in the low 32 bits (40_integer_arithmetic.md). -/

namespace Sys2Proof.Machine

variable {x : Xlen}

/-! ### Immediates and sums -/

/-- The word of an integer, read as unsigned. -/
theorem ofInt_toNat_cast (n : Nat) (d : Int) : ((BitVec.ofInt n d).toNat : Int) = d % 2 ^ n := by
  rw [BitVec.toNat_ofInt, Int.toNat_of_nonneg (Int.emod_nonneg _ (by positivity))]
  norm_cast

/-- Subtracting words subtracts the integers they stand for. -/
theorem ofInt_toNat_sub {n : Nat} (v w : BitVec n) : BitVec.ofInt n (v.toNat - w.toNat) = v - w := by
  rw [sub_eq_add_neg, ofInt_toNat_add, BitVec.ofInt_neg, BitVec.ofInt_natCast, BitVec.ofNat_toNat,
    BitVec.setWidth_eq, ← BitVec.sub_eq_add_neg]

/-- An I immediate is the word of its signed value, at the width of XLEN. -/
theorem imm12_eq (imm : BitVec 12) : imm12 x imm = BitVec.ofInt x.bits imm.toInt := signExtend_eq_ofInt imm

/-- An I immediate keeps its signed value (30_encoding.md R130). -/
theorem imm12_toInt (imm : BitVec 12) : (imm12 x imm).toInt = imm.toInt :=
  BitVec.toInt_signExtend_of_le (by cases x <;> decide)

/-- An I immediate read as unsigned (R165). -/
theorem imm12_toNat (imm : BitVec 12) : ((imm12 x imm).toNat : Int) = imm.toInt % 2 ^ x.bits := by
  rw [imm12_eq, ofInt_toNat_cast]

/-- An upper immediate is its signed value times 4096, on both XLENs (R161). -/
theorem immU_toInt (up : BitVec 20) : (immU x up).toInt = 4096 * up.toInt :=
  (BitVec.toInt_signExtend_of_le (by cases x <;> decide)).trans (toInt_append_zeros up 12)

/-- Settles O49: each instruction writes one word, which is the word of the exact result. -/
theorem upperImmediatesAndSums : Obligations.UpperImmediatesAndSums := by
  intro x h rd rs1 rs2 up imm
  refine ⟨computes_of rfl (immU_toInt up), computes_of rfl ?auipc, computes_of rfl ?addi,
    computes_of rfl (BitVec.toNat_add _ _), computes_of rfl ?sub⟩
  case auipc => rw [Hart.pcPlus, ofInt_toNat_add, immU_eq]
  case addi => rw [imm12_eq, ← ofInt_toNat_add, ofInt_toNat_cast]
  case sub => rw [← ofInt_toNat_sub, ofInt_toNat_cast]

/-! ### Comparisons -/

theorem ltSigned_iff {n : Nat} (a b : BitVec n) : ltSigned a b = true ↔ a.toInt < b.toInt := decide_eq_true_iff

theorem ltUnsigned_iff {n : Nat} (a b : BitVec n) : ltUnsigned a b = true ↔ a.toNat < b.toNat := decide_eq_true_iff

/-- The word of a comparison is 1 if it holds, else 0 (R164). -/
theorem boolWord_of_iff {b : Bool} {c : Prop} (hb : b = true ↔ c) :
    (c → (boolWord x b).toNat = 1) ∧ (¬ c → (boolWord x b).toNat = 0) := by
  rw [boolWord_toNat, ← hb]
  exact ⟨fun yes => if_pos yes, fun no => if_neg no⟩

/-- Settles O50: the word each instruction writes is that of a signed or unsigned comparison. -/
theorem comparisonsSet : Obligations.ComparisonsSet := by
  intro x h rd rs1 rs2 imm
  refine ⟨computes_of rfl (boolWord_of_iff ?slti), computes_of rfl (boolWord_of_iff ?sltiu),
    computes_of rfl (boolWord_of_iff (ltSigned_iff _ _)), computes_of rfl (boolWord_of_iff (ltUnsigned_iff _ _))⟩
  case slti => rw [ltSigned_iff, imm12_toInt]
  case sltiu => rw [ltUnsigned_iff, ← imm12_toNat, Nat.cast_lt]

/-! ### Bitwise logic -/

/-- Settles O51: a bit of the result is that of the operands, and a bit of the immediate is that of its 12-bit field. -/
theorem bitwiseLogic : Obligations.BitwiseLogic := by
  intro x h rd rs1 rs2 imm
  refine ⟨computes_of rfl fun k hk => ?xori, computes_of rfl fun k hk => ?ori, computes_of rfl fun k hk => ?andi,
    computes_of rfl fun _ _ => BitVec.getLsbD_xor, computes_of rfl fun _ _ => BitVec.getLsbD_or,
    computes_of rfl fun _ _ => BitVec.getLsbD_and⟩
  case xori => rw [BitVec.getLsbD_xor, imm12_getLsbD imm k hk]
  case ori => rw [BitVec.getLsbD_or, imm12_getLsbD imm k hk]
  case andi => rw [BitVec.getLsbD_and, imm12_getLsbD imm k hk]

/-! ### Shifts -/

/-- A shift whose amount is below XLEN is no illegal instruction (30_encoding.md R135). -/
theorem ifShamt_of_lt {i : Instr} {h h1 : Hart x} {shamt : BitVec 6} (lt : shamt.toNat < x.bits) :
    State.ifShamt ⟨x, h⟩ i shamt h1 = .next ⟨x, h1⟩ := if_pos lt

/-- A left shift multiplies by a power of 2, modulo 2^n. -/
theorem toNat_shiftLeft_eq_mul {n : Nat} (v : BitVec n) (k : Nat) : (v <<< k).toNat = v.toNat * 2 ^ k % 2 ^ n := by
  rw [BitVec.toNat_shiftLeft, Nat.shiftLeft_eq]

/-- A logical right shift divides the unsigned value, rounding down. -/
theorem toNat_ushiftRight_eq_div {n : Nat} (v : BitVec n) (k : Nat) : (v >>> k).toNat = v.toNat / 2 ^ k := by
  rw [BitVec.toNat_ushiftRight, Nat.shiftRight_eq_div_pow]

/-- Settles O52: one lemma for each kind of shift and any amount; a register amount is that modulo XLEN. -/
theorem shifts : Obligations.Shifts := by
  intro x h rd rs1 rs2 shamt
  refine ⟨fun lt => ⟨computes_of (ifShamt_of_lt lt) (toNat_shiftLeft_eq_mul _ _),
      computes_of (ifShamt_of_lt lt) (toNat_ushiftRight_eq_div _ _),
      computes_of (ifShamt_of_lt lt) (toInt_sshiftRight_eq_div _ _)⟩,
    computes_of rfl ?sll, computes_of rfl ?srl, computes_of rfl ?sra⟩
  case sll => rw [shiftAmount_eq, toNat_shiftLeft_eq_mul]
  case srl => rw [shiftAmount_eq, toNat_ushiftRight_eq_div]
  case sra => rw [shiftAmount_eq, toInt_sshiftRight_eq_div]

/-! ### W forms: 32-bit results from the low 32 bits (R194) -/

/-- An instruction that writes the sign extension of a 32-bit result computes that result's signed value. -/
theorem computes_sext32 {i : Instr} {h : Hart .rv64} {rd : Reg} {w : BitVec 32} {n : Int}
    (e : exec i ⟨.rv64, h⟩ = .next ⟨.rv64, h.retire rd (sext32 .rv64 w)⟩) (value : w.toInt = n.bmod (2 ^ 32)) :
    Computes i h rd (fun v => v.toInt = n.bmod (2 ^ 32)) :=
  computes_of e ((sext32_toInt w).trans value)

/-- The low half of a sum is that of the operands' low halves. -/
theorem low32_add (v w : XWord .rv64) : low32 (v + w) = low32 v + low32 w := BitVec.setWidth_add v w (by decide)

/-- The low half of a difference is that of the operands' low halves. -/
theorem low32_sub (v w : XWord .rv64) : low32 (v - w) = low32 v - low32 w := by
  rw [BitVec.sub_eq_add_neg, low32_add, low32, low32, BitVec.setWidth_neg_of_le (by decide), ← BitVec.sub_eq_add_neg,
    ← low32, ← low32]

/-- The low half of a register plus an immediate, as a number (R182). -/
theorem low32_add_imm12_toInt (v : XWord .rv64) (imm : BitVec 12) :
    (low32 (v + imm12 .rv64 imm)).toInt = ((v.toNat % 2 ^ 32 : Nat) + imm.toInt).bmod (2 ^ 32) := by
  rw [imm12_eq, low32_add, low32_ofInt, ← ofInt_toNat_add, BitVec.toInt_ofInt, low32_toNat]

/-- The low half of a sum, as a number (R186). -/
theorem low32_add_toInt (v w : XWord .rv64) :
    (low32 (v + w)).toInt = ((v.toNat % 2 ^ 32 + w.toNat % 2 ^ 32 : Nat) : Int).bmod (2 ^ 32) := by
  rw [low32_add, BitVec.toInt_add, low32_toInt, low32_toInt, Int.bmod_add_bmod, Int.add_bmod_bmod, Nat.cast_add]

/-- The low half of a difference, as a number (R187). -/
theorem low32_sub_toInt (v w : XWord .rv64) :
    (low32 (v - w)).toInt = ((v.toNat % 2 ^ 32 : Nat) - (w.toNat % 2 ^ 32 : Nat) : Int).bmod (2 ^ 32) := by
  rw [low32_sub, ← ofInt_toNat_sub, BitVec.toInt_ofInt, low32_toNat, low32_toNat]

/-- The low half shifted left (R183, R188). -/
theorem low32_shiftLeft_toInt (v : XWord .rv64) (k : Nat) :
    (low32 v <<< k).toInt = ((v.toNat % 2 ^ 32 * 2 ^ k : Nat) : Int).bmod (2 ^ 32) := by
  rw [BitVec.toInt_shiftLeft, Nat.shiftLeft_eq, low32_toNat]

/-- The low half shifted right, unsigned (R184, R189). -/
theorem low32_ushiftRight_toInt (v : XWord .rv64) (k : Nat) :
    (low32 v >>> k).toInt = ((v.toNat % 2 ^ 32 / 2 ^ k : Nat) : Int).bmod (2 ^ 32) := by
  rw [BitVec.toInt_eq_toNat_bmod, toNat_ushiftRight_eq_div, low32_toNat]

/-- The low half shifted right, signed (R185, R190): the quotient is in range, so reducing it changes nothing. -/
theorem low32_sshiftRight_toInt (v : XWord .rv64) (k : Nat) :
    ((low32 v).sshiftRight k).toInt = (Int.bmod (v.toNat % 2 ^ 32 : Nat) (2 ^ 32) / 2 ^ k).bmod (2 ^ 32) := by
  rw [← low32_toInt, ← toInt_sshiftRight_eq_div, BitVec.toInt_bmod_cancel]

/-- Settles O53: each W form writes the sign extension of a 32-bit result, whose value is that of the low halves. -/
theorem wordForms : Obligations.WordForms := by
  intro h rd rs1 rs2 imm shamt
  dsimp only
  rw [← shiftAmountW_eq]
  exact ⟨computes_sext32 rfl (low32_add_imm12_toInt _ _), computes_sext32 rfl (low32_shiftLeft_toInt _ _),
    computes_sext32 rfl (low32_ushiftRight_toInt _ _), computes_sext32 rfl (low32_sshiftRight_toInt _ _),
    computes_sext32 rfl (low32_add_toInt _ _), computes_sext32 rfl (low32_sub_toInt _ _),
    computes_sext32 rfl (low32_shiftLeft_toInt _ _), computes_sext32 rfl (low32_ushiftRight_toInt _ _),
    computes_sext32 rfl (low32_sshiftRight_toInt _ _)⟩

end Sys2Proof.Machine

/-! SUPPORT. Loads and stores whose access reaches storage only: what they leave (20_memory.md R92 to R94,
41_load_store.md R220 to R233). -/

namespace Sys2Proof.Machine

variable {x : Xlen}

/-- A computed result may be described by anything that follows from it. -/
theorem Computes.imp {i : Instr} {h : Hart x} {rd : Reg} {P Q : XWord x → Prop} (c : Computes i h rd P)
    (pq : ∀ v, P v → Q v) : Computes i h rd Q := by
  obtain ⟨h1, e, retires⟩ := c
  exact ⟨h1, e, { retires with result := fun hrd => pq _ (retires.result hrd) }⟩

/-- Every load from storage computes the bytes of its access, extended as its instruction says (R221 to R227). -/
theorem computes_load {i : Instr} {h : Hart x} {rd rs1 : Reg} {imm : BitVec 12} {w : Width}
    (form : i.loadForm = some (rd, rs1, imm, w)) (wf : i.wellFormed x = true)
    (access : h.StorageAccess .read (h.eaOf rs1 imm) w) :
    Computes i h rd (LoadedAs i (BitVec.ofNat w.bits (h.accessValue (h.eaOf rs1 imm) w))) := by
  obtain ⟨f, loaded, e⟩ := exec_load_as h form wf
  rw [Hart.load_storage access] at e
  exact computes_of e (loaded _)

/-- A zero-extending load computes the number its bytes stand for, unsigned (R224 to R226). -/
theorem computes_load_unsigned {i : Instr} {h : Hart x} {rd rs1 : Reg} {imm : BitVec 12} {w : Width}
    (form : i.loadForm = some (rd, rs1, imm, w)) (wf : i.wellFormed x = true) (unsigned : Instr.zeroExtends i = true)
    (access : h.StorageAccess .read (h.eaOf rs1 imm) w) :
    Computes i h rd (fun v => v.toNat = h.accessValue (h.eaOf rs1 imm) w) := by
  refine (computes_load form wf access).imp fun v loaded => ?_
  rw [LoadedAs, if_pos unsigned] at loaded
  rw [loaded, BitVec.toNat_ofNat, Nat.mod_eq_of_lt (Hart.accessValue_lt h _ w)]

/-- Every other load computes the number its bytes stand for, signed (R221 to R223, R227). -/
theorem computes_load_signed {i : Instr} {h : Hart x} {rd rs1 : Reg} {imm : BitVec 12} {w : Width}
    (form : i.loadForm = some (rd, rs1, imm, w)) (wf : i.wellFormed x = true) (signed : Instr.zeroExtends i = false)
    (access : h.StorageAccess .read (h.eaOf rs1 imm) w) :
    Computes i h rd (fun v => v.toInt = Int.bmod (h.accessValue (h.eaOf rs1 imm) w) (2 ^ w.bits)) := by
  refine (computes_load form wf access).imp fun v loaded => ?_
  rw [LoadedAs, if_neg (Bool.eq_false_iff.mp signed)] at loaded
  rw [loaded, BitVec.toInt_ofNat']

/-- A word whose signed value is that of a number in range is that number. -/
theorem toNat_of_toInt_bmod {n m : Nat} {v : BitVec n} (e : v.toInt = Int.bmod m (2 ^ n)) (lt : m < 2 ^ n) :
    v.toNat = m := by
  obtain rfl : v = BitVec.ofNat n m := BitVec.eq_of_toInt_eq (by rw [e, BitVec.toInt_ofNat'])
  exact (BitVec.toNat_ofNat m n).trans (Nat.mod_eq_of_lt lt)

/-- Settles O38, by `computes_load_signed` and `computes_load_unsigned`; LD fills its register, so either reading of its
bytes fixes the other. -/
theorem loadsComplete : Obligations.LoadsComplete := by
  intro x h rd rs1 imm
  refine ⟨fun access => ⟨computes_load_signed rfl rfl rfl access, computes_load_unsigned rfl rfl rfl access⟩,
    fun access => ⟨computes_load_signed rfl rfl rfl access, computes_load_unsigned rfl rfl rfl access⟩,
    fun access => ⟨computes_load_signed rfl rfl rfl access, ?lwu⟩, ?ld⟩
  case lwu =>
    rintro rfl
    exact computes_load_unsigned rfl rfl rfl access
  case ld =>
    rintro access rfl
    exact (computes_load_signed rfl rfl rfl access).imp fun v signed => toNat_of_toInt_bmod signed
      (Hart.accessValue_lt h _ .double)

/-- Settles O40, by `Hart.stored_store`. -/
theorem storesComplete : Obligations.StoresComplete := by
  intro x h i rs2 rs1 imm w form wf access
  exact ⟨_, exec_store h form wf, Hart.stored_store access⟩

end Sys2Proof.Machine

/-! SUPPORT. Branches and jumps: where they go, as numbers (42_branch_jump.md R250 to R259). -/

namespace Sys2Proof.Machine

variable {x : Xlen}

/-! ### Branches -/

/-- A branch target is the pc plus twice the signed offset field (R250). -/
theorem pcPlus_immB (h : Hart x) (off : BitVec 12) : h.pcPlus (2 * off.toInt) = h.pc + immB x off := by
  rw [Hart.pcPlus, ofInt_toNat_add, immB_eq]

/-- An instruction that branches on `b` goes to the target if the condition `b` decides holds, else to `pc + 4` (R250). -/
theorem advances_of_branch {i : Instr} {h : Hart x} {off : BitVec 12} {b : Bool} {taken : Prop}
    (e : exec i ⟨x, h⟩ = .next ⟨x, h.branch b off⟩) (decides : b = true ↔ taken) :
    (taken → Advances i h (h.pcPlus (2 * off.toInt))) ∧ (¬ taken → Advances i h (h.pcPlus 4)) := by
  have goes : Advances i h (if b then h.pc + immB x off else h.pc + 4) := advances_of e
  rw [pcPlus_immB, pcPlus_four, ← decides]
  exact ⟨fun yes => by rwa [if_pos yes] at goes, fun no => by rwa [if_neg no] at goes⟩

/-- A branch on the negated signed comparison is taken if the order is the other way round (R254). -/
theorem not_ltSigned_iff {n : Nat} (a b : BitVec n) : (!ltSigned a b) = true ↔ b.toInt ≤ a.toInt := by
  rw [Bool.not_eq_true', ← Bool.not_eq_true, ltSigned_iff, not_lt]

/-- A branch on the negated unsigned comparison is taken if the order is the other way round (R256). -/
theorem not_ltUnsigned_iff {n : Nat} (a b : BitVec n) : (!ltUnsigned a b) = true ↔ b.toNat ≤ a.toNat := by
  rw [Bool.not_eq_true', ← Bool.not_eq_true, ltUnsigned_iff, not_lt]

/-- Settles O47: each of the six is a branch on a Bool that decides its condition. -/
theorem branchesDecide : Obligations.BranchesDecide := by
  intro x h rs1 rs2 off
  exact ⟨advances_of_branch rfl decide_eq_true_iff, advances_of_branch rfl decide_eq_true_iff,
    advances_of_branch rfl (ltSigned_iff _ _), advances_of_branch rfl (not_ltSigned_iff _ _),
    advances_of_branch rfl (ltUnsigned_iff _ _), advances_of_branch rfl (not_ltUnsigned_iff _ _)⟩

/-! ### Jumps -/

/-- JAL's target is the pc plus twice the signed offset field (R257). -/
theorem pcPlus_immJ (h : Hart x) (off : BitVec 20) : h.pcPlus (2 * off.toInt) = h.pc + immJ x off := by
  rw [Hart.pcPlus, ofInt_toNat_add, immJ_eq]

/-- JALR's target is the source plus the immediate, modulo 2^XLEN, rounded down to an even number (R258). -/
theorem jalrTarget_toNat (v : XWord x) (imm : BitVec 12) :
    ((clearBit0 (v + imm12 x imm)).toNat : Int) = (v.toNat + imm.toInt) % 2 ^ x.bits / 2 * 2 := by
  rw [clearBit0_toNat, imm12_eq, ← ofInt_toNat_add, ← ofInt_toNat_cast]
  norm_cast

/-- An instruction that jumps links `pc + 4` and goes to the target (R257, R258). -/
theorem completes_of_jump {i : Instr} {h : Hart x} {rd : Reg} {t : XWord x}
    (e : exec i ⟨x, h⟩ = .next ⟨x, h.jump rd t⟩) : Completes i h rd t (fun v => v = h.pcPlus 4) :=
  completes_of e (pcPlus_four h).symm

/-- Settles O48: JAL and JALR are jumps, and their targets are the numbers of `pcPlus_immJ` and `jalrTarget_toNat`. -/
theorem jumpsLink : Obligations.JumpsLink := by
  intro x h rd rs1 off imm
  rw [pcPlus_immJ]
  exact ⟨completes_of_jump rfl, _, jalrTarget_toNat _ _, completes_of_jump rfl⟩

end Sys2Proof.Machine

/-! SUPPORT. The system instructions: the words they are exactly, MRET in each mode, HALT and the halted core
(43_system_fence.md R270 to R276). -/

namespace Sys2Proof.Machine

variable {x : Xlen}

/-! ### Words -/

/-- A word other than HALT_WORD decodes to the instruction whose word it is (30_encoding.md R149, R159). -/
theorem decodeWord_of_encode_eq {i : Instr} {hw w : BitVec 32} (hi : i ≠ .halt) (wf : i.wellFormed x = true)
    (hne : w ≠ hw) (word : encode hw i = w) : decodeWord x hw w = .ok i :=
  decodeWord_of_map hne (word ▸ decodeMap_encode hw hi wf)

/-- An instruction other than HALT that exists for the XLEN is decoded from its own word only, and from that unless it
is HALT_WORD. -/
theorem decodeWord_eq_ok_iff_encode {i : Instr} (hi : i ≠ .halt) (wf : i.wellFormed x = true) (hw w : BitVec 32) :
    decodeWord x hw w = .ok i ↔ w ≠ hw ∧ w = encode hw i := by
  constructor
  · intro decoded
    rcases decodeWord_eq_ok.mp decoded with ⟨_, isHalt⟩ | ⟨hne, mapped⟩
    · exact absurd isHalt hi
    · obtain ⟨_, _, word⟩ := Faithful.map i mapped
      exact ⟨hne, word.symm⟩
  · rintro ⟨hne, word⟩
    exact decodeWord_of_encode_eq hi wf hne word.symm

/-! ### Calls and breakpoints -/

/-- ECALL raises the environment call of the mode (R272). -/
theorem takesTrap_ecall (h : Hart x) : TakesTrap .ecall h (envCall x h.priv).code (envCall x h.priv).value :=
  takesTrap_of _ rfl

/-- Settles O27, by the exceptions the two instructions raise and `decodeWord_eq_ok_iff_encode`. -/
theorem callsAndBreakpointsTrap : Obligations.CallsAndBreakpointsTrap := by
  intro x h
  have call := takesTrap_ecall h
  refine ⟨fun user => ?_, fun supervisor => ?_, fun machine => ?_, takesTrap_of (.breakpoint h.pc) rfl,
    decodeWord_eq_ok_iff_encode nofun rfl, decodeWord_eq_ok_iff_encode nofun rfl⟩
  · rwa [user] at call
  · rwa [supervisor] at call
  · rwa [machine] at call

/-! ### MRET -/

/-- In M mode MRET is the return, which retires (R274). -/
theorem exec_mret_of_machine {h : Hart x} (mode : h.priv = .machine) :
    exec .mret ⟨x, h⟩ = .next ⟨x, h.trapReturn.commit h.mepc⟩ := if_pos mode

/-- In S and U mode MRET is an illegal instruction (R274). -/
theorem exec_mret_of_lower {h : Hart x} (mode : h.priv ≠ .machine) :
    exec .mret ⟨x, h⟩ = .next ⟨x, h.illegal .mret⟩ := if_neg mode

/-- Settles O28: both cases of the mode, and `decodeWord_eq_ok_iff_encode`. -/
theorem mretReturnsOrTraps : Obligations.MretReturnsOrTraps := by
  intro x h
  refine ⟨fun machine => ?_, fun lower => ?_, decodeWord_eq_ok_iff_encode nofun rfl⟩
  · exact ⟨_, exec_mret_of_machine machine, rfl, rfl, rfl, rfl, rfl, rfl, rfl, fun _ => rfl, fun _ => rfl, rfl⟩
  · have trap := takesTrap_of (.illegalInstruction (h.wordOf .mret)) (exec_mret_of_lower lower)
    have value : (mretWord.setWidth x.bits : XWord x) = BitVec.ofNat x.bits 0x30200073 := by cases x <;> rfl
    rwa [← value]

/-! ### Fences and WFI -/

/-- Settles O29: the three instructions are `Hart.advance`, and a word with the opcode and funct3 of a fence is the word
of that fence with the fields it has. -/
theorem fencesAndWfiOnlyAdvance : Obligations.FencesAndWfiOnlyAdvance := by
  intro x h
  exact ⟨fun _ _ _ _ _ => advances_of rfl, fun _ _ _ => advances_of rfl, advances_of rfl,
    fun _ w hne opcode funct3 => decodeWord_of_encode_eq nofun rfl hne (encodeFence_fields w opcode funct3),
    fun _ _ hne opcode funct3 => decodeWord_of_encode_eq nofun rfl hne (encodeI_of_fields opcode funct3),
    decodeWord_eq_ok_iff_encode nofun rfl⟩

/-! ### HALT and the halted core -/

/-- A step of a halted core does nothing (70_reset_and_hazards.md R435). -/
theorem step_of_halted {h : Hart x} (halted : h.halted = true) : step ⟨x, h⟩ = .next ⟨x, h⟩ := if_pos halted

/-- HALT_WORD decodes to HALT, whatever else its bits would be (30_encoding.md R159). -/
theorem decodeWord_haltWord (hw : BitVec 32) : decodeWord x hw hw = .ok .halt := decodeWord_eq_ok.mpr (.inl ⟨rfl, rfl⟩)

/-- A step that fetches HALT_WORD sets `halted` and has no instruction boundary: nothing is counted, no interrupt is
taken (R276). -/
theorem step_of_haltWord {h h' : Hart x} (running : h.halted = false) (fetch : h.fetch = (.ok h.params.haltWord, h')) :
    step ⟨x, h⟩ = .next ⟨x, { h' with halted := true }⟩ :=
  step_of_exec running fetch (decodeWord_haltWord _) rfl

/-- `step(n)` of a core whose next step halts it stops after that step (R276, 70_reset_and_hazards.md R431). -/
theorem stepN_of_step_halts {s t : State} (running : s.hart.halted = false) (e : step s = .next t)
    (halted : t.hart.halted = true) (n : Nat) : stepN (n + 1) s = (t, .explicitHaltInstruction) := by
  obtain ⟨u, eu, unfolded⟩ := stepN_succ_eq n s
  obtain rfl : u = t := by simpa using eu.symm.trans e
  rw [unfolded, if_neg (Bool.eq_false_iff.mp running), stepN_halted halted]

/-- Settles O30, by the step that fetches HALT_WORD and the step of a halted core. -/
theorem haltStopsCore : Obligations.HaltStopsCore := by
  intro x h
  refine ⟨rfl, decodeWord_haltWord, fun h' running fetch => ?_, rfl, fun halted => ?_⟩
  · have e := step_of_haltWord running fetch
    have same : h.SameButDevices h.fetch.2 := Hart.fetch_same h
    rw [fetch] at same
    exact ⟨e, same, stepN_of_step_halts running e rfl⟩
  · exact ⟨step_of_halted halted, stepN_halted halted⟩

end Sys2Proof.Machine

/-! SUPPORT. The CSR instructions: the access that fails its checks, the one that passes them, and a write read back
through the CSR's mask (44_csr.md R300 to R311). -/

namespace Sys2Proof.Machine

variable {x : Xlen}

/-! ### The checks -/

/-- A CSR instruction is no HALT, and exists for both XLENs (30_encoding.md R148). -/
theorem csrForm_wellFormed {i : Instr} {f : Reg × BitVec 12 × Bool} (form : i.csrForm = some f) :
    i ≠ .halt ∧ i.wellFormed x = true := by
  cases i <;> simp only [Instr.csrForm, reduceCtorEq] at form
  case csrrw | csrrs | csrrc | csrrwi | csrrsi | csrrci => exact ⟨nofun, rfl⟩

/-- A CSR instruction whose access fails a check is an illegal instruction. -/
theorem exec_csr_of_not_permitted {i : Instr} {rd : Reg} {a : BitVec 12} {writes : Bool} {h : Hart x}
    (form : i.csrForm = some (rd, a, writes)) (refused : ¬ CsrPermitted x h.priv a writes) :
    exec i ⟨x, h⟩ = .next ⟨x, h.illegal i⟩ := by
  obtain ⟨f, e, _⟩ := exec_csr h form
  rcases h.csrInstr_cases i rd a writes f with ⟨_, illegal⟩ | ⟨_, _, permitted, _⟩
  · rw [e, illegal]
  · exact absurd permitted refused

/-- Settles O31, by `exec_csr_of_not_permitted`; the word of a CSR instruction decodes whatever CSR it names. -/
theorem csrIllegalAccessTraps : Obligations.CsrIllegalAccessTraps := by
  intro x h i rd a writes form refused
  obtain ⟨notHalt, wf⟩ := csrForm_wellFormed (x := x) form
  exact ⟨takesTrap_of (.illegalInstruction (h.wordOf i)) (exec_csr_of_not_permitted form refused),
    fun hne => decodeWord_of_encode_eq notHalt wf hne rfl⟩

/-! ### Read, modify, write -/

/-- Settles O32: past its checks every CSR instruction is `Hart.CsrDone`, with the value its encoding presents. -/
theorem csrInstructionsReadModifyWrite : Obligations.CsrInstructionsReadModifyWrite := by
  intro x h i rd a writes form permitted
  obtain ⟨f, e, operand⟩ := exec_csr h form
  rcases h.csrInstr_cases i rd a writes f with ⟨refused, _⟩ | ⟨c, named, _, done⟩
  · exact absurd permitted refused
  · refine ⟨c, _, named, e, ?_⟩
    cases writes with
    | false => exact done
    | true => rwa [operand rfl] at done

/-! ### A write read back -/

/-- M mode may access every CSR the address names, and write it unless the address is read-only (R300). -/
theorem csrPermitted_machine {a : BitVec 12} {c : Csr} {writes : Bool} (named : csrAt x a = some c)
    (writable : a.extractLsb' 10 2 ≠ 0b11#2) : CsrPermitted x .machine a writes :=
  ⟨(csrAt_isSome x a).mp (by rw [named]; rfl), Nat.le_of_lt_succ (a.extractLsb' 8 2).isLt,
    fun readOnly => writable readOnly.2⟩

/-- `csrrw x0, csr, rs`, then `csrrs rd, csr, x0`, both in M mode: `rd` gets what the CSR's write rule makes of `rs`. -/
theorem csrrw_csrrs_reg {h : Hart x} {a : BitVec 12} {c : Csr} {rd rs : Reg} (mode : h.priv = .machine) (hrd : rd ≠ 0)
    (named : csrAt x a = some c) (writable : a.extractLsb' 10 2 ≠ 0b11#2) :
    ∃ h1 h2 : Hart x, exec (.csrrw 0 a rs) ⟨x, h⟩ = .next ⟨x, h1⟩ ∧ exec (.csrrs rd a 0) ⟨x, h1⟩ = .next ⟨x, h2⟩ ∧
      h2.reg rd = csrWritten c (h.csrValue c) (h.reg rs) := by
  obtain ⟨c1, h1, named1, write, done1⟩ := csrInstructionsReadModifyWrite x h (.csrrw 0 a rs) 0 a true rfl
    (mode ▸ csrPermitted_machine named writable)
  obtain ⟨c2, h2, named2, read, done2⟩ := csrInstructionsReadModifyWrite x h1 (.csrrs rd a 0) rd a false rfl
    (done1.priv.trans mode ▸ csrPermitted_machine named writable)
  obtain rfl : c = c1 := Option.some.inj (named.symm.trans named1)
  obtain rfl : c = c2 := Option.some.inj (named.symm.trans named2)
  exact ⟨h1, h2, write, read, (done2.result hrd).trans (done1.written _ rfl)⟩

/-- A write through a mask outside of which the CSR reads zeros. -/
theorem and_eq_masked {n : Nat} {m v old : BitVec n} (clear : old &&& ~~~m = 0#n) :
    v &&& m = v &&& m ||| old &&& ~~~m := by
  rw [clear, BitVec.or_zero]

/-- `mie` reads zeros outside its three bits (10_state.md R42). -/
theorem IrqBits.read_and_not_mask (b : IrqBits) : b.read x.bits &&& ~~~0x888#x.bits = 0#x.bits := by
  obtain ⟨msi, mti, mei⟩ := b
  cases x <;> cases msi <;> cases mti <;> cases mei <;> decide

/-- A clear bit reads as zero outside the mask of every other bit, the mask of `mtvec` and of `mepc` (10_state.md R44,
R45). -/
theorem and_not_not_of_getLsbD {v : XWord x} {k : Nat} (clear : v.getLsbD k = false) :
    v &&& ~~~~~~BitVec.ofNat x.bits (2 ^ k) = 0#x.bits := by
  have bit : BitVec.ofNat x.bits (2 ^ k) = BitVec.twoPow x.bits k :=
    BitVec.eq_of_toNat_eq ((BitVec.toNat_ofNat _ _).trans (BitVec.toNat_twoPow _ _).symm)
  rw [BitVec.not_not, bit, BitVec.and_twoPow, clear]
  rfl

/-- Settles O33: the write rule of each machine CSR is its mask, where the CSR reads zeros that no write can set
(`mie`, and by the invariant `mtvec` and `mepc`) or keeps its other bits (`mstatus`, `misa`, `mip`). -/
theorem csrWriteThenReadLaw : Obligations.CsrWriteThenReadLaw := by
  intro x h a mask rd rs inv mode hrd masks
  obtain ⟨c, named, writable, masked⟩ : ∃ c, csrAt x a = some c ∧ a.extractLsb' 10 2 ≠ 0b11#2 ∧
      csrWritten c (h.csrValue c) (h.reg rs) = h.reg rs &&& mask ||| h.csrValue c &&& ~~~mask := by
    rcases masks with ⟨rfl, legal, rfl⟩ | ⟨rfl, illegal, rfl⟩ | ⟨rfl, rfl⟩ | ⟨rfl, rfl⟩ | ⟨rfl, rfl⟩ |
      ⟨rfl | rfl, rfl⟩ | ⟨rfl | rfl, rfl⟩
    · exact ⟨.mstatus, rfl, by decide, (if_neg legal).trans (BitVec.or_comm _ _)⟩
    · exact ⟨.mstatus, rfl, by decide, (if_pos illegal).trans (BitVec.or_comm _ _)⟩
    · exact ⟨.mie, rfl, by decide, and_eq_masked h.mie.read_and_not_mask⟩
    · exact ⟨.mtvec, rfl, by decide, and_eq_masked (and_not_not_of_getLsbD (k := 1) inv.mtvecMode)⟩
    · exact ⟨.mepc, rfl, by decide, and_eq_masked (and_not_not_of_getLsbD (k := 0) inv.mepcEven)⟩
    · exact ⟨.mcause, rfl, by decide, by simp [csrWritten]⟩
    · exact ⟨.mtval, rfl, by decide, by simp [csrWritten]⟩
    · exact ⟨.misa, rfl, by decide, by simp [csrWritten]⟩
    · exact ⟨.mip, rfl, by decide, by simp [csrWritten]⟩
  obtain ⟨h1, h2, write, read, result⟩ := csrrw_csrrs_reg mode hrd named writable
  exact ⟨c, h1, h2, named, write, read, result.trans masked⟩

end Sys2Proof.Machine

/-! SUPPORT. Multiply and divide: what each product and each column of the division table stands for, at every width
(45_mul_div.md R320 to R334). -/

namespace Sys2Proof.Machine

variable {x : Xlen}

/-! ### Products -/

/-- The low half of a product, read as signed (R329). -/
theorem mulLow_toInt {n : Nat} (a b : BitVec n) : (mulLow a b).toInt = ((a.toNat * b.toNat : Nat) : Int).bmod (2 ^ n) :=
  BitVec.toInt_ofNat ..

/-- The high half of an unsigned product is the same quotient taken of the integers (R324). -/
theorem mulHighUU_eq_ofInt {n : Nat} (a b : BitVec n) :
    mulHighUU a b = BitVec.ofInt n ((a.toNat : Int) * b.toNat / 2 ^ n) := by
  rw [mulHighUU, ← BitVec.ofInt_natCast]
  norm_cast

/-- Settles O54: each high half is the floor of the exact product over 2^n, which is the upper half of its bits. -/
theorem multiplies : Obligations.Multiplies := by
  intro x h rd rs1 rs2
  refine ⟨computes_of rfl (BitVec.toNat_ofNat ..), computes_of rfl (ofInt_div_eq_high_half ..),
    computes_of rfl (ofInt_div_eq_high_half ..), computes_of rfl ?mulhu, ?mulw⟩
  case mulhu => rw [mulHighUU_eq_ofInt, ofInt_div_eq_high_half]
  case mulw =>
    rintro rfl
    refine computes_sext32 rfl ?_
    rw [mulLow_toInt, low32_toNat, low32_toNat]

/-! ### The rows of the division table (R334) -/

section

variable {n : Nat} {a b : BitVec n}

/-! A zero divisor. -/

theorem divSigned_zero (a : BitVec n) : divSigned a 0#n = BitVec.allOnes n := if_pos rfl

theorem divUnsigned_zero (a : BitVec n) : divUnsigned a 0#n = BitVec.allOnes n := if_pos rfl

theorem remSigned_zero (a : BitVec n) : remSigned a 0#n = a := if_pos rfl

theorem remUnsigned_zero (a : BitVec n) : remUnsigned a 0#n = a := if_pos rfl

/-! Signed overflow. -/

theorem divSigned_overflow (hb : b ≠ 0#n) (row : a = BitVec.intMin n ∧ b = BitVec.allOnes n) : divSigned a b = a :=
  (if_neg hb).trans (if_pos row)

theorem remSigned_overflow (hb : b ≠ 0#n) (row : a = BitVec.intMin n ∧ b = BitVec.allOnes n) : remSigned a b = 0#n :=
  (if_neg hb).trans (if_pos row)

/-- The overflow row in integers. -/
theorem overflow_iff (hn : 0 < n) :
    a.toInt = -2 ^ (n - 1) ∧ b.toInt = -1 ↔ a = BitVec.intMin n ∧ b = BitVec.allOnes n := by
  rw [← BitVec.toInt_inj, ← BitVec.toInt_inj, BitVec.toInt_intMin_of_pos hn, BitVec.toInt_allOnes, if_pos hn]

/-! ### A nonzero divisor: the library's quotients and remainders -/

theorem divUnsigned_eq_udiv (hb : b ≠ 0#n) : divUnsigned a b = a / b := (if_neg hb).trans BitVec.udiv_def.symm

theorem remUnsigned_eq_umod (hb : b ≠ 0#n) : remUnsigned a b = a % b := (if_neg hb).trans BitVec.umod_def.symm

/-- In the overflow row `sdiv` gives the dividend too: the quotient wraps round to it. -/
theorem divSigned_eq_sdiv (hb : b ≠ 0#n) : divSigned a b = a.sdiv b := by
  by_cases row : a = BitVec.intMin n ∧ b = BitVec.allOnes n
  · rw [divSigned_overflow hb row]
    obtain ⟨rfl, rfl⟩ := row
    rw [← BitVec.neg_one_eq_allOnes, BitVec.intMin_sdiv_neg_one]
  · rw [divSigned, if_neg hb, if_neg row]
    exact BitVec.eq_of_toInt_eq (by rw [BitVec.toInt_ofInt, BitVec.toInt_sdiv])

/-- All ones is -1, which divides everything. -/
theorem srem_allOnes (a : BitVec n) : a.srem (BitVec.allOnes n) = 0#n := by
  cases n with
  | zero => exact Subsingleton.elim _ _
  | succ m =>
    apply BitVec.srem_zero_of_dvd
    rw [BitVec.toInt_allOnes, if_pos m.succ_pos]
    exact neg_dvd.mpr (one_dvd _)

/-- In the overflow row `srem` gives 0 too (`srem_allOnes`). -/
theorem remSigned_eq_srem (hb : b ≠ 0#n) : remSigned a b = a.srem b := by
  by_cases row : a = BitVec.intMin n ∧ b = BitVec.allOnes n
  · rw [remSigned_overflow hb row, row.2, srem_allOnes]
  · rw [remSigned, if_neg hb, if_neg row, ← Int.tmod_def, ← BitVec.toInt_srem, BitVec.ofInt_toInt]

/-! ### The laws of every row -/

theorem divSigned_toInt (hb : b ≠ 0#n) (fits : ¬ (a = BitVec.intMin n ∧ b = BitVec.allOnes n)) :
    (divSigned a b).toInt = a.toInt.tdiv b.toInt := by
  rw [divSigned_eq_sdiv hb, BitVec.toInt_sdiv_of_ne_or_ne]
  rwa [BitVec.neg_one_eq_allOnes, ← not_and_or]

theorem remSigned_toInt (hb : b ≠ 0#n) : (remSigned a b).toInt = a.toInt.tmod b.toInt := by
  rw [remSigned_eq_srem hb, BitVec.toInt_srem]

/-- `a = b * q + r` modulo 2^n, signed. -/
theorem mul_divSigned_add_remSigned (a b : BitVec n) : b * divSigned a b + remSigned a b = a := by
  by_cases hb : b = 0#n
  · subst hb; rw [remSigned_zero, BitVec.zero_mul, BitVec.zero_add]
  · rw [divSigned_eq_sdiv hb, remSigned_eq_srem hb]
    apply BitVec.eq_of_toInt_eq
    rw [BitVec.toInt_add, BitVec.toInt_mul, BitVec.toInt_sdiv, BitVec.toInt_srem, Int.mul_bmod_bmod, Int.bmod_add_bmod,
      Int.mul_tdiv_add_tmod, BitVec.toInt_bmod_cancel]

/-- `a = b * q + r` modulo 2^n, unsigned. -/
theorem mul_divUnsigned_add_remUnsigned (a b : BitVec n) : b * divUnsigned a b + remUnsigned a b = a := by
  by_cases hb : b = 0#n
  · subst hb; rw [remUnsigned_zero, BitVec.zero_mul, BitVec.zero_add]
  · rw [divUnsigned_eq_udiv hb, remUnsigned_eq_umod hb]
    apply BitVec.eq_of_toNat_eq
    rw [BitVec.toNat_add, BitVec.toNat_mul, BitVec.toNat_udiv, BitVec.toNat_umod, Nat.mod_add_mod, Nat.div_add_mod,
      BitVec.toNat_mod_cancel]

end

/-- Settles O55, row by row: for a nonzero divisor the columns are the library's quotients and remainders, and the
overflow row is the one where the signed quotient does not fit. -/
theorem divisionLaws : Obligations.DivisionLaws := by
  intro n a b hn
  refine ⟨?zero, ?overflow, fun hb fits => ?signed, fun hb => ?unsigned, fun hb nonneg => ?nonneg,
    fun hb nonpos => ?nonpos, mul_divSigned_add_remSigned a b, mul_divUnsigned_add_remUnsigned a b⟩
  case zero =>
    rintro rfl
    exact ⟨divSigned_zero a, divUnsigned_zero a, remSigned_zero a, remUnsigned_zero a⟩
  case overflow =>
    intro mostNegative minusOne
    have hb : b ≠ 0#n := ne_of_apply_ne BitVec.toInt (by rw [minusOne, BitVec.toInt_zero]; decide)
    have row := (overflow_iff hn).mp ⟨mostNegative, minusOne⟩
    exact ⟨divSigned_overflow hb row, remSigned_overflow hb row⟩
  case signed =>
    rw [overflow_iff hn] at fits
    exact ⟨divSigned_toInt hb fits, (remSigned_toInt hb).trans (Int.tmod_def ..)⟩
  case unsigned =>
    rw [divUnsigned_eq_udiv hb, remUnsigned_eq_umod hb]
    exact ⟨BitVec.toNat_udiv, BitVec.toNat_umod⟩
  case nonneg => exact remSigned_toInt hb ▸ Int.tmod_nonneg _ nonneg
  case nonpos =>
    have := Int.tmod_nonneg b.toInt (Int.neg_nonneg_of_nonpos nonpos)
    rwa [Int.neg_tmod, Int.neg_nonneg, ← remSigned_toInt hb] at this

/-! ### The divide and remainder instructions -/

/-- The low half of an operand, as the word of its number. -/
theorem low32_eq_ofNat (v : XWord x) : low32 v = BitVec.ofNat 32 v.toNat := (BitVec.ofNat_toNat 32 v).symm

/-- Settles O56: each instruction writes its column of the table, the W forms' with the sign extended. -/
theorem divideInstructions : Obligations.DivideInstructions := by
  intro x h rd rs1 rs2
  refine ⟨computes_of rfl rfl, computes_of rfl rfl, computes_of rfl rfl, computes_of rfl rfl, ?_⟩
  rintro rfl
  dsimp only
  rw [← low32_eq_ofNat, ← low32_eq_ofNat]
  exact ⟨computes_of rfl (sext32_toInt _), computes_of rfl (sext32_toInt _), computes_of rfl (sext32_toInt _),
    computes_of rfl (sext32_toInt _)⟩

end Sys2Proof.Machine

/-! SUPPORT. How an instruction ends, and what the boundary after it leaves alone (60_exceptions.md R362, R370, R410). -/

namespace Sys2Proof.Machine

variable {x : Xlen}

/-! ### How an instruction ends -/

/-- A register write leaves all control state. -/
theorem Hart.SameControl.setReg {h h' : Hart x} (s : h.SameControl h') (rd : Reg) (v : XWord x) :
    h.SameControl (h'.setReg rd v) :=
  { s with }

/-- A commit leaves all control state. -/
theorem Hart.SameControl.commit {h h' : Hart x} (s : h.SameControl h') (t : XWord x) : h.SameControl (h'.commit t) :=
  { s with }

/-- A trap taken after accesses to devices is the trap of the exception. -/
theorem Hart.SameButDevices.trapped_raise {h h' : Hart x} (s : h.SameButDevices h') (e : Exc x) :
    h.Trapped (h'.raise e) e.code e.value :=
  .of_same s (h'.trapped_raise e)

/-- The five ways an instruction ends: it retires with all control state as it was, it is a CSR instruction that passed
its checks, MRET in machine mode or HALT, or it takes the trap of an exception that it can raise. -/
inductive Ending (i : Instr) (h h1 : Hart x) : Prop where
  | retired (control : h.SameControl h1) (instret : h1.instretCtr = h.instretCtr + 1)
  | csr (c : Csr) (rd : Reg) (a : BitVec 12) (writes : Bool) (v : XWord x) (form : i.csrForm = some (rd, a, writes))
    (ok : csrAccess x h.priv a writes = some c) (done : h.CsrDone h1 c rd (if writes then some v else none))
  | returned (is : i = .mret) (mode : h.priv = .machine) (eq : h1 = h.trapReturn.commit h.mepc)
  | halted (is : i = .halt) (eq : h1 = { h with halted := true })
  | trapped (e : Exc x) (may : h.MayRaise i e) (trap : h.Trapped h1 e.code e.value)

/-- Every effect of an instruction is one of these ends. -/
theorem Effect.ending {i : Instr} {h h1 : Hart x} (effect : Effect i h h1) : Ending i h h1 := by
  cases effect with
  | write rd v t => exact .retired (((Hart.SameControl.refl h).setReg rd v).commit t) rfl
  | load h' rd v same =>
    exact .retired ((same.sameButMemory.sameControl.setReg rd v).commit _) (congrArg (· + 1) same.instretCtr)
  | store h' same => exact .retired (same.sameControl.commit _) (congrArg (· + 1) same.instretCtr)
  | csr c rd a writes v form ok =>
    exact .csr c rd a writes v form ok (h.csrDone c rd writes v (Hart.counts_of_csrAccess ok))
  | mret is mode => exact .returned is mode rfl
  | halt is => exact .halted is rfl
  | trap h' e same may => exact .trapped e may (same.trapped_raise e)

/-- Settles O15: the ends that are no trap and no HALT count the instruction. -/
theorem onlyListedInstructionsRaise : Obligations.OnlyListedInstructionsRaise := by
  intro x i h h1 e
  cases (effect_of_exec e).ending with
  | retired _ instret => exact .inl instret
  | csr c rd a writes v form ok done => exact .inl done.instret
  | returned is mode eq => exact .inl (eq ▸ rfl)
  | halted is eq => exact .inr (.inl ⟨is, eq⟩)
  | trapped exc may trap => exact .inr (.inr ⟨exc, may, trap⟩)

/-! ### What the boundary leaves -/

/-- What neither the count of the step nor the entry of an interrupt touches stands at the boundary. -/
theorem Hart.boundary_keeps {α : Type} {f : Hart x → α} (counted : ∀ g, f g.counted = f g)
    (entered : ∀ g code epc, f (g.trapEntry true code 0 epc) = f g) (h : Hart x) : f h.boundary = f h := by
  rcases Hart.boundary_cases h with ⟨e, _⟩ | ⟨_, _, _, e⟩ <;> rw [e]
  · exact counted h
  · exact (entered _ _ _).trans (counted h)

@[simp] theorem Hart.boundary_mie (h : Hart x) : h.boundary.mie = h.mie :=
  boundary_keeps (f := mie) (fun _ => rfl) (fun _ _ _ => rfl) h

@[simp] theorem Hart.boundary_mtvec (h : Hart x) : h.boundary.mtvec = h.mtvec :=
  boundary_keeps (f := mtvec) (fun _ => rfl) (fun _ _ _ => rfl) h

@[simp] theorem Hart.boundary_instretCtr (h : Hart x) : h.boundary.instretCtr = h.instretCtr :=
  boundary_keeps (f := instretCtr) (fun _ => rfl) (fun _ _ _ => rfl) h

@[simp] theorem Hart.boundary_halted (h : Hart x) : h.boundary.halted = h.halted :=
  boundary_keeps (f := halted) (fun _ => rfl) (fun _ _ _ => rfl) h

@[simp] theorem Hart.boundary_timeNow (h : Hart x) : h.boundary.timeNow = h.timeNow :=
  boundary_keeps (f := timeNow) (fun _ => rfl) (fun _ _ _ => rfl) h

/-- Every boundary counts its step (R410). -/
@[simp] theorem Hart.boundary_cycleCtr (h : Hart x) : h.boundary.cycleCtr = h.cycleCtr + 1 := by
  rcases Hart.boundary_cases h with ⟨e, _⟩ | ⟨_, _, _, e⟩ <;> rw [e] <;> rfl

/-- After a trap the boundary only counts the step: no interrupt is taken on top of it (R372). -/
theorem Hart.Trapped.boundary {h h1 : Hart x} {code : Nat} {value : XWord x} (t : h.Trapped h1 code value) :
    h1.boundary = h1.counted :=
  Hart.boundary_of_trapped t.priv t.mie

end Sys2Proof.Machine

/-! SUPPORT. Trap entry and its target as numbers, and the return (60_exceptions.md R390, R391, R395). -/

namespace Sys2Proof.Machine

variable {x : Xlen}

/-- The cause word is the code, with the top bit set for an interrupt (R390). -/
theorem causeWord_toNat {code : Nat} (fits : code < 2 ^ (x.bits - 1)) (interrupt : Bool) :
    (causeWord x interrupt code).toNat = (if interrupt then 2 ^ (x.bits - 1) else 0) + code := by
  have half : 2 ^ x.bits = 2 * 2 ^ (x.bits - 1) := by cases x <;> rfl
  rw [causeWord, BitVec.toNat_ofNat, Nat.mod_eq_of_lt]
  split <;> omega

/-- Settles O22: all but the cause is trap entry's definition. -/
theorem trapEntryEffect : Obligations.TrapEntryEffect := by
  intro x h interrupt code value epc fits
  exact ⟨rfl, causeWord_toNat fits interrupt, rfl, rfl, rfl, rfl, rfl, rfl, fun _ => rfl, fun _ => rfl, rfl,
    fun _ => rfl⟩

/-! ### The target -/

/-- The target without an offset: in Direct mode, and for exceptions (R391). -/
theorem trapTarget_direct {mtvec : XWord x} {interrupt : Bool} (direct : ¬ (interrupt = true ∧ mtvec.getLsbD 0 = true))
    (code : Nat) : (trapTarget mtvec interrupt code).toNat = mtvec.toNat / 4 * 4 := by
  rw [trapTarget, if_neg (by simpa using direct), and_not3_toNat]

/-- The target of an interrupt in Vectored mode (R391). -/
theorem trapTarget_vectored {mtvec : XWord x} (vectored : mtvec.getLsbD 0 = true) (code : Nat) :
    (trapTarget mtvec true code).toNat = (mtvec.toNat / 4 * 4 + 4 * code) % 2 ^ x.bits := by
  rw [trapTarget, if_pos (by simpa using vectored), BitVec.toNat_add, and_not3_toNat, BitVec.toNat_ofNat,
    Nat.add_mod_mod]

/-- The target is a multiple of 4, as 2^XLEN is one (R391). -/
theorem trapTarget_mod_four (mtvec : XWord x) (interrupt : Bool) (code : Nat) :
    (trapTarget mtvec interrupt code).toNat % 4 = 0 := by
  by_cases vectored : interrupt = true ∧ mtvec.getLsbD 0 = true
  · obtain ⟨rfl, mode⟩ := vectored
    have four : 4 ∣ 2 ^ x.bits := by cases x <;> decide
    rw [trapTarget_vectored mode, Nat.mod_mod_of_dvd _ four]
    omega
  · rw [trapTarget_direct vectored]
    omega

/-- Settles O23, by the two forms of the target. -/
theorem trapTargetArithmetic : Obligations.TrapTargetArithmetic := by
  intro x mtvec interrupt code
  refine ⟨fun direct => trapTarget_direct ?_ code, fun exception => trapTarget_direct ?_ code, fun vectored is => ?_,
    trapTarget_mod_four mtvec interrupt code⟩
  · rw [direct]; nofun
  · rw [exception]; nofun
  · rw [is, trapTarget_vectored vectored]

/-! ### The return -/

/-- An even address is its own rounding. -/
theorem clearBit0_of_even {pc : XWord x} (even : pc.getLsbD 0 = false) : clearBit0 pc = pc := by
  apply BitVec.eq_of_toNat_eq
  have bit : pc.toNat % 2 = 0 := by simpa [BitVec.getLsbD, Nat.testBit_zero] using even
  rw [clearBit0_toNat]
  omega

/-- Settles O24: MRET undoes what trap entry saved. -/
theorem trapThenMretRestores : Obligations.TrapThenMretRestores := by
  intro x h interrupt code value epc even
  exact ⟨_, exec_mret_of_machine rfl, clearBit0_of_even even, rfl, rfl, rfl, rfl, rfl, rfl, rfl, fun _ => rfl,
    fun _ => rfl⟩

end Sys2Proof.Machine

/-! SUPPORT. The interrupt check (60_exceptions.md R382, R383). -/

namespace Sys2Proof.Machine

variable {x : Xlen}

/-- An enabled candidate is taken (R382). -/
theorem Hart.interruptCheck_of_candidate {h : Hart x} {q : Irq} (candidate : h.candidate = some q)
    (enabled : h.interruptsEnabled = true) : h.interruptCheck = h.trapEntry true q.code 0 h.pc := by
  rw [interruptCheck, candidate]
  exact if_pos enabled

/-- With no candidate enabled the check does nothing (R382). -/
theorem Hart.interruptCheck_of_none {h : Hart x} (none : h.interruptsEnabled = false ∨ h.candidate = none) :
    h.interruptCheck = h := by
  unfold interruptCheck
  split
  · rename_i q candidate
    rcases none with off | no
    · rw [off]; rfl
    · rw [no] at candidate; cases candidate
  · rfl

/-- The lines stand. -/
theorem Hart.interruptCheck_irq (h : Hart x) : h.interruptCheck.irq = h.irq := by
  unfold interruptCheck
  split
  · split <;> rfl
  · rfl

/-- Interrupts are enabled below machine mode, and in it if `mstatus` reads MIE as 1 (R382). -/
theorem Hart.interruptsEnabled_iff (h : Hart x) :
    h.interruptsEnabled = true ↔ h.priv ≠ .machine ∨ (h.csrValue .mstatus).getLsbD 3 = true := by
  obtain ⟨mie, _⟩ := MStatus.read_fields (x := x) h.mstatus
  rw [show (h.csrValue .mstatus).getLsbD 3 = h.mstatus.mie from mie]
  simp [interruptsEnabled]

/-- What the two CSRs read at each source's bit: its line, and its enable (R380, R382). -/
theorem Hart.pending_iff (h : Hart x) :
    ((h.csrValue .mip).getLsbD 11 = true ∧ (h.csrValue .mie).getLsbD 11 = true ↔ (h.irq.mei && h.mie.mei) = true) ∧
      ((h.csrValue .mip).getLsbD 3 = true ∧ (h.csrValue .mie).getLsbD 3 = true ↔ (h.irq.msi && h.mie.msi) = true) ∧
      ((h.csrValue .mip).getLsbD 7 = true ∧ (h.csrValue .mie).getLsbD 7 = true ↔ (h.irq.mti && h.mie.mti) = true) := by
  obtain ⟨msi, mti, mei⟩ := irqBits_read_bits (x := x) h.irq
  obtain ⟨msie, mtie, meie⟩ := irqBits_read_bits (x := x) h.mie
  simp only [csrValue, msi, mti, mei, msie, mtie, meie, Bool.and_eq_true, and_self]

/-- Settles O20: the bits read decide the candidate, in the order of R383. -/
theorem interruptEnableAndPriority : Obligations.InterruptEnableAndPriority := by
  intro x h
  obtain ⟨external, software, timer⟩ := h.pending_iff
  dsimp only
  rw [external, software, timer, ← h.interruptsEnabled_iff]
  refine ⟨fun on mei => ?mei, fun on no_mei msi => ?msi, fun on no_mei no_msi mti => ?mti, fun none => ?none,
    congrArg (IrqBits.read x.bits) h.interruptCheck_irq⟩
  case mei => exact Hart.interruptCheck_of_candidate (q := .mei) (if_pos mei) on
  case msi => exact Hart.interruptCheck_of_candidate (q := .msi) ((if_neg no_mei).trans (if_pos msi)) on
  case mti =>
    exact Hart.interruptCheck_of_candidate (q := .mti) ((if_neg no_mei).trans ((if_neg no_msi).trans (if_pos mti))) on
  case none =>
    refine Hart.interruptCheck_of_none (none.imp Bool.eq_false_iff.mpr fun ⟨no_mei, no_msi, no_mti⟩ => ?_)
    exact (if_neg no_mei).trans ((if_neg no_msi).trans (if_neg no_mti))

end Sys2Proof.Machine

/-! SUPPORT. A step as the instruction it runs and the boundary after it: the instruction commits or traps first, then
the interrupt check (60_exceptions.md R370, R372, R384). -/

namespace Sys2Proof.Machine

variable {x : Xlen}

/-- A fetch, whatever it gives, changes nothing but the devices (20_memory.md R95). -/
theorem sameButDevices_of_fetch {h h' : Hart x} {r : Except (XWord x) (BitVec 32)} (fetch : h.fetch = (r, h')) :
    h.SameButDevices h' := by
  have same := Hart.fetch_same h
  rwa [fetch] at same

section

variable {h h' h1 : Hart x} {w : BitVec 32} {i : Instr} (running : h.halted = false) (fetch : h.fetch = (.ok w, h'))
  (decode : decodeWord x h.params.haltWord w = .ok i)

include running fetch decode

/-- The step of an instruction that leaves the core running ends with the boundary. -/
theorem step_of_exec_running (e : exec i ⟨x, h'⟩ = .next ⟨x, h1⟩) (on : h1.halted = false) :
    step ⟨x, h⟩ = .next ⟨x, h1.boundary⟩ := by
  rw [step_of_exec running fetch decode e, State.endStep, if_neg (Bool.eq_false_iff.mp on)]

/-- The step of an instruction that stops the core has no boundary. -/
theorem step_of_exec_halted (e : exec i ⟨x, h'⟩ = .next ⟨x, h1⟩) (stopped : h1.halted = true) :
    step ⟨x, h⟩ = .next ⟨x, h1⟩ := by
  rw [step_of_exec running fetch decode e, State.endStep, if_pos stopped]

/-- A step runs the instruction that was fetched and decoded, then the boundary unless the core stopped. -/
theorem step_runs :
    ∃ h1 : Hart x, exec i ⟨x, h'⟩ = .next ⟨x, h1⟩ ∧
      (h1.halted = true → step ⟨x, h⟩ = .next ⟨x, h1⟩) ∧
      (h1.halted = false → step ⟨x, h⟩ = .next ⟨x, h1.boundary⟩) := by
  obtain ⟨h1, e, _⟩ := exec_effect i h'
  exact ⟨h1, e, step_of_exec_halted running fetch decode e, step_of_exec_running running fetch decode e⟩

end

/-! ### From the bytes at the pc -/

/-- A fetch from an executable device region gives the device's answer, drawn and recorded (20_memory.md R84, R95). -/
theorem fetch_of_device {h : Hart x} {r : Region} {w : BitVec 32} (aligned : h.pc.toNat % 4 = 0)
    (region : regionFor h.params.regions .fetch h.pc.toNat 4 = some r) (device : r.kind = .device)
    (answer : Config.deviceRead h.deviceDraws r (h.pc.toNat - r.base) .word = some w) :
    h.fetch = (.ok w, h.drawDevice.logDevice (.read r (h.pc.toNat - r.base) .word true)) := by
  have read : h.busRead .fetch h.pc.toNat .word =
      (some w, h.drawDevice.logDevice (.read r (h.pc.toNat - r.base) .word true)) := by
    simp [Hart.busRead, region, device, Hart.deviceRead, answer]
  rw [Hart.fetch, if_pos aligned, read]

/-- The decoder on the four bytes at an address is the decoder on the word there (30_encoding.md R120). -/
theorem decodeWord_of_decode_bytesAt {h : Hart x} {hw : BitVec 32} {a : Nat} {i : Instr} {rest : List Byte}
    (decoded : decode x hw (h.bytesAt a 4) = .ok (i, rest)) :
    rest = [] ∧ decodeWord x hw (h.storageRead a .word) = .ok i := by
  have bytes : h.bytesAt a 4 = [h.byteAt a, h.byteAt (a + 1), h.byteAt (a + 2), h.byteAt (a + 3)] := rfl
  rw [bytes, decode, ← storageRead_word_eq] at decoded
  split at decoded
  · rename_i j word
    obtain ⟨rfl, rfl⟩ : j = i ∧ [] = rest := by simpa using decoded
    exact ⟨rfl, word⟩
  · cases decoded

/-- Settles O8: the fetch gives the word the bytes or the device stand for, and `step_runs` says the rest. -/
theorem stepRunsDecodedInstruction : Obligations.StepRunsDecodedInstruction := by
  intro x h i running aligned
  refine ⟨fun rest storage decoded => ?_, fun r w region device answer decoded => ?_⟩
  · obtain ⟨empty, word⟩ := decodeWord_of_decode_bytesAt decoded
    exact ⟨empty, step_runs running (fetch_of_storage aligned storage) word⟩
  · exact step_runs running (fetch_of_device aligned region device answer) decoded

/-! ### Traps and interrupts -/

/-- Settles O25: a trap leaves no interrupt enabled, so the boundary after it only counts the step. -/
theorem exceptionBeatsInterrupt : Obligations.ExceptionBeatsInterrupt := by
  intro x h h' h1 w i code value running fetch decode e trap
  have trapped : h.Trapped h1 code value := trap.of_same (sameButDevices_of_fetch fetch)
  have step := step_of_exec_running running fetch decode e (trapped.halted.trans running)
  rw [trapped.boundary] at step
  exact ⟨step, trapped⟩

/-- The boundary with an enabled candidate is its trap entry, the step counted (R382). -/
theorem Hart.boundary_of_candidate {h : Hart x} {q : Irq} (candidate : h.candidate = some q)
    (enabled : h.interruptsEnabled = true) : h.boundary = h.counted.trapEntry true q.code 0 h.pc :=
  Hart.interruptCheck_of_candidate (h := h.counted) candidate enabled

/-- The codes of the interrupts fit below the top bit of the cause (R380). -/
theorem Irq.code_lt (x : Xlen) (q : Irq) : q.code < 2 ^ (x.bits - 1) := by
  cases x <;> cases q <;> decide

/-- Settles O21: the boundary enters the trap on the hart the instruction left. -/
theorem interruptFollowsInstruction : Obligations.InterruptFollowsInstruction := by
  intro x h h' h1 w i q running fetch decode e on candidate enabled
  have step := step_of_exec_running running fetch decode e on
  rw [Hart.boundary_of_candidate candidate enabled] at step
  exact ⟨_, step, rfl, causeWord_toNat (q.code_lt x) true, rfl, rfl, rfl, rfl, rfl, rfl, fun _ => rfl,
    fun _ => rfl, rfl, rfl, rfl, rfl, rfl⟩

end Sys2Proof.Machine

/-! SUPPORT. What a step does to the counters, to `mcause`, to the machine state of a lower mode, and to the clock
(60_exceptions.md R364, R401, R410, R411). -/

namespace Sys2Proof.Machine

variable {x : Xlen}

/-! ### How a step ends -/

/-- The three ways a step ends: the core is halted after it and nothing but the devices changed, it takes the trap of an
exception of the fetch or the decoder, or it runs an instruction and the boundary. -/
inductive StepEnding (h h1 : Hart x) : Prop where
  | stopped (h' : Hart x) (same : h.SameButDevices h') (eq : h1 = { h' with halted := true })
  | trapped (e : Exc x) (g : Hart x) (trap : h.Trapped g e.code e.value) (eq : h1 = g.counted)
  | ran (i : Instr) (h' g : Hart x) (runs : h.Runs i) (same : h.SameButDevices h') (effect : Effect i h' g)
    (eq : h1 = g.boundary)

/-- Every effect of a step is one of these ends. -/
theorem StepEffect.ending {h h1 : Hart x} (effect : StepEffect h h1) : StepEnding h h1 := by
  cases effect with
  | idle halted => exact .stopped h (.refl h) (by rw [← halted])
  | noFetch h' _ _ same => exact .trapped _ _ (same.trapped_raise (.instrAccessFault h.pc)) rfl
  | noDecode w d h' _ _ same => exact .trapped _ _ (same.trapped_raise (.illegalInstruction w)) rfl
  | halts w h' _ _ _ same _ _ is => exact .stopped h' same is
  | runs w i h' g _ fetch same decode _ effect => exact .ran i h' g ⟨w, h', fetch, decode⟩ same effect rfl

/-! ### The counters (R410) -/

/-- No instruction changes `cycle_ctr`: the boundary does. -/
theorem Ending.cycleCtr {i : Instr} {h h1 : Hart x} (ending : Ending i h h1) : h1.cycleCtr = h.cycleCtr := by
  cases ending with
  | retired control => exact control.cycleCtr
  | csr c rd a writes v form ok done => exact done.cycleCtr
  | returned is mode eq => rw [eq]; rfl
  | halted is eq => rw [eq]
  | trapped e may trap => exact trap.cycleCtr

/-- A step that leaves the core running is counted. -/
theorem StepEnding.cycleCtr {h h1 : Hart x} (ending : StepEnding h h1) (on : h1.halted = false) :
    h1.cycleCtr = h.cycleCtr + 1 := by
  cases ending with
  | stopped h' same eq => rw [eq] at on; cases on
  | trapped e g trap eq => rw [eq, ← trap.cycleCtr]; rfl
  | ran i h' g runs same effect eq => rw [eq, Hart.boundary_cycleCtr, effect.ending.cycleCtr, same.cycleCtr]

/-- A step after which the core is halted counts nothing. -/
theorem StepEffect.counters_of_halted {h h1 : Hart x} (effect : StepEffect h h1) (off : h1.halted = true) :
    h1.cycleCtr = h.cycleCtr ∧ h1.instretCtr = h.instretCtr := by
  cases effect with
  | idle => exact ⟨rfl, rfl⟩
  | noFetch h' running _ same => exact absurd (off.symm.trans (same.halted.trans running)) nofun
  | noDecode w d h' running _ same => exact absurd (off.symm.trans (same.halted.trans running)) nofun
  | halts w h' _ _ _ same _ _ is => rw [is]; exact ⟨same.cycleCtr, same.instretCtr⟩
  | runs w i h' g _ _ _ _ _ _ on => exact absurd (off.symm.trans ((Hart.boundary_halted g).trans on)) nofun

/-- A running step that commits counts its instruction. -/
theorem instretCtr_of_commits {h h1 : Hart x} (e : step ⟨x, h⟩ = .next ⟨x, h1⟩) (running : h.halted = false)
    (on : h1.halted = false) (commits : h.Commits) : h1.instretCtr = h.instretCtr + 1 := by
  obtain ⟨w, h', i, fetch, decode, quiet⟩ := commits
  obtain ⟨g, eg, stops, goes⟩ := step_runs running fetch decode
  have gRunning : g.halted = false := by
    refine Bool.eq_false_iff.mpr fun stopped => ?_
    obtain rfl := outcome_next_inj ((stops stopped).symm.trans e)
    exact absurd (stopped.symm.trans on) nofun
  obtain rfl := outcome_next_inj ((goes gRunning).symm.trans e)
  rcases exec_of_not_raises eg quiet with rfl | counted
  · obtain rfl : { h' with halted := true } = g := outcome_next_inj eg
    cases gRunning
  · rw [Hart.boundary_instretCtr, counted, (sameButDevices_of_fetch fetch).instretCtr]

/-- A running step that does not commit is the trap of an exception, counted by `cycle_ctr` only. -/
theorem StepEffect.trapped_of_not_commits {h h1 : Hart x} (effect : StepEffect h h1) (running : h.halted = false)
    (on : h1.halted = false) (fails : ¬ h.Commits) :
    ∃ (e : Exc x) (g : Hart x), h.Trapped g e.code e.value ∧ h1 = g.counted := by
  cases effect with
  | idle halted => exact absurd (halted.symm.trans running) nofun
  | noFetch h' _ _ same => exact ⟨_, _, same.trapped_raise (.instrAccessFault h.pc), rfl⟩
  | noDecode w d h' _ _ same => exact ⟨_, _, same.trapped_raise (.illegalInstruction w), rfl⟩
  | halts w h' _ _ _ _ _ _ is => rw [is] at on; cases on
  | runs w i h' g _ fetch same decode eg =>
    have raises : h'.Raises i := by_contra fun quiet => fails ⟨w, h', i, fetch, decode, quiet⟩
    obtain ⟨h'', e, same', trap⟩ := exec_of_raises raises
    obtain rfl := outcome_next_inj (trap.symm.trans eg)
    exact ⟨e, _, (same.trans same').trapped_raise e, Hart.boundary_raise h'' e⟩

/-- The eight codes (60_exceptions.md R361). -/
theorem Exc.code_mem (e : Exc x) : e.code ∈ [1, 2, 3, 5, 7, 8, 9, 11] := by
  cases e <;> simp [Exc.code]

/-- Settles O14: a step commits, traps, or leaves the core halted. -/
theorem countersCountStepsAndCommits : Obligations.CountersCountStepsAndCommits := by
  intro x h h1 e
  have effect := stepEffect_of_step e
  refine ⟨fun off => effect.counters_of_halted ?_, fun running on => ⟨effect.ending.cycleCtr on,
    instretCtr_of_commits e running on, fun fails => ?_⟩⟩
  · rcases off with off | off
    · obtain rfl := outcome_next_inj ((step_of_halted off).symm.trans e)
      exact off
    · exact off
  · obtain ⟨exc, g, trap, rfl⟩ := effect.trapped_of_not_commits running on fails
    exact ⟨trap.instret, trap.mcause.symm ▸ exc.code_mem, trap.priv, trap.mpp, trap.mepc⟩

/-! ### The values of `mcause` (R361, R364, R380) -/

/-- The address 10_state.md R31 lists for a CSR. -/
def Csr.address : Csr → BitVec 12
  | .mstatus => 0x300#12
  | .misa => 0x301#12
  | .mie => 0x304#12
  | .mtvec => 0x305#12
  | .mepc => 0x341#12
  | .mcause => 0x342#12
  | .mtval => 0x343#12
  | .mip => 0x344#12
  | .cycle => 0xC00#12
  | .time => 0xC01#12
  | .instret => 0xC02#12
  | .cycleh => 0xC80#12
  | .timeh => 0xC81#12
  | .instreth => 0xC82#12

/-- Only its own address names a CSR. -/
theorem address_of_csrAt {a : BitVec 12} {c : Csr} (named : csrAt x a = some c) : a = c.address := by
  have own : ∀ a ∈ csrAddresses x, (csrAt x a).all (fun c => a = c.address) = true := by
    cases x <;> simp [csrAddresses, csrAt, Csr.address]
  have isOwn := own a ((csrAt_isSome x a).mp (by rw [named]; rfl))
  simpa [named] using isOwn

/-- A CSR instruction changes `mcause` only if it writes it. -/
theorem Hart.CsrDone.mcause {h h1 : Hart x} {c : Csr} {rd : Reg} {presented : Option (XWord x)}
    (done : h.CsrDone h1 c rd presented) (other : c ≠ .mcause ∨ presented = none) : h1.mcause = h.mcause := by
  by_cases is : c = .mcause
  · subst is
    exact done.kept (other.resolve_left fun ne => ne rfl) rfl
  · exact done.csrs .mcause rfl (Ne.symm is)

/-- What an instruction can leave in `mcause`: the value before, an exception code, or what it writes there in machine
mode. -/
theorem Ending.mcause {i : Instr} {h h1 : Hart x} (ending : Ending i h h1) :
    h1.mcause = h.mcause ∨ h1.mcause.toNat ∈ [1, 2, 3, 5, 7, 8, 9, 11] ∨
      (h.priv = .machine ∧ ∃ rd, i.csrForm = some (rd, 0x342#12, true)) := by
  cases ending with
  | retired control => exact .inl control.mcause
  | csr c rd a writes v form ok done =>
    by_cases written : c = .mcause ∧ writes = true
    · obtain ⟨rfl, rfl⟩ := written
      obtain rfl := address_of_csrAt (csrAt_of_csrAccess ok)
      exact .inr (.inr ⟨priv_of_machine_csr ok (by decide), rd, form⟩)
    · refine .inl (done.mcause ((not_and_or.mp written).imp_right fun reads => ?_))
      rw [if_neg reads]
  | returned is mode eq => rw [eq]; exact .inl rfl
  | halted is eq => rw [eq]; exact .inl rfl
  | trapped e may trap => exact .inr (.inl (trap.mcause.symm ▸ e.code_mem))

/-- The boundary leaves `mcause`, or an interrupt's cause there. -/
theorem Hart.boundary_mcause (h : Hart x) :
    h.boundary.mcause = h.mcause ∨
      h.boundary.mcause.toNat ∈ [2 ^ (x.bits - 1) + 3, 2 ^ (x.bits - 1) + 7, 2 ^ (x.bits - 1) + 11] := by
  rcases Hart.boundary_cases h with ⟨e, _⟩ | ⟨q, _, _, e⟩ <;> rw [e]
  · exact .inl rfl
  · rw [Hart.trapEntry_mcause, causeWord_toNat (q.code_lt x)]
    exact .inr (by cases q <;> simp [Irq.code])

/-- Settles O16: the exceptions, the interrupts, and the CSR instructions are all that write `mcause`. -/
theorem causeValuesRaised : Obligations.CauseValuesRaised := by
  intro x h h1 e
  cases (stepEffect_of_step e).ending with
  | stopped h' same eq => exact .inl (eq ▸ same.mcause)
  | trapped exc g trap eq => exact .inr (.inl (eq ▸ trap.mcause.symm ▸ exc.code_mem))
  | ran i h' g runs same effect eq =>
    rw [eq]
    rcases g.boundary_mcause with keeps | interrupt
    · rw [keeps, ← same.mcause, ← same.priv]
      exact effect.ending.mcause.imp_right (Or.imp_right fun ⟨mode, rd, form⟩ => .inr ⟨mode, i, rd, runs, form⟩)
    · exact .inr (.inr (.inl interrupt))

/-! ### The clock (R411) -/

/-- A clock that moves moves forward, and by a CSR instruction that reads it. -/
theorem Ending.timeNow {i : Instr} {h h1 : Hart x} (ending : Ending i h h1) :
    h1.timeNow = h.timeNow ∨
      (h.timeNow ≤ h1.timeNow ∧ ∃ rd a writes, i.csrForm = some (rd, a, writes) ∧ (a = 0xC01#12 ∨ a = 0xC81#12)) := by
  cases ending with
  | retired control => exact .inl control.timeNow
  | csr c rd a writes v form ok done =>
    by_cases clock : c = .time ∨ c = .timeh
    · have address := address_of_csrAt (csrAt_of_csrAccess ok)
      obtain ⟨forward, _⟩ := done.sample clock
      refine .inr ⟨forward, rd, a, writes, form, ?_⟩
      rcases clock with rfl | rfl
      · exact .inl address
      · exact .inr address
    · obtain ⟨time, timeh⟩ := not_or.mp clock
      exact .inl (done.clock time timeh).1
  | returned is mode eq => rw [eq]; exact .inl rfl
  | halted is eq => rw [eq]; exact .inl rfl
  | trapped e may trap => exact .inl trap.timeNow

/-- A step leaves the clock, or runs such an instruction. -/
theorem StepEnding.timeNow {h h1 : Hart x} (ending : StepEnding h h1) :
    h1.timeNow = h.timeNow ∨
      (h.timeNow ≤ h1.timeNow ∧
        ∃ i rd a writes, h.Runs i ∧ i.csrForm = some (rd, a, writes) ∧ (a = 0xC01#12 ∨ a = 0xC81#12)) := by
  cases ending with
  | stopped h' same eq => exact .inl (eq ▸ same.timeNow)
  | trapped e g trap eq => exact .inl (eq ▸ trap.timeNow)
  | ran i h' g runs same effect eq =>
    rw [eq, Hart.boundary_timeNow, ← same.timeNow]
    exact effect.ending.timeNow.imp_right fun ⟨forward, rd, a, writes, form, clock⟩ =>
      ⟨forward, i, rd, a, writes, runs, form, clock⟩

/-- Settles O37: a clock that stands is not behind its last sample either. -/
theorem clockNeverRunsBack : Obligations.ClockNeverRunsBack := by
  intro x h h1 e
  rcases (stepEffect_of_step e).ending.timeNow with still | ⟨forward, reads⟩
  · exact ⟨still.ge, fun moved => absurd still moved⟩
  · exact ⟨forward, fun _ => reads⟩

/-! ### Machine state below machine mode (R401, R402) -/

/-- `mie` and `mtvec` stand, and unless `h1` is in machine mode so do the other machine CSRs a step can write and the
mode. -/
def Hart.KeepsMachineState (h h1 : Hart x) : Prop :=
  h1.mie = h.mie ∧ h1.mtvec = h.mtvec ∧
    (h1.priv ≠ .machine → h1.mstatus = h.mstatus ∧ h1.mepc = h.mepc ∧ h1.mcause = h.mcause ∧ h1.mtval = h.mtval ∧
      h1.priv = h.priv)

namespace Hart.KeepsMachineState

variable {h h1 h2 : Hart x}

theorem of_sameControl (s : h.SameControl h1) : h.KeepsMachineState h1 :=
  ⟨s.mie, s.mtvec, fun _ => ⟨s.mstatus, s.mepc, s.mcause, s.mtval, s.priv⟩⟩

theorem of_trapped {code : Nat} {value : XWord x} (t : h.Trapped h1 code value) : h.KeepsMachineState h1 :=
  ⟨t.enables, t.mtvec, fun lower => absurd t.priv lower⟩

theorem trans (a : h.KeepsMachineState h1) (b : h1.KeepsMachineState h2) : h.KeepsMachineState h2 := by
  obtain ⟨mieA, mtvecA, restA⟩ := a
  obtain ⟨mieB, mtvecB, restB⟩ := b
  refine ⟨mieB.trans mieA, mtvecB.trans mtvecA, fun lower => ?_⟩
  obtain ⟨mstatusB, mepcB, mcauseB, mtvalB, privB⟩ := restB lower
  obtain ⟨mstatusA, mepcA, mcauseA, mtvalA, privA⟩ := restA (privB ▸ lower)
  exact ⟨mstatusB.trans mstatusA, mepcB.trans mepcA, mcauseB.trans mcauseA, mtvalB.trans mtvalA, privB.trans privA⟩

end Hart.KeepsMachineState

/-- The boundary keeps the machine state, or enters machine mode. -/
theorem Hart.boundary_keepsMachineState (h : Hart x) : h.KeepsMachineState h.boundary := by
  rcases Hart.boundary_cases h with ⟨e, _⟩ | ⟨_, _, _, e⟩ <;> rw [e]
  · exact ⟨rfl, rfl, fun _ => ⟨rfl, rfl, rfl, rfl, rfl⟩⟩
  · exact ⟨rfl, rfl, fun lower => absurd rfl lower⟩

/-- Below machine mode an instruction keeps the machine state, or traps: it is no MRET, and the only CSRs it can access
are counters. -/
theorem Effect.keepsMachineState {i : Instr} {h h1 : Hart x} (effect : Effect i h h1) (lower : h.priv ≠ .machine) :
    h.KeepsMachineState h1 := by
  cases effect with
  | write rd v t => exact .of_sameControl (((Hart.SameControl.refl h).setReg rd v).commit t)
  | load h' rd v same => exact .of_sameControl ((same.sameButMemory.sameControl.setReg rd v).commit _)
  | store h' same => exact .of_sameControl (same.sameControl.commit _)
  | csr c rd a writes v form ok =>
    rw [Hart.csrWrite_counter (counts_of_lower ok lower), ite_self]
    rcases Hart.csrSampled_cases c h with ⟨_, _, e⟩ | ⟨_, e⟩ <;> rw [e] <;>
      exact ⟨rfl, rfl, fun _ => ⟨rfl, rfl, rfl, rfl, rfl⟩⟩
  | mret is mode => exact absurd mode lower
  | halt => exact ⟨rfl, rfl, fun _ => ⟨rfl, rfl, rfl, rfl, rfl⟩⟩
  | trap h' e same => exact .of_trapped (same.trapped_raise e)

/-- Settles O18: the accesses, the instruction and the boundary of a step each keep the machine state. -/
theorem lowerModesKeepMachineState : Obligations.LowerModesKeepMachineState := by
  intro x h h1 e lower
  cases (stepEffect_of_step e).ending with
  | stopped h' same eq =>
    have kept : h.KeepsMachineState h' := .of_sameControl same.sameButMemory.sameControl
    exact eq ▸ kept
  | trapped exc g trap eq =>
    have kept : h.KeepsMachineState g := .of_trapped trap
    exact eq ▸ kept
  | ran i h' g runs same effect eq =>
    have accesses : h.KeepsMachineState h' := .of_sameControl same.sameButMemory.sameControl
    rw [eq]
    exact (accesses.trans (effect.keepsMachineState (same.priv.symm ▸ lower))).trans g.boundary_keepsMachineState

end Sys2Proof.Machine

/-! SUPPORT. What belongs to the host: the parameters and the interrupt lines, which no step changes
(00_scope.md R8, R10, 60_exceptions.md R384, R385; log 9). -/

namespace Sys2Proof.Machine

variable {x : Xlen}

/-! ### No step changes a parameter or a line -/

/-- The parameters and the interrupt lines stand. -/
def Hart.KeepsHostFields (h h1 : Hart x) : Prop := h1.params = h.params ∧ h1.irq = h.irq

theorem Hart.KeepsHostFields.trans {h h1 h2 : Hart x} (a : h.KeepsHostFields h1) (b : h1.KeepsHostFields h2) :
    h.KeepsHostFields h2 := by
  obtain ⟨paramsA, irqA⟩ := a
  obtain ⟨paramsB, irqB⟩ := b
  exact ⟨paramsB.trans paramsA, irqB.trans irqA⟩

/-- An interrupt taken at the boundary leaves its own line as it is (60_exceptions.md R385). -/
theorem Hart.boundary_keepsHostFields (h : Hart x) : h.KeepsHostFields h.boundary :=
  ⟨boundary_keeps (f := params) (fun _ => rfl) (fun _ _ _ => rfl) h,
    boundary_keeps (f := irq) (fun _ => rfl) (fun _ _ _ => rfl) h⟩

/-- No instruction changes them, in particular no CSR instruction on `mip` (10_state.md R43). -/
theorem Ending.keepsHostFields {i : Instr} {h h1 : Hart x} (ending : Ending i h h1) : h.KeepsHostFields h1 := by
  cases ending with
  | retired control => exact ⟨control.params, control.irq⟩
  | csr c rd a writes v form ok done => exact ⟨done.params, done.irq⟩
  | returned is mode eq => rw [eq]; exact ⟨rfl, rfl⟩
  | halted is eq => rw [eq]; exact ⟨rfl, rfl⟩
  | trapped e may trap => exact ⟨trap.params, trap.irq⟩

/-- A step is device accesses, the instruction or a trap, and the boundary: each keeps them. -/
theorem StepEnding.keepsHostFields {h h1 : Hart x} (ending : StepEnding h h1) : h.KeepsHostFields h1 := by
  cases ending with
  | stopped h' same eq =>
    rw [eq]
    exact ⟨same.params, same.irq⟩
  | trapped e g trap eq =>
    rw [eq]
    exact ⟨trap.params, trap.irq⟩
  | ran i h' g runs same effect eq =>
    have accesses : h.KeepsHostFields h' := ⟨same.params, same.irq⟩
    rw [eq]
    exact (accesses.trans effect.ending.keepsHostFields).trans g.boundary_keepsHostFields

/-- Settles O10: every state has a step, and every step keeps what is the host's. -/
theorem stepAlwaysAnswersNext : Obligations.StepAlwaysAnswersNext := by
  intro x h
  obtain ⟨h1, e, effect⟩ := step_effect h
  exact ⟨h1, e, effect.ending.keepsHostFields⟩

/-! ### Driving a line -/

/-- The one bit of a word with at most one bit set. -/
theorem getLsbD_bitWord {m k : Nat} (fits : k < m) (b : Bool) (n : Nat) :
    (bitWord m k b).getLsbD n = (n == k && b) := by
  cases b with
  | false => simp [bitWord]
  | true =>
    rw [bitWord, if_pos rfl, BitVec.getLsbD_ofNat, Nat.testBit_two_pow]
    by_cases here : n = k
    · simp [here, fits]
    · simp [here, Ne.symm here]

/-- Each bit of `mie` or `mip` as it reads: the three sources' bits, and zero everywhere else (10_state.md R42, R43). -/
theorem IrqBits.getLsbD_read (b : IrqBits) (n : Nat) :
    (b.read x.bits).getLsbD n = (n == 3 && b.msi || n == 7 && b.mti || n == 11 && b.mei) := by
  have words : b.read x.bits = bitWord x.bits 3 b.msi ||| bitWord x.bits 7 b.mti ||| bitWord x.bits 11 b.mei := by
    cases x
    · exact read_bits_32 _ _ _
    · exact read_bits_64 _ _ _
  have fits : 11 < x.bits := by cases x <;> decide
  rw [words, BitVec.getLsbD_or, BitVec.getLsbD_or, getLsbD_bitWord (by omega), getLsbD_bitWord (by omega),
    getLsbD_bitWord fits]

/-- Driving a source's line sets its bit to the level, and leaves the other bits (70_reset_and_hazards.md R433, R434). -/
theorem IrqBits.getLsbD_read_set (b : IrqBits) (q : Irq) (level : Bool) (n : Nat) :
    ((b.set q level).read x.bits).getLsbD n = if n = q.code then level else (b.read x.bits).getLsbD n := by
  simp only [getLsbD_read]
  by_cases here : n = q.code
  · rw [if_pos here, here]
    cases q <;> simp [set, Irq.code]
  · have other : (n == q.code) = false := beq_false_of_ne here
    rw [if_neg here]
    cases q <;> simp only [Irq.code] at other <;> simp only [set, other, Bool.false_and]

/-- A line driven to a level twice is driven once. -/
theorem IrqBits.set_set (b : IrqBits) (q : Irq) (level : Bool) : (b.set q level).set q level = b.set q level := by
  cases q <;> rfl

/-- Settles O26, by what driving a line does to the bits read, and by O10's frame. -/
theorem interruptLinesBelongToHost : Obligations.InterruptLinesBelongToHost := by
  intro s q
  have driven : ∀ level n, ((s.hart.irq.set q level).read s.xlen.bits).getLsbD n =
      if n = q.code then level else (s.hart.irq.read s.xlen.bits).getLsbD n := s.hart.irq.getLsbD_read_set q
  refine ⟨(driven true _).trans (if_pos rfl), (driven false _).trans (if_pos rfl), fun n other => ?others, rfl, rfl,
    ?twice, fun h1 e => ?stepped⟩
  case others => exact ⟨(driven true n).trans (if_neg other), (driven false n).trans (if_neg other)⟩
  case twice => simp only [State.injectInterrupt, IrqBits.set_set]
  case stepped =>
    obtain ⟨_, irq⟩ := (stepEffect_of_step e).ending.keepsHostFields
    exact congrArg (IrqBits.read s.xlen.bits) irq

end Sys2Proof.Machine

/-! SUPPORT. `step(n)` and the creation of a core (70_reset_and_hazards.md R420, R421, R430, R431, R436). -/

namespace Sys2Proof.Machine

variable {x : Xlen}

/-! ### step(n) -/

/-- The first of `n + 1` steps of a running core. -/
theorem stepN_succ_of_step {s t : State} (running : ¬ s.hart.halted = true) (e : step s = .next t) (n : Nat) :
    stepN (n + 1) s = stepN n t := by
  obtain ⟨u, eu, unfolded⟩ := stepN_succ_eq n s
  obtain rfl : u = t := by simpa using eu.symm.trans e
  rw [unfolded, if_neg running]

/-- `step(1)` is one step (R431). -/
theorem step_eq_stepN_one (s : State) : step s = .next (stepN 1 s).1 := by
  by_cases halted : s.hart.halted = true
  · rw [stepN_halted halted]
    exact step_of_halted halted
  · obtain ⟨t, e⟩ := step_answers_next s
    rw [stepN_succ_of_step halted e]
    exact e

/-- `step(a)` then `step(b)` is `step(a + b)`: a core that halts on the way stays as it is. -/
theorem stepN_add (a b : Nat) (s : State) : stepN (a + b) s = stepN b (stepN a s).1 := by
  induction a generalizing s with
  | zero => rw [Nat.zero_add]; rfl
  | succ a ih =>
    by_cases halted : s.hart.halted = true
    · simp only [stepN_halted halted]
    · obtain ⟨t, e⟩ := step_answers_next s
      rw [Nat.add_right_comm, stepN_succ_of_step halted e, stepN_succ_of_step halted e, ih]

/-- The answer tells whether the core is halted at the end (R430). -/
theorem stepN_answer (n : Nat) (s : State) :
    (stepN n s).2 = if (stepN n s).1.hart.halted then .explicitHaltInstruction else .stepLimitReached := by
  induction n generalizing s with
  | zero => rfl
  | succ n ih =>
    by_cases halted : s.hart.halted = true
    · rw [stepN_halted halted, if_pos halted]
    · obtain ⟨t, e⟩ := step_answers_next s
      rw [stepN_succ_of_step halted e]
      exact ih t

/-- Settles O59, part by part. -/
theorem stepNComposes : Obligations.StepNComposes := fun a b s =>
  ⟨step_eq_stepN_one s, stepN_add a b s, rfl, stepN_answer a s⟩

/-! ### Which configurations create a core -/

/-- Neither of the two answers is the unrecoverable fault (R436). -/
theorem stepN_ne_unrecoverableFault (n : Nat) (s : State) : (stepN n s).2 ≠ .unrecoverableFault := by
  rw [stepN_answer]
  split <;> nofun

/-- A configuration that is consistent for its XLEN creates a core. -/
theorem boot_of_consistentFor {c : Configuration} (bits : x.bits = c.xlen) (hc : consistentFor x.bits c = true) :
    boot c = .next ⟨x, bootHart c x⟩ := by
  have xlen : xlenOfNat c.xlen = some x := by rw [← bits]; cases x <;> rfl
  unfold boot
  rw [xlen]
  exact if_pos hc

/-- `boot` creates a core or refuses. -/
theorem boot_ends (c : Configuration) : (∃ s, boot c = .next s) ∨ boot c = .refused .inconsistentConfiguration := by
  unfold boot
  split
  · exact .inr rfl
  · split
    · exact .inl ⟨_, rfl⟩
    · exact .inr rfl

/-- The widths XLEN can have. -/
theorem exists_bits_eq_iff (n : Nat) : (∃ x : Xlen, x.bits = n) ↔ n = 32 ∨ n = 64 := by
  constructor
  · rintro ⟨x, rfl⟩
    cases x
    · exact .inl rfl
    · exact .inr rfl
  · rintro (rfl | rfl)
    · exact ⟨.rv32, rfl⟩
    · exact ⟨.rv64, rfl⟩

/-- Settles O58: the conditions are `consistentFor` at the XLEN given, and only such a configuration creates a core. -/
theorem bootRefusesInconsistent : Obligations.BootRefusesInconsistent := by
  intro c
  rw [← exists_bits_eq_iff, ← consistentFor_iff]
  refine ⟨fun ⟨⟨x, bits⟩, hc⟩ => ?created, fun inconsistent => ?refused⟩
  case created =>
    exact ⟨_, boot_of_consistentFor bits (bits ▸ hc), fun n => stepN_ne_unrecoverableFault n _⟩
  case refused =>
    refine (boot_ends c).resolve_left fun ⟨s, e⟩ => inconsistent ?_
    obtain ⟨x, bits, hc, _⟩ := boot_cases e
    exact ⟨⟨x, bits⟩, bits ▸ hc⟩

end Sys2Proof.Machine
